-- ==== Sys2Proof/Word.lean ====
section
/-! DEFINITION. The word types of the block: bytes, 32-bit register values, byte sequences (R10, R14). -/

namespace Sys2Proof

/-- R10: a byte is 8 bits. -/
abbrev Byte := BitVec 8

/-- R10: a "value" is an unsigned 32-bit integer. -/
abbrev Value := BitVec 32

/-- R10: a byte sequence, first byte on the wire first; also a line of command text (R90). -/
abbrev Bytes := List Byte

end Sys2Proof
end

