-- ==== Sys2Proof/Config.lean ====
section
/-! DEFINITION. What the source fixes (R7), what the environment may answer (R6, R12), and the free values: answers
and levels the spec leaves open, as constants with no body. -/

namespace Sys2Proof

/-- An SPI frame, five bytes, `b0` first on the wire (R73, R74). -/
structure SpiFrame where
  b0 : Byte
  b1 : Byte
  b2 : Byte
  b3 : Byte
  b4 : Byte
  deriving DecidableEq, Repr, Inhabited

/-- The level of a select line (R24): the high level is the deasserted one. -/
inductive Level where
  | deasserted
  | asserted
  deriving DecidableEq, Repr, Inhabited

/-- What the SPI controller answers to a configuration (R100, R101). -/
inductive ConfigureAnswer where
  | accept
  | reject
  deriving DecidableEq, Repr, Inhabited

/-- What the environment answers to one SPI exchange (R12, R50): the received frame, a fault, or never anything. -/
inductive ExchangeAnswer where
  | ok (rx : SpiFrame)
  | fault
  | never
  deriving DecidableEq, Repr, Inhabited

/-- What resolves at one sub-step while a UART operation is `Sending` (R131, R135): nothing yet, the unit of work's
completion `Done`, its `Fault`, or the timer's expiry. -/
inductive SendAnswer where
  | pending
  | done
  | fault
  | expire
  deriving DecidableEq, Repr, Inhabited

/-- What resolves at one sub-step while a read is `AwaitingResponse` (R132, R134, R135): neither the timer nor a
fault, so that the framer takes eight bytes if they are there; a fault of the receive (D16); or the timer's expiry;
the last two with the number of received bytes consumed (R138 (c), a draw; for a fault DESIGN CHOICE, log entry 23). -/
inductive ReceiveAnswer where
  | proceed
  | fault (k : Nat)
  | expire (k : Nat)
  deriving DecidableEq, Repr, Inhabited

/-- R131, R132: what the environment may do to a UART line at any time. -/
inductive LineMove where
  /-- Put the first byte of `uart.txLeft` on the line. -/
  | emit
  /-- Put the first byte left by abandoned transmission number `n` on the line (R138 (a); log entry 6). -/
  | emitOld (n : Nat)
  /-- Lose the first byte of `uart.txLeft`, once its transmission is abandoned (A6; log entry 6). -/
  | lose
  /-- Lose the first byte left by abandoned transmission number `n` (A6; log entry 6). -/
  | loseOld (n : Nat)
  /-- Append received bytes to `uart.rxq`. -/
  | receive (bs : Bytes)
  deriving DecidableEq, Repr, Inhabited

/-- Who moves next (R59, R213): the running caller, the environment on a UART line, or another caller, which becomes
the running one. -/
inductive Turn where
  | run
  | line (uart : Nat) (move : LineMove)
  | switch (waiting : Nat)
  deriving DecidableEq, Repr, Inhabited

namespace Config

/-- R7 `UART_SYNC`; R30 `sync`, a constant. -/
def uartSync : Byte := 0x05

/-- R7 `UART_RW_FLAG`. -/
def uartRwFlag : Byte := 0x80

/-- R7 `UART_BAUD`. -/
def uartBaud : Nat := 115200

/-- R7 `UART_FRAMING`: data bits. -/
def uartDataBits : Nat := 8

/-- R7 `UART_FRAMING`: stop bits. -/
def uartStopBits : Nat := 1

/-- R7 `UART_TIMEOUT_MS`; R30 `timeoutMs`, a constant. The model keeps no time (R6), so nothing counts it down. -/
def uartTimeoutMs : Nat := 100

/-- R7 `UART_READRESP_BYTES`. -/
def uartResponseBytes : Nat := 8

/-- R7 `SPEED_LIMIT`. -/
def speedLimit : Nat := 715828

/-- R7 `TSTEP_MAX`. -/
def tstepMax : Nat := 1048575

/-- R8 `SPI_SCK_HZ`, the reference value. -/
def referenceSckHz : PNat := 12000000

/-- Free value: the controller's answer at draw `n`, where no listed answer is left (A13). -/
opaque freeConfigure : Nat → ConfigureAnswer

/-- Free value: the environment's answer to an SPI exchange at draw `n`, where no listed answer is left (R33, R50). -/
opaque freeExchange : Nat → ExchangeAnswer

/-- Free value: what resolves while sending at draw `n`, where no listed answer is left (R135). -/
opaque freeSend : Nat → SendAnswer

/-- Free value: what resolves while receiving at draw `n`, where no listed answer is left (R135). -/
opaque freeReceive : Nat → ReceiveAnswer

/-- Free value: the turn taken at draw `n`, where no listed turn is left (R6, R59, R131, R132): the running caller's, another
caller's, or the environment's, which may put bytes on a UART line or deliver received bytes. -/
opaque freeTurn : Nat → Turn

/-- Free value: the level of a select line after a rejected setup at draw `n` (R101 (b), A12). -/
opaque freeLevel : Nat → Nat → Level

/-- Free value: what the receive buffer holds after a faulted exchange at draw `n` (R26, R50). -/
opaque freeFrame : Nat → SpiFrame

end Config

end Sys2Proof
end

