-- ==== Sys2Proof/Syntax.lean ====
section
/-! DEFINITION. The operations of the block (R70) and the pseudo-operation of R95, one constructor per row of
spec/opcode_table.json, and a command line of a host program (R90). -/

namespace Sys2Proof

/-- The closed set of operations (R70) and the pseudo-operation `spi.read2` (R95). Operands are those of R70; a
conversion's ConversionContext is the program's (R90), so the program's caller holds it and it is no operand here. -/
inductive Instr where
  /-- `spi.setup` (R100, R101). -/
  | spiSetup
  /-- `spi.write register value device` (R102). -/
  | spiWrite (reg : Byte) (value : Value) (device : Byte)
  /-- `spi.read register device` (R103). -/
  | spiRead (reg : Byte) (device : Byte)
  /-- `uart.setup` (R130). -/
  | uartSetup
  /-- `uart.write register value device` (R133). -/
  | uartWrite (reg : Byte) (value : Value) (device : Byte)
  /-- `uart.read register device` (R134). -/
  | uartRead (reg : Byte) (device : Byte)
  /-- `bind.write register value` (R190). -/
  | bindWrite (reg : Byte) (value : Value)
  /-- `bind.read register` (R191). -/
  | bindRead (reg : Byte)
  /-- `conv.speedToHz x` (R160): x is a natural number 0..2^32-1. -/
  | convSpeedToHz (x : Value)
  /-- `conv.speedFromHz h` (R161). -/
  | convSpeedFromHz (h : Rat)
  /-- `conv.accelFromHz a` (R162). -/
  | convAccelFromHz (a : Rat)
  /-- `conv.thresholdSpeedToTstep t` (R163). -/
  | convThresholdSpeedToTstep (t : Rat)
  /-- `spi.read2 register device` (R95). -/
  | spiRead2 (reg : Byte) (device : Byte)
  deriving DecidableEq, Repr

/-- The mnemonics of spec/opcode_table.json, as names. -/
inductive Mnemonic where
  | spiSetup | spiWrite | spiRead | uartSetup | uartWrite | uartRead | bindWrite | bindRead
  | convSpeedToHz | convSpeedFromHz | convAccelFromHz | convThresholdSpeedToTstep | spiRead2
  deriving DecidableEq, Repr

/-- The row of the table an operation belongs to. -/
def Instr.mnemonic : Instr → Mnemonic
  | .spiSetup => .spiSetup
  | .spiWrite _ _ _ => .spiWrite
  | .spiRead _ _ => .spiRead
  | .uartSetup => .uartSetup
  | .uartWrite _ _ _ => .uartWrite
  | .uartRead _ _ => .uartRead
  | .bindWrite _ _ => .bindWrite
  | .bindRead _ => .bindRead
  | .convSpeedToHz _ => .convSpeedToHz
  | .convSpeedFromHz _ => .convSpeedFromHz
  | .convAccelFromHz _ => .convAccelFromHz
  | .convThresholdSpeedToTstep _ => .convThresholdSpeedToTstep
  | .spiRead2 _ _ => .spiRead2

/-- A line of a host program (R90): an operation and, where the line has `-> <name>`, the name its result is bound
to. -/
structure Command where
  op   : Instr
  name : Option Bytes
  deriving DecidableEq, Repr

end Sys2Proof
end

