-- ==== Sys2Proof/WellFormed.lean ====
section
/-! DEFINITION. Which operations and command lines are well formed: the register range (R72) and the result name
(R90). -/

namespace Sys2Proof

/-- The register operand of a bus operation (R72 lists these operations and `spi.read2` expands to one of them). -/
def Instr.register? : Instr → Option Byte
  | .spiSetup => none
  | .spiWrite r _ _ => some r
  | .spiRead r _ => some r
  | .uartSetup => none
  | .uartWrite r _ _ => some r
  | .uartRead r _ => some r
  | .bindWrite r _ => some r
  | .bindRead r => some r
  | .convSpeedToHz _ => none
  | .convSpeedFromHz _ => none
  | .convAccelFromHz _ => none
  | .convThresholdSpeedToTstep _ => none
  | .spiRead2 r _ => some r

/-- R72: a register operand is 0x00..0x7F. -/
def Instr.wellFormed (i : Instr) : Bool :=
  match i.register? with
  | none => true
  | some r => decide (r.toNat < 0x80)

/-- R90 writes `-> <name>` after the operations that return a value, and after no other. -/
def Instr.returnsValue : Instr → Bool
  | .spiSetup => false
  | .spiWrite _ _ _ => false
  | .spiRead _ _ => true
  | .uartSetup => false
  | .uartWrite _ _ _ => false
  | .uartRead _ _ => true
  | .bindWrite _ _ => false
  | .bindRead _ => true
  | .convSpeedToHz _ => true
  | .convSpeedFromHz _ => true
  | .convAccelFromHz _ => true
  | .convThresholdSpeedToTstep _ => true
  | .spiRead2 _ _ => true

/-- A result name is one or more printable ASCII bytes, none of them a blank (DESIGN CHOICE, log entry 12: R90 writes
only `<name>`). -/
def nameOk (n : Bytes) : Bool :=
  !n.isEmpty && n.all (fun b => decide (0x21 ≤ b.toNat) && decide (b.toNat ≤ 0x7E))

/-- A well-formed command line: its operation is well formed, and a name stands only where R90 has one. -/
def Command.wellFormed (c : Command) : Bool :=
  c.op.wellFormed &&
    match c.name with
    | none => true
    | some n => c.op.returnsValue && nameOk n

end Sys2Proof
end

