-- ==== Sys2Proof/Decode.lean ====
section
/-! DEFINITION. Command lines to operations and back (R90), total on any bytes and rejecting by name; and the frame
patterns of spec/opcode_table.json read as numbers (R73, R76, R77, R84). -/

namespace Sys2Proof

/-! ## Text -/

/-- The ASCII byte of a character. -/
def ch (c : Char) : Byte := BitVec.ofNat 8 c.toNat

/-- The ASCII bytes of a text. -/
def ascii (s : String) : Bytes := s.toList.map ch

/-- The byte that parts two words of a line. -/
def blankByte : Byte := 0x20

/-- A line cut at every blank byte; two blanks in a row leave an empty piece. -/
def splitBlank : Bytes → List Bytes
  | [] => [[]]
  | b :: bs =>
    if b = blankByte then [] :: splitBlank bs
    else
      match splitBlank bs with
      | [] => [[b]]
      | w :: ws => (b :: w) :: ws

/-- The words of a line (R90 aligns its lines with runs of blanks). -/
def tokens (line : Bytes) : List Bytes := (splitBlank line).filter (fun w => !w.isEmpty)

/-- Words joined with one blank between them. -/
def joinBlank : List Bytes → Bytes
  | [] => []
  | [w] => w
  | w :: v :: ws => w ++ blankByte :: joinBlank (v :: ws)

/-- `stripKey k t` is the rest of `t` after the leading text `k`. -/
def stripKey : Bytes → Bytes → Option Bytes
  | [], t => some t
  | _ :: _, [] => none
  | k :: ks, b :: bs => if k = b then stripKey ks bs else none

/-! ## Numbers -/

/-- The value of a decimal digit. -/
def decimalDigit? (b : Byte) : Option Nat :=
  if 0x30 ≤ b.toNat ∧ b.toNat ≤ 0x39 then some (b.toNat - 0x30) else none

/-- The value of a hexadecimal digit, capital or small. -/
def hexDigit? (b : Byte) : Option Nat :=
  if 0x30 ≤ b.toNat ∧ b.toNat ≤ 0x39 then some (b.toNat - 0x30)
  else if 0x41 ≤ b.toNat ∧ b.toNat ≤ 0x46 then some (b.toNat - 0x37)
  else if 0x61 ≤ b.toNat ∧ b.toNat ≤ 0x66 then some (b.toNat - 0x57)
  else none

/-- The number a run of digits stands for, the most significant first, after the digits already read. -/
def digitsValue (base : Nat) (digit? : Byte → Option Nat) (read : Nat) : Bytes → Option Nat
  | [] => some read
  | b :: bs =>
    match digit? b with
    | none => none
    | some d => digitsValue base digit? (read * base + d) bs

/-- A decimal number of one digit or more. -/
def parseDecimal (t : Bytes) : Option Nat :=
  if t.isEmpty then none else digitsValue 10 decimalDigit? 0 t

/-- A number of R90: `0x` and hexadecimal digits, or decimal digits (the spec's own lines write `val=1` too). -/
def parseNumber (t : Bytes) : Option Nat :=
  match stripKey (ascii "0x") t with
  | some h => if h.isEmpty then none else digitsValue 16 hexDigit? 0 h
  | none => parseDecimal t

/-- The text before the first slash, and the text after it where there is one. -/
def splitSlash : Bytes → Bytes × Option Bytes
  | [] => ([], none)
  | b :: bs =>
    if b = ch '/' then ([], some bs)
    else (b :: (splitSlash bs).1, (splitSlash bs).2)

/-- A rational of R90 without its sign: `n` or `n/d` with `d` not zero. -/
def parseUnsignedRat (t : Bytes) : Option (Nat × Nat) :=
  match splitSlash t with
  | (n, none) =>
    match parseDecimal n with
    | none => none
    | some n => some (n, 1)
  | (n, some d) =>
    match parseDecimal n, parseDecimal d with
    | some n, some d => if d = 0 then none else some (n, d)
    | _, _ => none

/-- A rational of R90 (DESIGN CHOICE, log entry 12: an optional minus sign, then `n` or `n/d` in decimal, as the spec's
vectors write them). -/
def parseRat (t : Bytes) : Option Rat :=
  match stripKey (ascii "-") t with
  | some u =>
    match parseUnsignedRat u with
    | none => none
    | some (n, d) => some (mkRat (-(n : Int)) d)
  | none =>
    match parseUnsignedRat t with
    | none => none
    | some (n, d) => some (mkRat (n : Int) d)

/-- The ASCII byte of a digit below 16, a capital letter from ten on. -/
def digitByte (d : Nat) : Byte := BitVec.ofNat 8 (if d < 10 then 0x30 + d else 0x37 + d)

/-- The decimal digits of `n` put before `acc`; `fuel` bounds the digits. -/
def decimalOnto : Nat → Nat → Bytes → Bytes
  | 0, _, acc => acc
  | fuel + 1, n, acc =>
    if n < 10 then digitByte n :: acc else decimalOnto fuel (n / 10) (digitByte (n % 10) :: acc)

/-- A number in decimal. -/
def decimalText (n : Nat) : Bytes := decimalOnto (n + 1) n []

/-- The last `k` hexadecimal digits of `n`. -/
def hexDigits : Nat → Nat → Bytes
  | 0, _ => []
  | k + 1, n => hexDigits k (n / 16) ++ [digitByte (n % 16)]

/-- R90 `<0xHH>`. -/
def byteText (b : Byte) : Bytes := ascii "0x" ++ hexDigits 2 b.toNat

/-- R90 `<0xHHHHHHHH>`. -/
def valueText (v : Value) : Bytes := ascii "0x" ++ hexDigits 8 v.toNat

/-- R90 `<rational>`, in lowest terms. -/
def ratText (q : Rat) : Bytes :=
  (if q.num < 0 then ascii "-" else []) ++ decimalText q.num.natAbs ++
    (if q.den = 1 then [] else ch '/' :: decimalText q.den)

/-! ## Mnemonics -/

/-- The mnemonics as spec/opcode_table.json spells them. -/
def Mnemonic.text : Mnemonic → Bytes
  | .spiSetup => ascii "spi.setup"
  | .spiWrite => ascii "spi.write"
  | .spiRead => ascii "spi.read"
  | .uartSetup => ascii "uart.setup"
  | .uartWrite => ascii "uart.write"
  | .uartRead => ascii "uart.read"
  | .bindWrite => ascii "bind.write"
  | .bindRead => ascii "bind.read"
  | .convSpeedToHz => ascii "conv.speedToHz"
  | .convSpeedFromHz => ascii "conv.speedFromHz"
  | .convAccelFromHz => ascii "conv.accelFromHz"
  | .convThresholdSpeedToTstep => ascii "conv.thresholdSpeedToTstep"
  | .spiRead2 => ascii "spi.read2"

/-- Every mnemonic, in the table's order. -/
def Mnemonic.all : List Mnemonic :=
  [.spiSetup, .spiWrite, .spiRead, .uartSetup, .uartWrite, .uartRead, .bindWrite, .bindRead,
    .convSpeedToHz, .convSpeedFromHz, .convAccelFromHz, .convThresholdSpeedToTstep, .spiRead2]

/-- R70: a command not in the table has no mnemonic. -/
def mnemonicOf (w : Bytes) : Option Mnemonic := Mnemonic.all.find? (fun m => m.text == w)

/-! ## The decoder -/

/-- Why a line is no command. -/
inductive DecodeError where
  /-- The line holds no word. -/
  | emptyLine
  /-- The first word is no mnemonic of R70 or R95. -/
  | unknownMnemonic
  /-- The operation has other operands than the line gives. -/
  | wrongOperands
  /-- An operand does not begin with the key R90 gives it. -/
  | wrongKey
  /-- An operand's number cannot be read. -/
  | badNumber
  /-- An operand's number is too large for it (R14, R160). -/
  | operandRange
  /-- The result name is not `-> <name>`. -/
  | badName
  deriving DecidableEq, Repr

/-- The number after an operand's key, below a limit. -/
def numberField (key : String) (limit : Nat) (t : Bytes) : Except DecodeError Nat :=
  match stripKey (ascii key) t with
  | none => .error .wrongKey
  | some u =>
    match parseNumber u with
    | none => .error .badNumber
    | some n => if n < limit then .ok n else .error .operandRange

/-- A byte operand (R14). -/
def byteField (key : String) (t : Bytes) : Except DecodeError Byte :=
  match numberField key 256 t with
  | .error e => .error e
  | .ok n => .ok (BitVec.ofNat 8 n)

/-- A 32-bit operand (R14). -/
def valueField (key : String) (t : Bytes) : Except DecodeError Value :=
  match numberField key 4294967296 t with
  | .error e => .error e
  | .ok n => .ok (BitVec.ofNat 32 n)

/-- A rational operand. -/
def ratField (key : String) (t : Bytes) : Except DecodeError Rat :=
  match stripKey (ascii key) t with
  | none => .error .wrongKey
  | some u =>
    match parseRat u with
    | none => .error .badNumber
    | some q => .ok q

/-- The end of a line that may bind a result: nothing, or `-> <name>`. -/
def resultName : List Bytes → Except DecodeError (Option Bytes)
  | [] => .ok none
  | [arrow, n] => if arrow = ascii "->" ∧ nameOk n = true then .ok (some n) else .error .badName
  | _ => .error .wrongOperands

/-- Register and device operands, then the result name. -/
def readOperands (mk : Byte → Byte → Instr) : List Bytes → Except DecodeError Command
  | r :: d :: rest => do
    let reg ← byteField "reg=" r
    let dev ← byteField "dev=" d
    let name ← resultName rest
    .ok ⟨mk reg dev, name⟩
  | _ => .error .wrongOperands

/-- Register, value and device operands. -/
def writeOperands (mk : Byte → Value → Byte → Instr) : List Bytes → Except DecodeError Command
  | [r, v, d] => do
    let reg ← byteField "reg=" r
    let value ← valueField "val=" v
    let dev ← byteField "dev=" d
    .ok ⟨mk reg value dev, none⟩
  | _ => .error .wrongOperands

/-- One rational operand, then the result name. -/
def ratOperand (key : String) (mk : Rat → Instr) : List Bytes → Except DecodeError Command
  | q :: rest => do
    let q ← ratField key q
    let name ← resultName rest
    .ok ⟨mk q, name⟩
  | _ => .error .wrongOperands

/-- No operand. -/
def noOperands (i : Instr) : List Bytes → Except DecodeError Command
  | [] => .ok ⟨i, none⟩
  | _ :: _ => .error .wrongOperands

/-- The operands of each operation, in R90's order. -/
def decodeOperands : Mnemonic → List Bytes → Except DecodeError Command
  | .spiSetup, ws => noOperands .spiSetup ws
  | .spiWrite, ws => writeOperands .spiWrite ws
  | .spiRead, ws => readOperands .spiRead ws
  | .uartSetup, ws => noOperands .uartSetup ws
  | .uartWrite, ws => writeOperands .uartWrite ws
  | .uartRead, ws => readOperands .uartRead ws
  | .bindWrite, [r, v] => do
    let reg ← byteField "reg=" r
    let value ← valueField "val=" v
    .ok ⟨.bindWrite reg value, none⟩
  | .bindWrite, _ => .error .wrongOperands
  | .bindRead, r :: rest => do
    let reg ← byteField "reg=" r
    let name ← resultName rest
    .ok ⟨.bindRead reg, name⟩
  | .bindRead, [] => .error .wrongOperands
  | .convSpeedToHz, x :: rest => do
    let x ← valueField "x=" x
    let name ← resultName rest
    .ok ⟨.convSpeedToHz x, name⟩
  | .convSpeedToHz, [] => .error .wrongOperands
  | .convSpeedFromHz, ws => ratOperand "hz=" .convSpeedFromHz ws
  | .convAccelFromHz, ws => ratOperand "a=" .convAccelFromHz ws
  | .convThresholdSpeedToTstep, ws => ratOperand "t=" .convThresholdSpeedToTstep ws
  | .spiRead2, ws => readOperands .spiRead2 ws

/-- The words of a line to a command. -/
def decodeTokens : List Bytes → Except DecodeError Command
  | [] => .error .emptyLine
  | w :: ws =>
    match mnemonicOf w with
    | none => .error .unknownMnemonic
    | some m => decodeOperands m ws

/-- R90: "Each line maps to exactly one operation of rule R70"; total on any bytes. -/
def decode (line : Bytes) : Except DecodeError Command := decodeTokens (tokens line)

/-! ## The encoder -/

/-- The operand words of an operation, as R90 writes them. -/
def operandTokens : Instr → List Bytes
  | .spiSetup => []
  | .spiWrite r v d =>
    [ascii "reg=" ++ byteText r, ascii "val=" ++ valueText v, ascii "dev=" ++ byteText d]
  | .spiRead r d => [ascii "reg=" ++ byteText r, ascii "dev=" ++ byteText d]
  | .uartSetup => []
  | .uartWrite r v d =>
    [ascii "reg=" ++ byteText r, ascii "val=" ++ valueText v, ascii "dev=" ++ byteText d]
  | .uartRead r d => [ascii "reg=" ++ byteText r, ascii "dev=" ++ byteText d]
  | .bindWrite r v => [ascii "reg=" ++ byteText r, ascii "val=" ++ valueText v]
  | .bindRead r => [ascii "reg=" ++ byteText r]
  | .convSpeedToHz x => [ascii "x=" ++ decimalText x.toNat]
  | .convSpeedFromHz h => [ascii "hz=" ++ ratText h]
  | .convAccelFromHz a => [ascii "a=" ++ ratText a]
  | .convThresholdSpeedToTstep t => [ascii "t=" ++ ratText t]
  | .spiRead2 r d => [ascii "reg=" ++ byteText r, ascii "dev=" ++ byteText d]

/-- The words that bind a result. -/
def nameTokens : Option Bytes → List Bytes
  | none => []
  | some n => [ascii "->", n]

/-- The words of a command. -/
def commandTokens (c : Command) : List Bytes :=
  c.op.mnemonic.text :: (operandTokens c.op ++ nameTokens c.name)

/-- A command as a line of R90. -/
def encode (c : Command) : Bytes := joinBlank (commandTokens c)

/-! ## Frame patterns as numbers -/

/-- A row of spec/opcode_table.json that has a frame: its width in bits, its mask and its match. -/
structure FrameRow where
  row     : Mnemonic
  nbits   : Nat
  mask    : Nat
  pattern : Nat
  deriving DecidableEq, Repr

/-- The rows of spec/opcode_table.json that have a frame; the row of `spi.read` stands before the wider one of
`spi.write`, whose zero-valued frame is the same (R75), and the last row is the table's note on
`SPI_WRITE_FLAG` = 0x80. -/
def frameRows : List FrameRow :=
  [⟨.spiRead, 40, 0x80FFFFFFFF, 0x0000000000⟩, ⟨.spiWrite, 40, 0x8000000000, 0x0000000000⟩,
    ⟨.uartWrite, 64, 0xFF00800000000000, 0x0500800000000000⟩, ⟨.uartRead, 32, 0xFF008000, 0x05000000⟩,
    ⟨.spiWrite, 40, 0x8000000000, 0x8000000000⟩]

/-- `bitField w lo n` is the `n` bits of the frame number `w` from bit `lo` up. -/
def bitField (w lo n : Nat) : Nat := w / 2 ^ lo % 2 ^ n

/-- The operation whose frame the number `w` is, by the table's row. An SPI frame carries no device, so the device
is 0x00 (DESIGN CHOICE, log entry 13). The checksum is no operand: the framer computes it (R76, R77). -/
def frameInstr (row : Mnemonic) (w : Nat) : Option Instr :=
  match row with
  | .spiRead => some (.spiRead (BitVec.ofNat 8 (bitField w 32 7)) 0)
  | .spiWrite => some (.spiWrite (BitVec.ofNat 8 (bitField w 32 7)) (BitVec.ofNat 32 (bitField w 0 32)) 0)
  | .uartWrite =>
    some (.uartWrite (BitVec.ofNat 8 (bitField w 40 7)) (BitVec.ofNat 32 (bitField w 8 32))
      (BitVec.ofNat 8 (bitField w 48 8)))
  | .uartRead => some (.uartRead (BitVec.ofNat 8 (bitField w 8 7)) (BitVec.ofNat 8 (bitField w 16 8)))
  | .spiSetup => none
  | .uartSetup => none
  | .bindWrite => none
  | .bindRead => none
  | .convSpeedToHz => none
  | .convSpeedFromHz => none
  | .convAccelFromHz => none
  | .convThresholdSpeedToTstep => none
  | .spiRead2 => none

/-- The operation of a frame of `nbits` bits read as the number `w`, the table's way: the first row of that width
whose match the masked number is. The operation of an operation without a frame has no such number. -/
def decodeTableWord (nbits w : Nat) : Option Instr :=
  match frameRows.find? (fun r => r.nbits == nbits && Nat.land w r.mask == r.pattern) with
  | none => none
  | some r => frameInstr r.row w

end Sys2Proof
end

