-- ==== Sys2Proof/Machine/State.lean ====
section
/-! DEFINITION. The state: transport objects, callers and the environment's listed answers, as plain data
(spec/10_state.md); the errors and results of R200 and R13; the reasons a step stops; the state after construction. -/

namespace Sys2Proof.Machine

/-! ## Errors and results -/

/-- R200: the errors an operation returns. -/
inductive Error where
  | configuration
  | unknownDevice
  | transport
  | timeout
  | checksum
  | invalidArgument
  deriving DecidableEq, Repr

/-- R13, R70: what a successful operation returns. -/
inductive ResultValue where
  /-- `void`: a setup or a write. -/
  | void
  /-- `uint32`: a register read. -/
  | word (v : Value)
  /-- ℚ, Hz: `conv.speedToHz`. -/
  | hertz (q : Rat)
  /-- ℕ: `conv.speedFromHz` and `conv.thresholdSpeedToTstep`. -/
  | natural (n : Nat)
  /-- ℤ: `conv.accelFromHz`. -/
  | integer (n : Int)
  deriving DecidableEq, Repr

/-- R13: `Result<T, Error>`, how an operation ends. -/
inductive OpResult where
  | ok (v : ResultValue)
  | err (e : Error)
  deriving DecidableEq, Repr

/-! ## Reasons a step stops -/

/-- Why the machine stops. -/
inductive Fault where
  /-- Raised by `spi.write`, `spi.read`, `spi.read2`, `bind.write` and `bind.read` over SPI where the environment never
  answers the exchange: the spec's `Stuck` (R15, R50, A14). Safe: the spec stops there too. -/
  | spiExchangeUnanswered
  /-- Raised by the step when the running caller's program has no command left: the spec's end of a run (R21).
  Safe: the spec's run stops there too. -/
  | programEnded
  deriving DecidableEq, Repr

/-- Why the model gives a command no meaning; each but the first is a `Refused` of the spec (R15). -/
inductive Refusal where
  /-- An operation whose meaning is not written yet. Safe. -/
  | notModelled (mnemonic : String)
  /-- Raised by every bus operation: bit 7 of the register operand is set (R72). Safe. -/
  | registerBitSeven
  /-- Raised by every conversion: `clockHz` or `microsteps` is not an integer of 1 or more (R159). Safe. -/
  | conversionContext
  /-- Raised by `conv.speedFromHz`: the result is above 2^32-1 (R161). Safe. -/
  | speedOutOfRange
  /-- Raised by `conv.accelFromHz`: the result is no signed 32-bit integer (R162). Safe. -/
  | accelOutOfRange
  /-- Raised by every UART operation: another command runs on the transport (R57, R143). Safe. -/
  | concurrentCommand
  /-- Raised by every SPI and UART operation: the running caller is not the one caller of the transport object (R57, R213,
  R246). Safe. -/
  | secondCaller
  /-- Raised by the step: the program's line is no command of R70 or R95 (R70). Safe. -/
  | noCommand (why : DecodeError)
  deriving DecidableEq, Repr

/-! ## An SPI transceiver -/

/-- R22, R28: whether the bus handle was supplied at construction. -/
inductive Handle where
  | unset
  | set
  deriving DecidableEq, Repr

/-- R25: the bit order on the SPI bus. -/
inductive BitOrder where
  | lsbFirst
  | msbFirst
  deriving DecidableEq, Repr

/-- R8, R73: `SPI_WRITE_FLAG` is 0x00 or 0x80. -/
inductive WriteFlag where
  | flag00
  | flag80
  deriving DecidableEq, Repr

/-- The form of the frame an exchange carried: a read of a register (R103) or a write (R102). -/
inductive FrameForm where
  | read (reg : Byte)
  | write
  deriving DecidableEq, Repr

/-- One finished exchange (R50): the frame sent, its form, and the frame received, `none` after a fault. -/
structure Exchange where
  form : FrameForm
  tx   : SpiFrame
  rx   : Option SpiFrame
  deriving DecidableEq, Repr

/-- One entry of `SELECT_TABLE` (R8, R61): the device byte and its select line, with that line's level (R24) and the
ghost record of its exchanges, the newest first, of which `spi.lastTx[line]` (R27) is a view. -/
structure SelectLine where
  device : Byte
  line   : Nat
  level  : Level
  log    : List Exchange
  deriving DecidableEq, Repr

/-- An SPI transceiver (R22 to R27), with the answers its environment will give. -/
structure Spi where
  /-- R213: the number of the one caller of this object, fixed at construction. -/
  owner      : Nat
  /-- R22 `spi.handle`. -/
  handle     : Handle
  /-- R23 `spi.configured`. -/
  configured : Bool
  /-- R25 `SELECT_TABLE` and R24 `spi.sel[line]`. -/
  lines      : List SelectLine
  /-- R25 `cpol`. -/
  cpol       : BitVec 1
  /-- R25 `cpha`. -/
  cpha       : BitVec 1
  /-- R25 `bitOrder`. -/
  bitOrder   : BitOrder
  /-- R25 `sckHz`. -/
  sckHz      : Nat
  /-- R8 `SPI_SCK_HZ`, a parameter of construction: a positive integer. -/
  sckParam   : PNat
  /-- R8 `SPI_WRITE_FLAG`, a parameter of construction. -/
  writeFlag  : WriteFlag
  /-- R26 `spi.tx`. -/
  tx         : SpiFrame
  /-- R26 `spi.rx`. -/
  rx         : SpiFrame
  /-- The controller's coming answers to a configuration (R6); where none is left, a free value. -/
  configureAnswers : List ConfigureAnswer
  /-- The environment's coming answers to exchanges (R6); where none is left, a free value. -/
  exchangeAnswers  : List ExchangeAnswer
  deriving DecidableEq, Repr

/-! ## A UART framer -/

/-- R30: the parity of the UART framing. -/
inductive Parity where
  | none
  | even
  | odd
  deriving DecidableEq, Repr

/-- R31: the per-operation state `uart.op`. -/
inductive UartOp where
  | idle
  | sending
  | awaitingResponse
  | complete
  | timedOut
  | checksumError
  | faulted
  deriving DecidableEq, Repr

/-- A UART framer (R28 to R32), with the answers its environment will give. -/
structure Uart where
  /-- R213: the number of the one caller of this object, fixed at construction. -/
  owner      : Nat
  /-- R28 `uart.handle`. -/
  handle     : Handle
  /-- R29 `uart.configured`. -/
  configured : Bool
  /-- R30 `baud`. -/
  baud       : Nat
  /-- R30 `dataBits`. -/
  dataBits   : Nat
  /-- R30 `parity`. -/
  parity     : Parity
  /-- R30 `stopBits`. -/
  stopBits   : Nat
  /-- R31 `uart.op`. -/
  op         : UartOp
  /-- The value a `Complete` operation returns: the pseudocode's `r` of R133 and R134. -/
  got        : ResultValue
  /-- R32 `uart.rxq`. -/
  rxq        : Bytes
  /-- R32 `uart.txLeft`, of the transmission dispatched last. -/
  txLeft     : Bytes
  /-- R138 (a), log entries 6 and 23: what each earlier transmission that timed out or faulted left unsent when a later one was
  dispatched, the oldest first. -/
  txOld      : List Bytes
  /-- Ghost: the bytes the environment has put on the line, in order (R131). -/
  wire       : Bytes
  /-- What resolves at the coming sub-steps of sending (R135); where none is left, a free value. -/
  sendAnswers    : List SendAnswer
  /-- What resolves at the coming sub-steps of receiving (R135); where none is left, a free value. -/
  receiveAnswers : List ReceiveAnswer
  deriving DecidableEq, Repr

/-- R30 `sync`, a constant of every framer. -/
abbrev Uart.sync (_ : Uart) : Byte := Config.uartSync

/-- R30 `timeoutMs`, a constant of every framer. -/
abbrev Uart.timeoutMs (_ : Uart) : Nat := Config.uartTimeoutMs

/-- R211: an operation's one-shot timer runs from dispatch until the result is set. -/
abbrev Uart.timerRunning (u : Uart) : Bool := u.op == .sending || u.op == .awaitingResponse

/-! ## Callers -/

/-- R35: a reference to one SPI or one UART object, by its number. -/
inductive TransportRef where
  | spi (k : Nat)
  | uart (k : Nat)
  deriving DecidableEq, Repr

/-- R35: a binding port. -/
structure BindPort where
  /-- R35 `bind.transport`. -/
  transport : Option TransportRef
  /-- R35 `bind.device`. -/
  device    : Byte
  deriving DecidableEq, Repr

/-- R8, R16: a ConversionContext, owned by the caller. R159 checks the first two, so any rational may stand there. -/
structure Context where
  clockHz    : Rat
  microsteps : Rat
  stepAngle  : Rat
  gearRatio  : Rat
  deriving DecidableEq, Repr

/-- What a caller is in the middle of, between two steps of its current command. -/
inductive InFlight where
  /-- A UART operation it dispatched on UART object `k` (R31). -/
  | uart (k : Nat)
  /-- `spi.read2`, its first read done (R95). -/
  | secondRead
  deriving DecidableEq, Repr

/-- A caller: a host program, how far it has run, and what it holds (R13, R21, R35, R90). -/
structure Caller where
  /-- R213: the caller's number. -/
  id       : Nat
  /-- R21, R90: the program, one line a command, but that a line of `spi.read2` stands for two (R95). -/
  program  : List Bytes
  /-- R21 `cmd`: the index of the next command, `spi.read2` counted as the two commands it expands to (R95). -/
  cmd      : Nat
  /-- The program's line that holds the next command: `cmd` where no line before it is a `spi.read2` (log entry 11). -/
  line     : Nat
  /-- R90: the name the running command's result is bound to. -/
  dest     : Option Bytes
  /-- R13: the results returned so far, in order. -/
  results  : List OpResult
  /-- R90: the names bound so far, the newest first. -/
  bindings : List (Bytes × OpResult)
  /-- What its current command is in the middle of. -/
  inFlight : Option InFlight
  /-- R90: the program's ConversionContext. -/
  ctx      : Context
  /-- The SPI object its `spi.*` commands go to. -/
  spi      : Nat
  /-- The UART object its `uart.*` commands go to. -/
  uart     : Nat
  /-- R35: the binding port its `bind.*` commands go through. That a caller has one is DESIGN CHOICE, log entry 21: R90's lines
  name no port. -/
  bind     : BindPort
  deriving DecidableEq, Repr

/-! ## The state -/

/-- The state of the machine. -/
structure State where
  /-- The SPI transceivers, each with its own state (R22 to R27). -/
  spis     : List Spi
  /-- The UART framers, each with its own state (R28 to R32). -/
  uarts    : List Uart
  /-- The running caller. -/
  caller   : Caller
  /-- The other callers. -/
  waiting  : List Caller
  /-- The coming turns (R59); where none is left, the turn is a free value. -/
  schedule : List Turn
  /-- The model's own counter: how many free values have been drawn. -/
  draws    : Nat
  deriving DecidableEq, Repr

/-! ## After construction -/

/-- A number no SPI object was constructed under reads as one whose handle is unset (DESIGN CHOICE, log entry 8). -/
def Spi.absent : Spi where
  owner := 0
  handle := .unset
  configured := false
  lines := []
  cpol := 0
  cpha := 0
  bitOrder := .lsbFirst
  sckHz := 0
  sckParam := Config.referenceSckHz
  writeFlag := .flag00
  tx := ⟨0, 0, 0, 0, 0⟩
  rx := ⟨0, 0, 0, 0, 0⟩
  configureAnswers := []
  exchangeAnswers := []

/-- A number no UART object was constructed under reads as one whose handle is unset (DESIGN CHOICE, log entry 8). -/
def Uart.absent : Uart where
  owner := 0
  handle := .unset
  configured := false
  baud := 0
  dataBits := 0
  parity := .none
  stopBits := 0
  op := .idle
  got := .void
  rxq := []
  txLeft := []
  txOld := []
  wire := []
  sendAnswers := []
  receiveAnswers := []

/-- The SPI transceiver of `State.reset`: handle supplied, one device (R111); its construction inputs and the values
R38 leaves unspecified are DESIGN CHOICE (log entries 1, 2). -/
def Spi.constructed : Spi :=
  { Spi.absent with handle := .set, lines := [⟨0x00, 0, .deasserted, []⟩] }

/-- The UART framer of `State.reset`: handle supplied (DESIGN CHOICE, log entries 1, 2). -/
def Uart.constructed : Uart := { Uart.absent with handle := .set }

/-- The caller of `State.reset`: no program yet (log entry 4), and the binding port bound to the SPI transceiver
(DESIGN CHOICE, log entry 1). -/
def Caller.constructed : Caller where
  id := 0
  program := []
  cmd := 0
  line := 0
  dest := none
  results := []
  bindings := []
  inFlight := none
  ctx := ⟨12000000, 256, 0, 0⟩
  spi := 0
  uart := 0
  bind := ⟨some (.spi 0), 0x00⟩

/-- R230: construction is reset; the values are those of R38. -/
def State.reset : State where
  spis := [Spi.constructed]
  uarts := [Uart.constructed]
  caller := Caller.constructed
  waiting := []
  schedule := []
  draws := 0

end Sys2Proof.Machine
end

