-- ==== Sys2Proof/Machine/Operands.lean ====
section
/-! DEFINITION. Operand assembly: bytes of a value, the checksum's fold, the frames the block builds and takes apart,
the register check and the routing (R12, R61, R72 to R81). -/

namespace Sys2Proof.Machine

/-- R10 `byte3`. -/
def byte3 (v : Value) : Byte := v.extractLsb' 24 8

/-- R10 `byte2`. -/
def byte2 (v : Value) : Byte := v.extractLsb' 16 8

/-- R10 `byte1`. -/
def byte1 (v : Value) : Byte := v.extractLsb' 8 8

/-- R10 `byte0`. -/
def byte0 (v : Value) : Byte := v.extractLsb' 0 8

/-- R12 `be32(v)`. -/
def be32 (v : Value) : Bytes := [byte3 v, byte2 v, byte1 v, byte0 v]

/-- R12 `unbe32([a,b,c,d])`. -/
def unbe32 (a b c d : Byte) : Value := (a ++ b ++ c ++ d : BitVec 32)

/-- R12, R79 `xor(s)`: the fold of exclusive OR, 0x00 of the empty sequence. -/
def xorBytes (s : Bytes) : Byte := s.foldl (· ^^^ ·) 0

/-- R72: bit 7 of the register operand is set. -/
def registerRefused (reg : Byte) : Bool := reg.getLsbD 7

/-! ## SPI frames -/

/-- R8, R73: the byte `SPI_WRITE_FLAG`. -/
def WriteFlag.byte : WriteFlag → Byte
  | .flag00 => 0x00
  | .flag80 => 0x80

/-- R73, write form: `[register | SPI_WRITE_FLAG] ++ be32(value)`. -/
def spiWriteFrame (flag : WriteFlag) (reg : Byte) (value : Value) : SpiFrame :=
  ⟨reg ||| flag.byte, byte3 value, byte2 value, byte1 value, byte0 value⟩

/-- R73, read form: `[register, 0x00, 0x00, 0x00, 0x00]`. -/
def spiReadFrame (reg : Byte) : SpiFrame := ⟨reg, 0, 0, 0, 0⟩

/-- The bytes of a frame, the first on the wire first. -/
def spiFrameBytes (f : SpiFrame) : Bytes := [f.b0, f.b1, f.b2, f.b3, f.b4]

/-- A frame as the number its pattern is written as, its first byte the most significant (R73, R84). -/
def wireNumber (bs : Bytes) : Nat := bs.foldl (fun n b => n * 256 + b.toNat) 0

/-- The bits of a frame on the SPI bus, in order: bit 7 of each byte first (R52, R73). -/
def spiWireBits (bs : Bytes) : List Bool :=
  bs.flatMap (fun b => [b.getLsbD 7, b.getLsbD 6, b.getLsbD 5, b.getLsbD 4, b.getLsbD 3, b.getLsbD 2,
    b.getLsbD 1, b.getLsbD 0])

/-- R74, R108: the value field of a frame, `unbe32` of its bytes 1 to 4. -/
def frameValue (f : SpiFrame) : Value := unbe32 f.b1 f.b2 f.b3 f.b4

/-! ## UART packets -/

/-- A packet and its trailing checksum (R76, R77). -/
def withChecksum (p : Bytes) : Bytes := p ++ [xorBytes p]

/-- R76: the write packet. -/
def uartWritePacket (device reg : Byte) (value : Value) : Bytes :=
  withChecksum ([Config.uartSync, device, reg ||| Config.uartRwFlag] ++ be32 value)

/-- R77: the read request. -/
def uartReadRequest (device reg : Byte) : Bytes :=
  withChecksum [Config.uartSync, device, reg &&& 0x7F]

/-- R78: the value of a response, `unbe32` of its bytes 3 to 6. -/
def responseValue (s : Bytes) : Value := unbe32 (s.getD 3 0) (s.getD 4 0) (s.getD 5 0) (s.getD 6 0)

/-! ## Routing -/

/-- R61 `route(device)`: the select line of a device, none where the table has no entry for it. -/
def Spi.route (p : Spi) (device : Byte) : Option Nat :=
  (p.lines.find? (fun e => e.device == device)).map SelectLine.line

/-- R24 `spi.sel[line]`, none for a line that is not in the table. -/
def Spi.sel (p : Spi) (line : Nat) : Option Level :=
  (p.lines.find? (fun e => e.line == line)).map SelectLine.level

/-- The exchanges made on a line, the newest first; none on a line that is not in the table. -/
def Spi.exchanges (p : Spi) (line : Nat) : List Exchange :=
  match p.lines.find? (fun e => e.line == line) with
  | none => []
  | some e => e.log

/-- R27 `spi.lastTx[line]`: the frame of the line's last exchange, completed or faulted. -/
def Spi.lastTx (p : Spi) (line : Nat) : Option SpiFrame := ((p.exchanges line).head?).map Exchange.tx

/-- R240, the scoreboard: the register a line's latch answers for, known only right after a read frame that did not
fault. -/
def Spi.readyFor (p : Spi) (line : Nat) : Option Byte :=
  match (p.exchanges line).head? with
  | some ⟨.read reg, _, some _⟩ => some reg
  | _ => none

/-- R8 `N_DEVICES`. -/
def Spi.deviceCount (p : Spi) : Nat := p.lines.length

/-! ## Contexts -/

/-- A rational that is an integer of 1 or more. -/
def positiveInteger (q : Rat) : Bool := q.den == 1 && decide (1 ≤ q.num)

/-- R159: `clockHz` and `microsteps` are integers of 1 or more. -/
def Context.valid (c : Context) : Bool := positiveInteger c.clockHz && positiveInteger c.microsteps

end Sys2Proof.Machine
end

