-- ==== Sys2Proof/Machine/Flags.lean ====
section
/-! DEFINITION. The block has no flag register (R37): an outcome is carried by its result alone. Here are the codes of
R200 and the one integrity condition, the checksum of a UART response (R78). -/

namespace Sys2Proof.Machine

/-- R200: the code of an error. -/
def Error.code : Error → Nat
  | .configuration => 1
  | .unknownDevice => 2
  | .transport => 3
  | .timeout => 4
  | .checksum => 5
  | .invalidArgument => 6

/-- R200: the code of a result, 0 for `Ok`. -/
def OpResult.code : OpResult → Nat
  | .ok _ => 0
  | .err e => e.code

/-- R78: a response of eight bytes is valid exactly when byte 7 is the exclusive OR of bytes 0 to 6. -/
def responseValid (s : Bytes) : Bool := s.getD 7 0 == xorBytes (s.take 7)

end Sys2Proof.Machine
end

