-- ==== Sys2Proof/Machine/Ops.lean ====
section
/-! DEFINITION. The named operations over the state: reaching a transport object, drawing an answer, ending an operation
(raising an error is a return, R201: it saves nothing and jumps nowhere, so `finish` is the one way an operation ends,
with `Ok` or with `Err`), the exchange with guaranteed release, and the fetch of a command. -/

namespace Sys2Proof.Machine

/-! ## Transport objects -/

/-- The SPI object number `k`. -/
def State.spiAt (s : State) (k : Nat) : Spi := (s.spis[k]?).getD Spi.absent

/-- Replace the SPI object number `k`. -/
def State.setSpi (s : State) (k : Nat) (p : Spi) : State := { s with spis := s.spis.set k p }

/-- The UART object number `k`. -/
def State.uartAt (s : State) (k : Nat) : Uart := (s.uarts[k]?).getD Uart.absent

/-- Replace the UART object number `k`. -/
def State.setUart (s : State) (k : Nat) (u : Uart) : State := { s with uarts := s.uarts.set k u }

/-- One more free value drawn. -/
def State.drawn (s : State) : State := { s with draws := s.draws + 1 }

/-- Mark what the running caller is in the middle of. -/
def State.setInFlight (s : State) (f : Option InFlight) : State :=
  { s with caller := { s.caller with inFlight := f } }

/-! ## Ending an operation -/

/-- R90: bind a result to a name. -/
def Caller.bindResult (c : Caller) (name : Option Bytes) (r : OpResult) : Caller :=
  match name with
  | none => c
  | some n => { c with bindings := (n, r) :: c.bindings }

/-- The caller whose operation ended with `r`: it receives `r` and continues with its next command (R13, R21, R201). -/
def Caller.receive (c : Caller) (r : OpResult) : Caller :=
  { c.bindResult c.dest r with
    cmd := c.cmd + 1, line := c.line + 1, dest := none, results := c.results ++ [r], inFlight := none }

/-- R21, R201: an operation ends, with `Ok` or with `Err(E)`. -/
def State.received (s : State) (r : OpResult) : State := { s with caller := s.caller.receive r }

/-- The outcome of an operation that ended with `r`. -/
def finish (r : OpResult) (s : State) : Host.Outcome State Fault Refusal := .next (s.received r)

/-! ## Drawing the environment's answers -/

/-- The controller's next answer (R6, A13). -/
def drawConfigure (k : Nat) (s : State) : ConfigureAnswer × State :=
  match (s.spiAt k).configureAnswers with
  | a :: rest => (a, s.setSpi k { s.spiAt k with configureAnswers := rest })
  | [] => (Config.freeConfigure s.draws, s.drawn)

/-- The environment's next answer to an exchange (R6, R50). -/
def drawExchange (k : Nat) (s : State) : ExchangeAnswer × State :=
  match (s.spiAt k).exchangeAnswers with
  | a :: rest => (a, s.setSpi k { s.spiAt k with exchangeAnswers := rest })
  | [] => (Config.freeExchange s.draws, s.drawn)

/-- What resolves next while sending (R135). -/
def drawSend (k : Nat) (s : State) : SendAnswer × State :=
  match (s.uartAt k).sendAnswers with
  | a :: rest => (a, s.setUart k { s.uartAt k with sendAnswers := rest })
  | [] => (Config.freeSend s.draws, s.drawn)

/-- What resolves next while receiving (R135). -/
def drawReceive (k : Nat) (s : State) : ReceiveAnswer × State :=
  match (s.uartAt k).receiveAnswers with
  | a :: rest => (a, s.setUart k { s.uartAt k with receiveAnswers := rest })
  | [] => (Config.freeReceive s.draws, s.drawn)

/-! ## The SPI exchange -/

/-- Change every table entry of one select line (the table is injective, so there is at most one). -/
def Spi.onLine (p : Spi) (line : Nat) (f : SelectLine → SelectLine) : Spi :=
  { p with lines := p.lines.map (fun e => if e.line = line then f e else e) }

/-- R12 `Sel(line) <- level`. -/
def Spi.drive (p : Spi) (line : Nat) (level : Level) : Spi :=
  p.onLine line (fun e => { e with level := level })

/-- Note a finished exchange on its line (R27, R50). -/
def Spi.note (p : Spi) (line : Nat) (x : Exchange) : Spi :=
  p.onLine line (fun e => { e with log := x :: e.log })

/-- How an exchange ended: with an answer (`none` is `Fault`), or never. -/
inductive Answered where
  | answered (rx : Option SpiFrame) (s : State)
  | never
  deriving DecidableEq, Repr

/-- R50 `SpiExchange(line, tx)` on SPI object `k`. After a fault the receive buffer holds a free value. -/
def spiExchange (k line : Nat) (form : FrameForm) (tx : SpiFrame) (s : State) : Answered :=
  match drawExchange k s with
  | (.never, _) => .never
  | (.fault, s') =>
    let p := s'.spiAt k
    .answered none
      (s'.drawn.setSpi k
        ({ p with tx := tx, rx := Config.freeFrame s'.draws }.note line ⟨form, tx, none⟩))
  | (.ok rx, s') =>
    let p := s'.spiAt k
    .answered (some rx) (s'.setSpi k ({ p with tx := tx, rx := rx }.note line ⟨form, tx, some rx⟩))

/-- R104 `Transfer(line, tx)`: assert, exchange, deassert on both outcomes. -/
def transfer (k line : Nat) (form : FrameForm) (tx : SpiFrame) (s : State) : Answered :=
  match spiExchange k line form tx (s.setSpi k ((s.spiAt k).drive line .asserted)) with
  | .never => .never
  | .answered rx s' => .answered rx (s'.setSpi k ((s'.spiAt k).drive line .deasserted))

/-- How a register access ended: with a result, or stuck. -/
inductive Performed where
  | returned (r : OpResult) (s : State)
  | stuck
  deriving DecidableEq, Repr

/-- The checks and the one transfer that R102 and R103 share, in the order of R205. `reply` is what the received frame
gives. -/
def spiPerform (k : Nat) (device : Byte) (form : FrameForm) (tx : SpiFrame)
    (reply : SpiFrame → ResultValue) (s : State) : Performed :=
  if (s.spiAt k).configured = false then .returned (.err .configuration) s
  else
    match (s.spiAt k).route device with
    | none => .returned (.err .unknownDevice) s
    | some line =>
      match transfer k line form tx s with
      | .never => .stuck
      | .answered none s' => .returned (.err .transport) s'
      | .answered (some rx) s' => .returned (.ok (reply rx)) s'

/-- R57, R213, R246: a transport object serves its one caller, and a command of any other caller on it is refused. -/
def admitCaller (owner : Nat) (s : State) (go : Host.Outcome State Fault Refusal) :
    Host.Outcome State Fault Refusal :=
  if owner = s.caller.id then go else .refused .secondCaller

/-- A register access that is a whole operation. -/
def spiAccess (k : Nat) (device : Byte) (form : FrameForm) (tx : SpiFrame)
    (reply : SpiFrame → ResultValue) (s : State) : Host.Outcome State Fault Refusal :=
  admitCaller (s.spiAt k).owner s
    (match spiPerform k device form tx reply s with
    | .stuck => .fault .spiExchangeUnanswered
    | .returned r s' => finish r s')

/-- R72: the register check comes before everything else. -/
def admitRegister (reg : Byte) (go : Host.Outcome State Fault Refusal) :
    Host.Outcome State Fault Refusal :=
  if registerRefused reg = true then .refused .registerBitSeven else go

/-! ## Fetching a command -/

/-- R21: the line that holds the command at `cmd`, none when the run has ended. -/
def fetchLine (s : State) : Option Bytes := s.caller.program[s.caller.line]?

/-- Another caller becomes the running one; a number no caller waits under changes nothing. -/
def switchTo (j : Nat) (s : State) : State :=
  match s.waiting[j]? with
  | none => s
  | some c => { s with caller := c, waiting := s.waiting.set j s.caller }

end Sys2Proof.Machine
end

