-- ==== Sys2Proof/Machine/Spi.lean ====
section
/-! DEFINITION. The SPI transceiver's operations (spec/40_spi_transceiver.md) and the double read of R95. -/

namespace Sys2Proof.Machine

/-- R100: the transceiver after a configuration the controller accepted. -/
def Spi.setUp (p : Spi) : Spi :=
  { p with
    cpol := 1, cpha := 1, bitOrder := .msbFirst, sckHz := p.sckParam, configured := true,
    lines := p.lines.map (fun e => { e with level := .deasserted }) }

/-- R101 (b): the transceiver after a rejected configuration; every select line's level is a free value. -/
def Spi.rejected (draw : Nat) (p : Spi) : Spi :=
  { p with
    configured := false,
    lines := p.lines.map (fun e => { e with level := Config.freeLevel draw e.line }) }

/-- R100, R101 on SPI object `k`. -/
def spiSetupOn (k : Nat) (s : State) : Host.Outcome State Fault Refusal :=
  admitCaller (s.spiAt k).owner s
    (match (s.spiAt k).handle with
    | .unset => finish (.err .configuration) (s.setSpi k { s.spiAt k with configured := false })
    | .set =>
      match drawConfigure k s with
      | (.accept, s') => finish (.ok .void) (s'.setSpi k (s'.spiAt k).setUp)
      | (.reject, s') =>
        finish (.err .configuration) (s'.drawn.setSpi k ((s'.spiAt k).rejected s'.draws)))

/-- R102 on SPI object `k`: the received frame is discarded. -/
def spiWriteOn (k : Nat) (reg : Byte) (value : Value) (device : Byte) (s : State) :
    Host.Outcome State Fault Refusal :=
  admitRegister reg
    (spiAccess k device .write (spiWriteFrame (s.spiAt k).writeFlag reg value) (fun _ => .void) s)

/-- R103 on SPI object `k`: byte 0 of the received frame is discarded, bytes 1 to 4 are the value. -/
def spiReadOn (k : Nat) (reg device : Byte) (s : State) : Host.Outcome State Fault Refusal :=
  admitRegister reg
    (spiAccess k device (.read reg) (spiReadFrame reg) (fun rx => .word (frameValue rx)) s)

/-- R95: the name the first read's result is bound to. -/
def discardName : Bytes := ascii "_discard"

/-- R95: the caller after the first of the two commands ended `Ok`, with `r`: that command is over, its result bound to
`_discard`, and the second command, of the same line, comes next (log entry 11). -/
def Caller.halfway (c : Caller) (r : OpResult) : Caller :=
  { c.bindResult (some discardName) r with
    cmd := c.cmd + 1, results := c.results ++ [r], inFlight := some .secondRead }

/-- R95, after its first read returned `r`: an error ends the pseudo-operation; otherwise the second read follows. -/
def afterFirstRead (r : OpResult) (s : State) : Host.Outcome State Fault Refusal :=
  match r with
  | .err e => finish (.err e) { s with caller := s.caller.bindResult (some discardName) (.err e) }
  | .ok v => .next { s with caller := s.caller.halfway (.ok v) }

/-- R95 on SPI object `k`: two reads of the same register, one a step, each a command of R21. -/
def spiRead2On (k : Nat) (reg device : Byte) (s : State) : Host.Outcome State Fault Refusal :=
  admitRegister reg
    (admitCaller (s.spiAt k).owner s
      (match spiPerform k device (.read reg) (spiReadFrame reg) (fun rx => .word (frameValue rx)) s with
      | .stuck => .fault .spiExchangeUnanswered
      | .returned r s' =>
        if s.caller.inFlight = some .secondRead then finish r s' else afterFirstRead r s'))

/-- `spi.setup`. -/
def execSpiSetup (s : State) : Host.Outcome State Fault Refusal := spiSetupOn s.caller.spi s

/-- `spi.write`. -/
def execSpiWrite (reg : Byte) (value : Value) (device : Byte) (s : State) :
    Host.Outcome State Fault Refusal :=
  spiWriteOn s.caller.spi reg value device s

/-- `spi.read`. -/
def execSpiRead (reg device : Byte) (s : State) : Host.Outcome State Fault Refusal :=
  spiReadOn s.caller.spi reg device s

/-- `spi.read2`. -/
def execSpiRead2 (reg device : Byte) (s : State) : Host.Outcome State Fault Refusal :=
  spiRead2On s.caller.spi reg device s

end Sys2Proof.Machine
end

