-- ==== Sys2Proof/Machine/Uart.lean ====
section
/-! DEFINITION. The UART framer's operations (spec/41_uart_framer.md), one sub-step of the per-operation state machine
a step, and what the environment does to the line. -/

namespace Sys2Proof.Machine

/-! ## The line -/

/-- What abandoned transmission number `n` has left is now `bs`; one that has nothing left is listed no more. -/
def Uart.leaveOld (u : Uart) (n : Nat) (bs : Bytes) : Uart :=
  { u with txOld := if bs = [] then u.txOld.eraseIdx n else u.txOld.set n bs }

/-- R131, R132, R138 (a), A6: one move of the environment on the line. The bytes of an abandoned transmission, each on its
own, may appear in their order or be lost; a transmission that is still being sent loses none (log entry 6). -/
def Uart.move (u : Uart) : LineMove → Uart
  | .emit =>
    match u.txLeft with
    | [] => u
    | b :: rest => { u with wire := u.wire ++ [b], txLeft := rest }
  | .emitOld n =>
    match u.txOld[n]? with
    | none => u
    | some [] => u
    | some (b :: rest) => { u.leaveOld n rest with wire := u.wire ++ [b] }
  | .lose => if u.op = .sending then u else { u with txLeft := u.txLeft.tail }
  | .loseOld n =>
    match u.txOld[n]? with
    | none => u
    | some [] => u
    | some (_ :: rest) => u.leaveOld n rest
  | .receive bs => { u with rxq := u.rxq ++ bs }

/-- The environment moves on the line of UART object `k`. -/
def lineMove (k : Nat) (m : LineMove) (s : State) : State := s.setUart k ((s.uartAt k).move m)

/-! ## The per-operation state machine -/

/-- What transmissions before the next one have left unsent: the last one joins them where it left any. -/
def Uart.leftovers (u : Uart) : List Bytes := if u.txLeft = [] then u.txOld else u.txOld ++ [u.txLeft]

/-- R131, R133, R134: dispatch a transmission. What an earlier one left unsent may still be sent (R138 (a)), after it ended
`Faulted` as after `TimedOut` (DESIGN CHOICE, log entries 6 and 23). -/
def Uart.dispatch (u : Uart) (packet : Bytes) : Uart :=
  { u with op := .sending, txOld := u.leftovers, txLeft := packet }

/-- The rest of the transmission is put on the line: the unit of work answers `Done` "once `uart.txLeft` is empty"
(R131). -/
def Uart.drained (u : Uart) : Uart := { u with wire := u.wire ++ u.txLeft, txLeft := [] }

/-- R133, R134: one resolution while sending. A write never awaits a response (D19). A fault leaves both queues as they are,
so that the unsent bytes may still be sent (DESIGN CHOICE, log entry 23: R138 and R202 speak of timeouts only). -/
def Uart.onSend (u : Uart) (awaits : Bool) : SendAnswer → Uart
  | .pending => u
  | .done =>
    if awaits = true then { u.drained with op := .awaitingResponse }
    else { u.drained with op := .complete, got := .void }
  | .fault => { u with op := .faulted }
  | .expire => { u with op := .timedOut }

/-- R132 `UartRecv(8)` and R134's check of the response, where eight bytes are there; otherwise the wait goes on. -/
def Uart.takeResponse (u : Uart) : Uart :=
  if Config.uartResponseBytes ≤ u.rxq.length then
    let s := u.rxq.take Config.uartResponseBytes
    let u' := { u with rxq := u.rxq.drop Config.uartResponseBytes }
    if responseValid s = true then { u' with op := .complete, got := .word (responseValue s) }
    else { u' with op := .checksumError }
  else u

/-- R134, R138 (c): one resolution while receiving. Of the bytes received, a fault consumes a number that is a draw, as a
timeout does (DESIGN CHOICE, log entry 23: R138 (c) and R202 speak of timeouts only). -/
def Uart.onReceive (u : Uart) : ReceiveAnswer → Uart
  | .proceed => u.takeResponse
  | .fault k => { u with op := .faulted, rxq := u.rxq.drop (min k Config.uartResponseBytes) }
  | .expire k => { u with op := .timedOut, rxq := u.rxq.drop (min k Config.uartResponseBytes) }

/-- R137: the operation returns, and `uart.op` goes from its terminal state to `Idle`. -/
def returnFrom (k : Nat) (r : OpResult) (s : State) : Host.Outcome State Fault Refusal :=
  finish r (s.setUart k { s.uartAt k with op := .idle })

/-- The first sub-step: the check and the dispatch. -/
def uartStart (k : Nat) (packet : Bytes) (s : State) : Host.Outcome State Fault Refusal :=
  if (s.uartAt k).configured = false then finish (.err .configuration) s
  else .next ((s.setUart k ((s.uartAt k).dispatch packet)).setInFlight (some (.uart k)))

/-- A later sub-step of an operation of the running caller's. A write is never in `AwaitingResponse` (D19), and `Idle`
is where an operation starts. -/
def uartContinue (k : Nat) (awaits : Bool) (s : State) : Host.Outcome State Fault Refusal :=
  match (s.uartAt k).op with
  | .idle => .refused .concurrentCommand
  | .sending =>
    match drawSend k s with
    | (a, s') => .next (s'.setUart k ((s'.uartAt k).onSend awaits a))
  | .awaitingResponse =>
    if awaits = true then
      match drawReceive k s with
      | (a, s') => .next (s'.setUart k ((s'.uartAt k).onReceive a))
    else .refused .concurrentCommand
  | .complete => returnFrom k (.ok (s.uartAt k).got) s
  | .timedOut => returnFrom k (.err .timeout) s
  | .checksumError => returnFrom k (.err .checksum) s
  | .faulted => returnFrom k (.err .transport) s

/-- R133, R134, R143: an operation starts from `Idle`; where `uart.op` is not `Idle`, only the caller that dispatched
the running operation goes on with it, and any other command is refused. -/
def uartOperation (k : Nat) (awaits : Bool) (packet : Bytes) (s : State) :
    Host.Outcome State Fault Refusal :=
  admitCaller (s.uartAt k).owner s
    (if (s.uartAt k).op = .idle then uartStart k packet s
    else if s.caller.inFlight = some (.uart k) then uartContinue k awaits s
    else .refused .concurrentCommand)

/-! ## The operations -/

/-- R130: the framer after a successful setup. -/
def Uart.setUp (u : Uart) : Uart :=
  { u with
    baud := Config.uartBaud, dataBits := Config.uartDataBits, parity := .none,
    stopBits := Config.uartStopBits, configured := true }

/-- R130, R143 on UART object `k`. -/
def uartSetupOn (k : Nat) (s : State) : Host.Outcome State Fault Refusal :=
  admitCaller (s.uartAt k).owner s
    (if (s.uartAt k).op = .idle then
      match (s.uartAt k).handle with
      | .unset => finish (.err .configuration) (s.setUart k { s.uartAt k with configured := false })
      | .set => finish (.ok .void) (s.setUart k (s.uartAt k).setUp)
    else .refused .concurrentCommand)

/-- R133 on UART object `k`. -/
def uartWriteOn (k : Nat) (reg : Byte) (value : Value) (device : Byte) (s : State) :
    Host.Outcome State Fault Refusal :=
  admitRegister reg (uartOperation k false (uartWritePacket device reg value) s)

/-- R134 on UART object `k`. -/
def uartReadOn (k : Nat) (reg device : Byte) (s : State) : Host.Outcome State Fault Refusal :=
  admitRegister reg (uartOperation k true (uartReadRequest device reg) s)

/-- `uart.setup`. -/
def execUartSetup (s : State) : Host.Outcome State Fault Refusal := uartSetupOn s.caller.uart s

/-- `uart.write`. -/
def execUartWrite (reg : Byte) (value : Value) (device : Byte) (s : State) :
    Host.Outcome State Fault Refusal :=
  uartWriteOn s.caller.uart reg value device s

/-- `uart.read`. -/
def execUartRead (reg device : Byte) (s : State) : Host.Outcome State Fault Refusal :=
  uartReadOn s.caller.uart reg device s

end Sys2Proof.Machine
end

