-- ==== Sys2Proof/Machine/Bind.lean ====
section
/-! DEFINITION. The host binding port (spec/43_binding_port.md). -/

namespace Sys2Proof.Machine

/-- R190: forward a write to the bound transport with the port's device. The register check of R72 stands before the
check of the transport (R205). -/
def execBindWrite (reg : Byte) (value : Value) (s : State) : Host.Outcome State Fault Refusal :=
  admitRegister reg
    (match s.caller.bind.transport with
    | none => finish (.err .configuration) s
    | some (.spi k) => spiWriteOn k reg value s.caller.bind.device s
    | some (.uart k) => uartWriteOn k reg value s.caller.bind.device s)

/-- R191: forward a read to the bound transport with the port's device. -/
def execBindRead (reg : Byte) (s : State) : Host.Outcome State Fault Refusal :=
  admitRegister reg
    (match s.caller.bind.transport with
    | none => finish (.err .configuration) s
    | some (.spi k) => spiReadOn k reg s.caller.bind.device s
    | some (.uart k) => uartReadOn k reg s.caller.bind.device s)

end Sys2Proof.Machine
end

