-- ==== Sys2Proof/Machine/Conv.lean ====
section
/-! DEFINITION. The conversions (spec/42_motion_conversion.md): exact over the rationals, one rounding each (R11). -/

namespace Sys2Proof.Machine

/-- R11 `trunc(q)`: toward zero. -/
def trunc (q : Rat) : Int := if q < 0 then -(-q).floor else q.floor

/-- R11 `clamp(x, lo, hi)`. -/
def clamp (x lo hi : Int) : Int := min (max x lo) hi

/-- R160: internal velocity units to Hz. -/
def speedToHz (c : Context) (x : Nat) : Rat :=
  if Config.speedLimit < x then 0 else (x : Rat) * c.clockHz / 16777216

/-- R161: Hz to internal velocity units, before the range check. -/
def speedFromHz (c : Context) (h : Rat) : Nat :=
  if h < 0 then 0 else (h * 16777216 / c.clockHz).floor.toNat + 1

/-- R162: Hz/s to internal AMAX units, before the range check; 2199023255552 is 512 · 256 · 2^24. -/
def accelFromHz (c : Context) (a : Rat) : Int :=
  trunc (a * (c.clockHz * c.clockHz) * c.microsteps / 2199023255552)

/-- R163: a threshold speed, not zero, to TSTEP. -/
def thresholdSpeedToTstep (c : Context) (t : Rat) : Nat :=
  (clamp (trunc (16777216 / t * (c.microsteps / 256))) 0 Config.tstepMax).toNat

/-- R159: every conversion first checks the context of its caller. -/
def withContext (s : State) (go : Host.Outcome State Fault Refusal) :
    Host.Outcome State Fault Refusal :=
  if s.caller.ctx.valid = true then go else .refused .conversionContext

/-- `conv.speedToHz`. -/
def execConvSpeedToHz (x : Value) (s : State) : Host.Outcome State Fault Refusal :=
  withContext s (finish (.ok (.hertz (speedToHz s.caller.ctx x.toNat))) s)

/-- `conv.speedFromHz`: a result above 2^32-1 is refused. -/
def execConvSpeedFromHz (h : Rat) (s : State) : Host.Outcome State Fault Refusal :=
  withContext s
    (if 4294967295 < speedFromHz s.caller.ctx h then .refused .speedOutOfRange
    else finish (.ok (.natural (speedFromHz s.caller.ctx h))) s)

/-- `conv.accelFromHz`: a result outside -2^31..2^31-1 is refused. -/
def execConvAccelFromHz (a : Rat) (s : State) : Host.Outcome State Fault Refusal :=
  withContext s
    (if accelFromHz s.caller.ctx a < -2147483648 ∨ 2147483647 < accelFromHz s.caller.ctx a then
      .refused .accelOutOfRange
    else finish (.ok (.integer (accelFromHz s.caller.ctx a))) s)

/-- `conv.thresholdSpeedToTstep`: the threshold 0 is an error. -/
def execConvThresholdSpeedToTstep (t : Rat) (s : State) : Host.Outcome State Fault Refusal :=
  withContext s
    (if t = 0 then finish (.err .invalidArgument) s
    else finish (.ok (.natural (thresholdSpeedToTstep s.caller.ctx t))) s)

end Sys2Proof.Machine
end

