-- ==== Sys2Proof/Machine/Dispatch.lean ====
section
/-! DEFINITION. One arm per operation: the call of its meaning. -/

namespace Sys2Proof.Machine

def exec (i : Instr) (s : State) : Host.Outcome State Fault Refusal :=
  match i with
  | .spiSetup => Sys2Proof.Machine.execSpiSetup s
  | .spiWrite reg value device => Sys2Proof.Machine.execSpiWrite reg value device s
  | .spiRead reg device => Sys2Proof.Machine.execSpiRead reg device s
  | .uartSetup => Sys2Proof.Machine.execUartSetup s
  | .uartWrite reg value device => Sys2Proof.Machine.execUartWrite reg value device s
  | .uartRead reg device => Sys2Proof.Machine.execUartRead reg device s
  | .bindWrite reg value => Sys2Proof.Machine.execBindWrite reg value s
  | .bindRead reg => Sys2Proof.Machine.execBindRead reg s
  | .convSpeedToHz x => Sys2Proof.Machine.execConvSpeedToHz x s
  | .convSpeedFromHz h => Sys2Proof.Machine.execConvSpeedFromHz h s
  | .convAccelFromHz a => Sys2Proof.Machine.execConvAccelFromHz a s
  | .convThresholdSpeedToTstep t => Sys2Proof.Machine.execConvThresholdSpeedToTstep t s
  | .spiRead2 reg device => Sys2Proof.Machine.execSpiRead2 reg device s

end Sys2Proof.Machine
end

