-- ==== Sys2Proof/Machine/Step.lean ====
section
/-! DEFINITION. One step: a turn of the schedule, and on a caller's turn the command at `cmd` (R6, R21, R59). -/

namespace Sys2Proof.Machine

/-- The turn of the running caller: fetch the line of the command at `cmd`, decode it, run the operation (R21, R70). -/
def runCaller (s : State) : Host.Outcome State Fault Refusal :=
  match fetchLine s with
  | none => .fault .programEnded
  | some line =>
    match decode line with
    | .error e => .refused (.noCommand e)
    | .ok c => exec c.op { s with caller := { s.caller with dest := c.name } }

/-- One turn (R59, R131, R132). -/
def takeTurn (t : Turn) (s : State) : Host.Outcome State Fault Refusal :=
  match t with
  | .run => runCaller s
  | .line k m => .next (lineMove k m s)
  | .switch j => .next (switchTo j s)

/-- One step of the machine: the next listed turn, and where none is left a turn that is a free value, so that the
environment and the other callers may move then too (log entry 3). -/
def step (s : State) : Host.Outcome State Fault Refusal :=
  match s.schedule with
  | [] => takeTurn (Config.freeTurn s.draws) s.drawn
  | t :: rest => takeTurn t { s with schedule := rest }

/-- The line that stands for a table word: the encoding of the operation the decoder reads from it, or a line that is no
command where it reads none. -/
def tableWordLine (nbits w : Nat) : Bytes :=
  match decodeTableWord nbits w with
  | none => []
  | some i => encode ⟨i, none⟩

/-- `s` with the operation of a table word as the running caller's next command and a turn of the running caller's put
before the coming turns. A program is loaded from outside the machine (log entry 4), and this stands for that load. -/
def State.withFetchWord (s : State) (nbits w : Nat) : State :=
  { s with
    schedule := .run :: s.schedule,
    caller := { s.caller with
      program := s.caller.program.take s.caller.line ++
        List.replicate (s.caller.line - s.caller.program.length) [] ++
        tableWordLine nbits w :: s.caller.program.drop (s.caller.line + 1) } }

end Sys2Proof.Machine
end

