-- ==== Sys2Proof/Safety.lean ====
section
/-! DEFINITION. The terms claims use: what a returned operation leaves in its caller, what an operation on one transport
object leaves alone, which commands reach which object, the pipeline the environment's SPI answers have (R33), and the
invariants. -/

namespace Sys2Proof.Safety

open Sys2Proof.Machine

/-! ## Returning -/

/-- The caller of `t` is the caller of `s` after its operation returned `r` (R13, R21, R90, R201). -/
def Returned (s t : State) (r : OpResult) : Prop :=
  t.caller = { s.caller with
    cmd := s.caller.cmd + 1
    line := s.caller.line + 1
    dest := none
    inFlight := none
    results := s.caller.results ++ [r]
    bindings :=
      match s.caller.dest with
      | none => s.caller.bindings
      | some n => (n, r) :: s.caller.bindings }

/-- Nothing but the running caller differs. -/
def OnlyCaller (s t : State) : Prop :=
  t.spis = s.spis ∧ t.uarts = s.uarts ∧ t.waiting = s.waiting ∧ t.schedule = s.schedule ∧ t.draws = s.draws

/-- Nothing but the running caller, SPI object `k` and the count of free values differs. -/
def OnlySpi (k : Nat) (s t : State) : Prop :=
  t.uarts = s.uarts ∧ t.waiting = s.waiting ∧ t.schedule = s.schedule ∧
    t.spis.length = s.spis.length ∧ ∀ j, j ≠ k → t.spiAt j = s.spiAt j

/-- Nothing but the running caller, UART object `k` and the count of free values differs. -/
def OnlyUart (k : Nat) (s t : State) : Prop :=
  t.spis = s.spis ∧ t.waiting = s.waiting ∧ t.schedule = s.schedule ∧
    t.uarts.length = s.uarts.length ∧ ∀ j, j ≠ k → t.uartAt j = s.uartAt j

/-! ## Commands and the objects they reach -/

/-- The running caller is the one caller of SPI object `k` (R57, R213). -/
abbrev OwnsSpi (s : State) (k : Nat) : Prop := (s.spiAt k).owner = s.caller.id

/-- The running caller is the one caller of UART object `k` (R57, R213). -/
abbrev OwnsUart (s : State) (k : Nat) : Prop := (s.uartAt k).owner = s.caller.id

/-- `i` writes `value` to register `reg` of `device` through SPI object `k`: directly, or through a port bound to it. -/
def WritesSpi (s : State) (i : Instr) (k : Nat) (reg : Byte) (value : Value) (device : Byte) : Prop :=
  (i = .spiWrite reg value device ∧ s.caller.spi = k) ∨
    (i = .bindWrite reg value ∧ s.caller.bind = ⟨some (.spi k), device⟩)

/-- `i` reads register `reg` of `device` through SPI object `k`: directly, or through a port bound to it. -/
def ReadsSpi (s : State) (i : Instr) (k : Nat) (reg device : Byte) : Prop :=
  (i = .spiRead reg device ∧ s.caller.spi = k) ∨
    (i = .bindRead reg ∧ s.caller.bind = ⟨some (.spi k), device⟩)

/-- `i` writes `value` to register `reg` of `device` through UART object `k`: directly, or through a port bound to
it. -/
def WritesUart (s : State) (i : Instr) (k : Nat) (reg : Byte) (value : Value) (device : Byte) : Prop :=
  (i = .uartWrite reg value device ∧ s.caller.uart = k) ∨
    (i = .bindWrite reg value ∧ s.caller.bind = ⟨some (.uart k), device⟩)

/-- `i` reads register `reg` of `device` through UART object `k`: directly, or through a port bound to it. -/
def ReadsUart (s : State) (i : Instr) (k : Nat) (reg device : Byte) : Prop :=
  (i = .uartRead reg device ∧ s.caller.uart = k) ∨
    (i = .bindRead reg ∧ s.caller.bind = ⟨some (.uart k), device⟩)

/-- `i` is a register access through SPI object `k` that sends the frame `tx`, with its register and its form. -/
def AccessesSpi (s : State) (i : Instr) (k : Nat) (reg device : Byte) (form : FrameForm) (tx : SpiFrame) : Prop :=
  (∃ value, WritesSpi s i k reg value device ∧ form = .write ∧ tx = spiWriteFrame (s.spiAt k).writeFlag reg value) ∨
    (ReadsSpi s i k reg device ∧ form = .read reg ∧ tx = spiReadFrame reg)

/-- `i` is a register access through UART object `k` that sends `packet`; `awaits` says whether it awaits a response. -/
def AccessesUart (s : State) (i : Instr) (k : Nat) (reg : Byte) (awaits : Bool) (packet : Bytes) : Prop :=
  (∃ value device, WritesUart s i k reg value device ∧ awaits = false ∧ packet = uartWritePacket device reg value) ∨
    (∃ device, ReadsUart s i k reg device ∧ awaits = true ∧ packet = uartReadRequest device reg)

/-- The conversions. -/
def IsConversion (i : Instr) : Prop :=
  (∃ x, i = .convSpeedToHz x) ∨ (∃ h, i = .convSpeedFromHz h) ∨ (∃ a, i = .convAccelFromHz a) ∨
    (∃ t, i = .convThresholdSpeedToTstep t)

/-! ## One exchange on a line -/

/-- `q` is the SPI object `p` after the one exchange `x` on `line` (R50, R104): the frame buffers hold it, the line is
`Deasserted` and its record has grown by `x`; every other line, the table, the configuration and the construction
inputs are as before. -/
def Exchanged (p q : Spi) (line : Nat) (x : Exchange) : Prop :=
  q.tx = x.tx ∧ (∀ rx, x.rx = some rx → q.rx = rx) ∧
    q.sel line = some .deasserted ∧ q.exchanges line = x :: p.exchanges line ∧ q.lastTx line = some x.tx ∧
    (∀ l, l ≠ line → q.sel l = p.sel l ∧ q.exchanges l = p.exchanges l) ∧
    q.lines.map SelectLine.device = p.lines.map SelectLine.device ∧
    q.lines.map SelectLine.line = p.lines.map SelectLine.line ∧
    q.handle = p.handle ∧ q.configured = p.configured ∧ q.cpol = p.cpol ∧ q.cpha = p.cpha ∧
    q.bitOrder = p.bitOrder ∧ q.sckHz = p.sckHz ∧ q.sckParam = p.sckParam ∧ q.writeFlag = p.writeFlag ∧
    q.configureAnswers = p.configureAnswers ∧ q.owner = p.owner

/-! ## The peer's pipeline -/

/-- R33 for the next exchange on `line`: where the exchange before it was a read frame of `reg` that did not fault, and
the peer held `v` in `reg` when it took that frame, bytes 1 to 4 of a received frame are `be32(v)`. Nothing is asked of
the answer otherwise. -/
def PipelinedAnswer (p : Spi) (line : Nat) (peer : Byte → Value) (a : ExchangeAnswer) : Prop :=
  ∀ reg rx, p.readyFor line = some reg → a = .ok rx → [rx.b1, rx.b2, rx.b3, rx.b4] = be32 (peer reg)

/-! ## Invariants -/

/-- R8, R61: `SELECT_TABLE` is a partial map from devices to lines, and injective. -/
def TableInjective (p : Spi) : Prop :=
  (p.lines.map SelectLine.device).Nodup ∧ (p.lines.map SelectLine.line).Nodup

/-- R8, R107, R231: a configured transceiver is in mode 3, MSB first, at its clock rate, which is not 0, with every line `Deasserted`. -/
def SpiSound (p : Spi) : Prop :=
  TableInjective p ∧
    (p.configured = true →
      p.handle = .set ∧ p.cpol = 1 ∧ p.cpha = 1 ∧ p.bitOrder = .msbFirst ∧ p.sckHz = p.sckParam ∧
        0 < p.sckHz ∧ ∀ e ∈ p.lines, e.level = .deasserted)

/-- R231: a configured framer is at 115200 baud, 8N1; only a configured framer runs an operation (R133, R134); an abandoned
transmission that is listed has bytes left (log entry 6). -/
def UartSound (u : Uart) : Prop :=
  (u.configured = true →
    u.handle = .set ∧ u.baud = 115200 ∧ u.dataBits = 8 ∧ u.parity = .none ∧ u.stopBits = 1) ∧
    (u.op ≠ .idle → u.configured = true) ∧ [] ∉ u.txOld

/-- R21, R95: `cmd` counts the operations that have returned, each read of a `spi.read2` one; every line passed stands for
one or more of them, and the program's end is not passed. -/
def CallerSound (c : Caller) : Prop := c.results.length = c.cmd ∧ c.line ≤ c.cmd ∧ c.line ≤ c.program.length

/-- The invariant of the machine. -/
def Sound (s : State) : Prop :=
  (∀ p ∈ s.spis, SpiSound p) ∧ (∀ u ∈ s.uarts, UartSound u) ∧ (∀ c ∈ s.caller :: s.waiting, CallerSound c) ∧
    ((s.caller :: s.waiting).map Caller.id).Nodup

/-- The UART object a command of a caller reaches. -/
def uartTarget (c : Caller) : Instr → Option Nat
  | .uartWrite _ _ _ => some c.uart
  | .uartRead _ _ => some c.uart
  | .bindWrite _ _ =>
    match c.bind.transport with
    | some (.uart k) => some k
    | _ => none
  | .bindRead _ =>
    match c.bind.transport with
    | some (.uart k) => some k
    | _ => none
  | .spiSetup => none
  | .spiWrite _ _ _ => none
  | .spiRead _ _ => none
  | .uartSetup => none
  | .convSpeedToHz _ => none
  | .convSpeedFromHz _ => none
  | .convAccelFromHz _ => none
  | .convThresholdSpeedToTstep _ => none
  | .spiRead2 _ _ => none

/-- A caller that is in the middle of a UART operation is at a command that reaches that UART object, and is its one
caller; one that is between the reads of a double read is at a `spi.read2`, and is the one caller of its SPI object. -/
def AtItsOperation (s : State) (c : Caller) : Prop :=
  (∀ k, c.inFlight = some (.uart k) → (s.uartAt k).owner = c.id ∧
    ∃ line cmd, c.program[c.line]? = some line ∧ decode line = .ok cmd ∧ uartTarget c cmd.op = some k) ∧
  (c.inFlight = some .secondRead → (s.spiAt c.spi).owner = c.id ∧
    ∃ line name reg device, c.program[c.line]? = some line ∧ decode line = .ok ⟨.spiRead2 reg device, name⟩)

/-- R57, R95, R143, R213: a UART object runs an operation exactly when one caller, and one only, is in the middle of it, and
every caller in the middle of a command is the one caller of the object it works on. -/
def OneCallerEach (s : State) : Prop :=
  (∀ c ∈ s.caller :: s.waiting, AtItsOperation s c) ∧
    ∀ k, ((s.caller :: s.waiting).countP (fun c => c.inFlight == some (.uart k))) =
      if (s.uartAt k).op = .idle then 0 else 1

end Sys2Proof.Safety
end

