-- ==== Sys2Proof/Certificates/Slice0/Obligations.lean ====
section
/-! DEFINITION. The statements for the provers. Each follows a numbered rule of spec/, named in its docstring. -/

open Sys2Proof Sys2Proof.Machine Sys2Proof.Safety

/-! ## Encodings -/

/-- R90: decoding the line of a well-formed command gives the command back, every operand at every value.
The grammar of a line's parts is the model's choice, log entry 12. -/
def Obligations.CommandLinesRoundTrip : Prop :=
  ∀ c : Command, c.wellFormed = true → decode (encode c) = .ok c

/-- R90, with lines in the spec's own spelling (95_test_vectors.md, programs 1, 3 and 4, and R95); a line of no operation of
R70 is no command. -/
def Obligations.SpecLinesDecode : Prop :=
  decode (ascii "spi.setup") = .ok ⟨.spiSetup, none⟩ ∧
  decode (ascii "spi.write  reg=0x21 val=0x00001000 dev=0x00") = .ok ⟨.spiWrite 0x21 0x00001000 0x00, none⟩ ∧
  decode (ascii "spi.read reg=0x6F dev=0x00 -> a") = .ok ⟨.spiRead 0x6F 0x00, some (ascii "a")⟩ ∧
  decode (ascii "uart.read  reg=0x6F dev=0x00            -> c") = .ok ⟨.uartRead 0x6F 0x00, some (ascii "c")⟩ ∧
  decode (ascii "bind.write reg=0x27 val=0x00000577") = .ok ⟨.bindWrite 0x27 0x00000577, none⟩ ∧
  decode (ascii "conv.speedToHz x=1399 -> h") = .ok ⟨.convSpeedToHz 1399, some (ascii "h")⟩ ∧
  decode (ascii "spi.read2 reg=0x21 dev=0x01 -> n") = .ok ⟨.spiRead2 0x21 0x01, some (ascii "n")⟩ ∧
  decode (ascii "spi.erase reg=0x21") = .error .unknownMnemonic

/-- R73, R84 and the table's rows: the frames of the SPI operations, read as numbers, are in their rows of
spec/opcode_table.json and give the operation back, but that a frame carries no device (it stands as 0x00, log entry
13), and that with `SPI_WRITE_FLAG` = 0x00 a write of zero is the read frame (R75). -/
def Obligations.SpiFramesMatchTableRows : Prop :=
  ∀ (reg : Byte) (value : Value), reg.toNat < 0x80 →
    decodeTableWord 40 (wireNumber (spiFrameBytes (spiReadFrame reg))) = some (.spiRead reg 0) ∧
    (value ≠ 0 →
      decodeTableWord 40 (wireNumber (spiFrameBytes (spiWriteFrame .flag00 reg value))) =
        some (.spiWrite reg value 0)) ∧
    spiWriteFrame .flag00 reg 0 = spiReadFrame reg ∧
    decodeTableWord 40 (wireNumber (spiFrameBytes (spiWriteFrame .flag80 reg value))) =
      some (.spiWrite reg value 0)

/-- R76, R77, R84 and the table's rows: the packets of the UART operations, read as numbers, are in their rows of
spec/opcode_table.json and give the operation back. -/
def Obligations.UartPacketsMatchTableRows : Prop :=
  ∀ (reg device : Byte) (value : Value), reg.toNat < 0x80 →
    decodeTableWord 64 (wireNumber (uartWritePacket device reg value)) = some (.uartWrite reg value device) ∧
    decodeTableWord 32 (wireNumber (uartReadRequest device reg)) = some (.uartRead reg device)

/-- R108: decoding the value field of a write frame gives back the value, and `tx[0] & 0x7F` is the register, for
either `SPI_WRITE_FLAG`. -/
def Obligations.SpiWriteFrameRoundTrip : Prop :=
  ∀ (flag : WriteFlag) (reg : Byte) (value : Value), reg.toNat < 0x80 →
    frameValue (spiWriteFrame flag reg value) = value ∧ (spiWriteFrame flag reg value).b0 &&& 0x7F = reg

/-- R76, R77, R140: the bytes of the write packet and of the read request, one by one, the checksum the exclusive OR of
the bytes before it. -/
def Obligations.UartPacketBytes : Prop :=
  ∀ (reg device : Byte) (value : Value),
    uartWritePacket device reg value =
      [0x05, device, reg ||| 0x80, value.extractLsb' 24 8, value.extractLsb' 16 8, value.extractLsb' 8 8,
        value.extractLsb' 0 8,
        0x05 ^^^ device ^^^ (reg ||| 0x80) ^^^ value.extractLsb' 24 8 ^^^ value.extractLsb' 16 8 ^^^
          value.extractLsb' 8 8 ^^^ value.extractLsb' 0 8] ∧
    uartReadRequest device reg = [0x05, device, reg &&& 0x7F, 0x05 ^^^ device ^^^ (reg &&& 0x7F)]

/-- R78, R79: a response is valid when its last byte is the exclusive OR of the others, and then one flipped bit makes it
invalid, while flipping one bit position in two different bytes does not. -/
def Obligations.ChecksumDetectsOneFlippedBit : Prop :=
  ∀ (s : Bytes) (m n : Nat) (bit : Fin 8), s.length = 8 → m < 8 → n < 8 → m ≠ n → responseValid s = true →
    responseValid (s.modify m (fun b => b ^^^ BitVec.twoPow 8 bit)) = false ∧
    responseValid ((s.modify m (fun b => b ^^^ BitVec.twoPow 8 bit)).modify n
      (fun b => b ^^^ BitVec.twoPow 8 bit)) = true

/-! ## Steps -/

/-- R21, R70, R90: on the running caller's turn, where the line of the command at `cmd` decodes to a command, the step is
`exec` of its operation, with the result's name noted; where it decodes to none, the step is refused; where the program has
ended, so has the run (a fault is the model's choice for that end, log entry 20; that a field of its own holds the line's
place, log entry 11). -/
def Obligations.StepRunsDecodedCommand : Prop :=
  ∀ (s : State) (rest : List Turn), s.schedule = .run :: rest →
    (∀ line c, s.caller.program[s.caller.line]? = some line → decode line = .ok c →
      step s = exec c.op { s with schedule := rest, caller := { s.caller with dest := c.name } }) ∧
    (∀ line e, s.caller.program[s.caller.line]? = some line → decode line = .error e →
      step s = .refused (.noCommand e)) ∧
    (s.caller.program[s.caller.line]? = none → step s = .fault .programEnded)

/-- R6, R59, R131, R132: where no turn is listed, the step takes a turn that is a free value, whichever it is: the running
caller's, another caller's, or one of the environment's on a UART line (that it is one free value drawn by count is the
model's choice, log entry 3). -/
def Obligations.UnlistedTurnIsFree : Prop :=
  ∀ s : State, s.schedule = [] →
    step s = step { s with schedule := [Config.freeTurn s.draws], draws := s.draws + 1 }

/-- R59: on another caller's turn that caller becomes the running one, and the one that ran waits in its place; no transport,
no other caller and nothing of the two callers changes. That callers are run by such turns is the model's choice, log entry
9. -/
def Obligations.SwitchTurnsExchangeCallers : Prop :=
  ∀ (s : State) (j : Nat) (rest : List Turn), s.schedule = .switch j :: rest →
    (∀ c, s.waiting[j]? = some c →
      ∃ t, step s = .next t ∧ t.caller = c ∧ t.waiting[j]? = some s.caller ∧
        t.waiting.length = s.waiting.length ∧ (∀ l, l ≠ j → t.waiting[l]? = s.waiting[l]?) ∧
        t.spis = s.spis ∧ t.uarts = s.uarts ∧ t.schedule = rest ∧ t.draws = s.draws) ∧
    (s.waiting[j]? = none → step s = .next { s with schedule := rest })

/-- R32, R131, R132, R138 (a): on the environment's turn the line takes the first unsent byte, of the transmission dispatched
last or of any abandoned one, or bytes are received, at any time; an unsent byte of an abandoned transmission may be lost
instead, and one of a transmission that is being sent may not; no caller, no SPI object and no other UART object is touched.
That each abandoned transmission has a queue of its own, and that bytes are lost one by one, are the model's choice, log entry
6. -/
def Obligations.EnvironmentTurnsMoveTheLine : Prop :=
  ∀ (s : State) (k : Nat) (rest : List Turn), k < s.uarts.length →
    (∀ bs, s.schedule = .line k (.receive bs) :: rest →
      ∃ t, step s = .next t ∧ t.caller = s.caller ∧ t.schedule = rest ∧ OnlyUart k { s with schedule := rest } t ∧
        t.uartAt k = { s.uartAt k with rxq := (s.uartAt k).rxq ++ bs }) ∧
    (∀ b bs, s.schedule = .line k .emit :: rest → (s.uartAt k).txLeft = b :: bs →
      ∃ t, step s = .next t ∧ t.caller = s.caller ∧ t.schedule = rest ∧ OnlyUart k { s with schedule := rest } t ∧
        t.uartAt k = { s.uartAt k with wire := (s.uartAt k).wire ++ [b], txLeft := bs }) ∧
    (∀ n b bs, s.schedule = .line k (.emitOld n) :: rest → (s.uartAt k).txOld[n]? = some (b :: bs) →
      ∃ t, step s = .next t ∧ t.caller = s.caller ∧ t.schedule = rest ∧ OnlyUart k { s with schedule := rest } t ∧
        t.uartAt k =
          { s.uartAt k with
            wire := (s.uartAt k).wire ++ [b]
            txOld := if bs = [] then (s.uartAt k).txOld.eraseIdx n else (s.uartAt k).txOld.set n bs }) ∧
    (∀ b bs, s.schedule = .line k .lose :: rest → (s.uartAt k).txLeft = b :: bs →
      ∃ t, step s = .next t ∧ t.caller = s.caller ∧ t.schedule = rest ∧ OnlyUart k { s with schedule := rest } t ∧
        t.uartAt k =
          if (s.uartAt k).op = .sending then s.uartAt k else { s.uartAt k with txLeft := bs }) ∧
    (∀ n b bs, s.schedule = .line k (.loseOld n) :: rest → (s.uartAt k).txOld[n]? = some (b :: bs) →
      ∃ t, step s = .next t ∧ t.caller = s.caller ∧ t.schedule = rest ∧ OnlyUart k { s with schedule := rest } t ∧
        t.uartAt k =
          { s.uartAt k with
            txOld := if bs = [] then (s.uartAt k).txOld.eraseIdx n else (s.uartAt k).txOld.set n bs })

/-- R72: a bus operation is refused for its register operand exactly when bit 7 of the operand is set. -/
def Obligations.RegisterBitSevenRefused : Prop :=
  ∀ (i : Instr) (s : State),
    exec i s = .refused .registerBitSeven ↔ ∃ reg, i.register? = some reg ∧ reg.getLsbD 7 = true

/-- R21, R95: an operation that ends advances `cmd` by exactly 1 and adds its result. `spi.read2` stands for two operations:
the first of them, where it succeeds, does the same and stays at its line. What is the model's choice: that a sub-step of a
UART operation that goes on is a step of its own and leaves `cmd` and the results as they are (log entry 5), and that a field
of its own holds the line's place, which the first read of a double read leaves and an error of it ends (log entry 11). -/
def Obligations.CommandIndexAdvancesByOne : Prop :=
  ∀ (i : Instr) (s t : State), exec i s = .next t →
    (t.caller.cmd = s.caller.cmd + 1 ∧ (∃ r, t.caller.results = s.caller.results ++ [r]) ∧
      ((t.caller.inFlight = none ∧ t.caller.line = s.caller.line + 1) ∨
        ((∃ reg device, i = .spiRead2 reg device) ∧ s.caller.inFlight ≠ some .secondRead ∧
          t.caller.inFlight = some .secondRead ∧ t.caller.line = s.caller.line))) ∨
    (t.caller.cmd = s.caller.cmd ∧ t.caller.results = s.caller.results ∧ t.caller.line = s.caller.line ∧
      ∃ k, uartTarget s.caller i = some k ∧ t.caller.inFlight = some (.uart k))

/-- R57, R213, R246: a command on a transport object by any caller but its one caller is refused: every register access by a
port or directly, both halves of the double read, and the setups. The place of this refusal among the checks is the model's
choice, log entry 19, and that each object's one caller is an input of its construction, log entry 9. -/
def Obligations.SecondCallerRefused : Prop :=
  ∀ (s : State) (k : Nat),
    ((s.spiAt k).owner ≠ s.caller.id →
      (∀ i reg device form tx, AccessesSpi s i k reg device form tx → reg.toNat < 0x80 →
        exec i s = .refused .secondCaller) ∧
      (s.caller.spi = k → exec .spiSetup s = .refused .secondCaller ∧
        ∀ reg device, reg.toNat < 0x80 → exec (.spiRead2 reg device) s = .refused .secondCaller)) ∧
    ((s.uartAt k).owner ≠ s.caller.id →
      (∀ i reg awaits packet, AccessesUart s i k reg awaits packet → reg.toNat < 0x80 →
        exec i s = .refused .secondCaller) ∧
      (s.caller.uart = k → exec .uartSetup s = .refused .secondCaller))

/-! ## The SPI transceiver -/

/-- R100: `spi.setup` with a handle and an accepted configuration. -/
def Obligations.SpiSetupConfigures : Prop :=
  ∀ (s : State), OwnsSpi s s.caller.spi → (s.spiAt s.caller.spi).handle = .set → (drawConfigure s.caller.spi s).1 = .accept →
    ∃ t, exec .spiSetup s = .next t ∧ Returned s t (.ok .void) ∧ OnlySpi s.caller.spi s t ∧
      ∃ rest, t.spiAt s.caller.spi =
        { s.spiAt s.caller.spi with
          cpol := 1
          cpha := 1
          bitOrder := .msbFirst
          sckHz := (s.spiAt s.caller.spi).sckParam
          configured := true
          lines := (s.spiAt s.caller.spi).lines.map (fun e => { e with level := .deasserted })
          configureAnswers := rest }

/-- R101: `spi.setup` without a handle, and with a rejected configuration, which leaves every level open: nothing is said of
the levels after (b). -/
def Obligations.SpiSetupFails : Prop :=
  ∀ (s : State), OwnsSpi s s.caller.spi →
    ((s.spiAt s.caller.spi).handle = .unset →
      ∃ t, exec .spiSetup s = .next t ∧ Returned s t (.err .configuration) ∧ OnlySpi s.caller.spi s t ∧
        t.spiAt s.caller.spi = { s.spiAt s.caller.spi with configured := false }) ∧
    ((s.spiAt s.caller.spi).handle = .set → (drawConfigure s.caller.spi s).1 = .reject →
      ∃ t, exec .spiSetup s = .next t ∧ Returned s t (.err .configuration) ∧ OnlySpi s.caller.spi s t ∧
        ∃ levels rest,
          levels.map (fun e : SelectLine => { e with level := .deasserted }) =
            (s.spiAt s.caller.spi).lines.map (fun e => { e with level := .deasserted }) ∧
          t.spiAt s.caller.spi =
            { s.spiAt s.caller.spi with configured := false, lines := levels, configureAnswers := rest })

/-- R102, R103, R205, R231: before a successful setup every SPI register access, by a port too, and the double read return
`ConfigurationError`, and nothing but the caller changes. -/
def Obligations.SpiAccessBeforeSetup : Prop :=
  ∀ (s : State) (k : Nat) (reg device : Byte), OwnsSpi s k → reg.toNat < 0x80 → (s.spiAt k).configured = false →
    (∀ i form tx, AccessesSpi s i k reg device form tx →
      ∃ t, exec i s = .next t ∧ Returned s t (.err .configuration) ∧ OnlyCaller s t) ∧
    (s.caller.spi = k → s.caller.inFlight = some .secondRead →
      ∃ t, exec (.spiRead2 reg device) s = .next t ∧ Returned s t (.err .configuration) ∧ OnlyCaller s t)

/-- R109: with the transceiver configured, a device absent from `SELECT_TABLE` gives `UnknownDeviceError`, and nothing but
the caller changes. -/
def Obligations.SpiUnknownDevice : Prop :=
  ∀ (s : State) (i : Instr) (k : Nat) (reg device : Byte) (form : FrameForm) (tx : SpiFrame),
    AccessesSpi s i k reg device form tx → OwnsSpi s k → reg.toNat < 0x80 → (s.spiAt k).configured = true →
    (∀ e ∈ (s.spiAt k).lines, e.device ≠ device) →
    ∃ t, exec i s = .next t ∧ Returned s t (.err .unknownDevice) ∧ OnlyCaller s t

/-- R73, R102, R104: `spi.write`, and `bind.write` over SPI: the frame `[register | SPI_WRITE_FLAG] ++ be32(value)` is
exchanged once on the device's line, which ends `Deasserted`; the received frame is discarded. -/
def Obligations.SpiWriteSendsItsFrame : Prop :=
  ∀ (s : State) (i : Instr) (k line : Nat) (reg device : Byte) (value : Value) (rx : SpiFrame),
    WritesSpi s i k reg value device → OwnsSpi s k → reg.toNat < 0x80 → (s.spiAt k).configured = true →
    (s.spiAt k).route device = some line → (drawExchange k s).1 = .ok rx →
    ∃ t, exec i s = .next t ∧ Returned s t (.ok .void) ∧ OnlySpi k s t ∧
      Exchanged (s.spiAt k) (t.spiAt k) line
        ⟨.write,
          ⟨reg ||| (if (s.spiAt k).writeFlag = .flag80 then 0x80 else 0x00), value.extractLsb' 24 8,
            value.extractLsb' 16 8, value.extractLsb' 8 8, value.extractLsb' 0 8⟩,
          some rx⟩

/-- R74, R103, R104, R105: `spi.read`, and `bind.read` over SPI: the frame `[register, 0, 0, 0, 0]` is exchanged once, and the
result is bytes 1 to 4 of the received frame, big-endian, whatever its byte 0. -/
def Obligations.SpiReadReturnsReceivedValue : Prop :=
  ∀ (s : State) (i : Instr) (k line : Nat) (reg device : Byte) (rx : SpiFrame),
    ReadsSpi s i k reg device → OwnsSpi s k → reg.toNat < 0x80 → (s.spiAt k).configured = true →
    (s.spiAt k).route device = some line → (drawExchange k s).1 = .ok rx →
    ∃ t, exec i s = .next t ∧ OnlySpi k s t ∧
      Exchanged (s.spiAt k) (t.spiAt k) line ⟨.read reg, ⟨reg, 0, 0, 0, 0⟩, some rx⟩ ∧
      ∃ v : Value, Returned s t (.ok (.word v)) ∧
        v.toNat = rx.b1.toNat * 2 ^ 24 + rx.b2.toNat * 2 ^ 16 + rx.b3.toNat * 2 ^ 8 + rx.b4.toNat

/-- R102, R103, R104, R203: an exchange that faults gives `TransportError`, no value, and the line ends `Deasserted`. -/
def Obligations.SpiFaultReleasesTheLine : Prop :=
  ∀ (s : State) (i : Instr) (k line : Nat) (reg device : Byte) (form : FrameForm) (tx : SpiFrame),
    AccessesSpi s i k reg device form tx → OwnsSpi s k → reg.toNat < 0x80 → (s.spiAt k).configured = true →
    (s.spiAt k).route device = some line → (drawExchange k s).1 = .fault →
    ∃ t, exec i s = .next t ∧ Returned s t (.err .transport) ∧ OnlySpi k s t ∧
      Exchanged (s.spiAt k) (t.spiAt k) line ⟨form, tx, none⟩

/-- R15, R50: an exchange the environment never answers leaves the operation stuck, each half of the double read too, and
nothing else does. The fault is the model's form of the spec's `Stuck`, log entry 10. -/
def Obligations.SpiUnansweredIsStuck : Prop :=
  (∀ (s : State) (i : Instr) (k : Nat) (reg device : Byte) (form : FrameForm) (tx : SpiFrame),
    AccessesSpi s i k reg device form tx → reg.toNat < 0x80 →
    (exec i s = .fault .spiExchangeUnanswered ↔
      OwnsSpi s k ∧ (s.spiAt k).configured = true ∧ (∃ line, (s.spiAt k).route device = some line) ∧
        (drawExchange k s).1 = .never)) ∧
  (∀ (s : State) (reg device : Byte), reg.toNat < 0x80 →
    (exec (.spiRead2 reg device) s = .fault .spiExchangeUnanswered ↔
      OwnsSpi s s.caller.spi ∧ (s.spiAt s.caller.spi).configured = true ∧
        (∃ line, (s.spiAt s.caller.spi).route device = some line) ∧
        (drawExchange s.caller.spi s).1 = .never))

/-- R106: a register access that returns has made one exchange on its device's line where the transceiver is configured and
knows the device, and none anywhere otherwise; `spi.setup` makes none. -/
def Obligations.SpiExchangeCount : Prop :=
  (∀ (s t : State) (i : Instr) (k : Nat) (reg device : Byte) (form : FrameForm) (tx : SpiFrame),
    AccessesSpi s i k reg device form tx → exec i s = .next t →
    (∀ line, (s.spiAt k).configured = true → (s.spiAt k).route device = some line → ∀ l,
      ((t.spiAt k).exchanges l).length = ((s.spiAt k).exchanges l).length + (if l = line then 1 else 0)) ∧
    ((s.spiAt k).configured = false ∨ (s.spiAt k).route device = none → t.spis = s.spis)) ∧
  (∀ (s t : State), exec .spiSetup s = .next t → ∀ j l, (t.spiAt j).exchanges l = (s.spiAt j).exchanges l)

/-- R61: `route(device)` is the table's entry of the device, and there is none where the table has no entry; with an injective
table, devices with a route have lines of their own. -/
def Obligations.SpiRoutesAreDistinct : Prop :=
  ∀ (p : Spi), TableInjective p →
    (∀ e ∈ p.lines, p.route e.device = some e.line) ∧
    (∀ d, (∀ e ∈ p.lines, e.device ≠ d) → p.route d = none) ∧
    (∀ d d' line, p.route d = some line → p.route d' = some line → d = d')

/-- R50, R104, R107: a transfer on a line of a sound, configured transceiver asserts that line, makes the exchange, and
deasserts it: the exchange starts and ends with the line as the transceiver's only `Asserted` line, and none is `Asserted` once
the transfer is over. Every SPI register access, by a port too, and each half of the double read run on what this transfer
leaves, and are stuck where it never ends. -/
def Obligations.OnlyTheTransferLineIsAsserted : Prop :=
  ∀ (s u : State) (k line : Nat) (reg device : Byte) (form : FrameForm) (tx : SpiFrame),
    SpiSound (s.spiAt k) → (s.spiAt k).configured = true → (s.spiAt k).route device = some line →
    u = s.setSpi k ((s.spiAt k).drive line .asserted) →
    (∀ l, (u.spiAt k).sel l = some .asserted ↔ l = line) ∧
    (∀ rx v, spiExchange k line form tx u = .answered rx v →
      (∀ l, (v.spiAt k).sel l = some .asserted ↔ l = line) ∧
      transfer k line form tx s = .answered rx (v.setSpi k ((v.spiAt k).drive line .deasserted)) ∧
      ∀ l, ((v.setSpi k ((v.spiAt k).drive line .deasserted)).spiAt k).sel l ≠ some .asserted) ∧
    (spiExchange k line form tx u = .never → transfer k line form tx s = .never) ∧
    (∀ i, AccessesSpi s i k reg device form tx ∨
        (i = .spiRead2 reg device ∧ s.caller.spi = k ∧ form = .read reg ∧ tx = spiReadFrame reg) →
      OwnsSpi s k → reg.toNat < 0x80 →
      (∀ rx v, transfer k line form tx s = .answered rx v → ∃ t, exec i s = .next t ∧ t.spis = v.spis) ∧
      (transfer k line form tx s = .never → exec i s = .fault .spiExchangeUnanswered))

/-- R240, R241 and R75: after an access the line answers for a register only where it was a read that did not fault; after a
write, of zero too, and after a fault it answers for none; the other lines are as before. -/
def Obligations.ReadinessFollowsTheLastExchange : Prop :=
  ∀ (s t : State) (i : Instr) (k line : Nat) (reg device : Byte) (form : FrameForm) (tx : SpiFrame),
    AccessesSpi s i k reg device form tx → exec i s = .next t → (s.spiAt k).configured = true →
    (s.spiAt k).route device = some line →
    (∀ rx, (drawExchange k s).1 = .ok rx → form = .read reg → (t.spiAt k).readyFor line = some reg) ∧
    (form = .write ∨ (drawExchange k s).1 = .fault → (t.spiAt k).readyFor line = none) ∧
    (∀ l, l ≠ line → (t.spiAt k).readyFor l = (s.spiAt k).readyFor l)

/-- R21, R95, R205: the first read of `spi.read2` binds `_discard`. Where it succeeded, it has its own result and its own count
of `cmd`, and the second read comes next; where it did not, the pseudo-operation ends there with its error. That `cmd` then
counts 1, and that the error is bound to both names, are the model's choice, log entry 11. -/
def Obligations.DoubleReadFirstHalf : Prop :=
  ∀ (s : State) (reg device : Byte), OwnsSpi s s.caller.spi → reg.toNat < 0x80 → s.caller.inFlight ≠ some .secondRead →
    (∀ line rx, (s.spiAt s.caller.spi).configured = true → (s.spiAt s.caller.spi).route device = some line →
      (drawExchange s.caller.spi s).1 = .ok rx →
      ∃ t, exec (.spiRead2 reg device) s = .next t ∧ OnlySpi s.caller.spi s t ∧
        Exchanged (s.spiAt s.caller.spi) (t.spiAt s.caller.spi) line ⟨.read reg, ⟨reg, 0, 0, 0, 0⟩, some rx⟩ ∧
        t.caller = { s.caller with
          cmd := s.caller.cmd + 1
          results := s.caller.results ++ [.ok (.word (unbe32 rx.b1 rx.b2 rx.b3 rx.b4))]
          inFlight := some .secondRead
          bindings := (ascii "_discard", .ok (.word (unbe32 rx.b1 rx.b2 rx.b3 rx.b4))) :: s.caller.bindings }) ∧
    (∀ e,
      ((s.spiAt s.caller.spi).configured = false ∧ e = .configuration) ∨
        ((s.spiAt s.caller.spi).configured = true ∧ (s.spiAt s.caller.spi).route device = none ∧
          e = .unknownDevice) ∨
        ((s.spiAt s.caller.spi).configured = true ∧ (∃ line, (s.spiAt s.caller.spi).route device = some line) ∧
          (drawExchange s.caller.spi s).1 = .fault ∧ e = .transport) →
      ∃ t, exec (.spiRead2 reg device) s = .next t ∧ OnlySpi s.caller.spi s t ∧
        (e ≠ .transport → t.spis = s.spis) ∧
        (∀ line, e = .transport → (s.spiAt s.caller.spi).route device = some line →
          Exchanged (s.spiAt s.caller.spi) (t.spiAt s.caller.spi) line ⟨.read reg, ⟨reg, 0, 0, 0, 0⟩, none⟩) ∧
        Returned { s with caller := { s.caller with bindings := (ascii "_discard", .err e) :: s.caller.bindings } }
          t (.err e))

/-- R95, R205: the second read of `spi.read2` is the pseudo-operation's result, whatever it is. -/
def Obligations.DoubleReadSecondHalf : Prop :=
  ∀ (s : State) (reg device : Byte), OwnsSpi s s.caller.spi → reg.toNat < 0x80 → s.caller.inFlight = some .secondRead →
    (s.spiAt s.caller.spi).configured = true →
    ((s.spiAt s.caller.spi).route device = none →
      ∃ t, exec (.spiRead2 reg device) s = .next t ∧ Returned s t (.err .unknownDevice) ∧ OnlyCaller s t) ∧
    (∀ line rx, (s.spiAt s.caller.spi).route device = some line → (drawExchange s.caller.spi s).1 = .ok rx →
      ∃ t, exec (.spiRead2 reg device) s = .next t ∧ OnlySpi s.caller.spi s t ∧
        Returned s t (.ok (.word (unbe32 rx.b1 rx.b2 rx.b3 rx.b4))) ∧
        Exchanged (s.spiAt s.caller.spi) (t.spiAt s.caller.spi) line ⟨.read reg, ⟨reg, 0, 0, 0, 0⟩, some rx⟩) ∧
    (∀ line, (s.spiAt s.caller.spi).route device = some line → (drawExchange s.caller.spi s).1 = .fault →
      ∃ t, exec (.spiRead2 reg device) s = .next t ∧ OnlySpi s.caller.spi s t ∧ Returned s t (.err .transport) ∧
        Exchanged (s.spiAt s.caller.spi) (t.spiAt s.caller.spi) line ⟨.read reg, ⟨reg, 0, 0, 0, 0⟩, none⟩)

/-- R21, R33, R95, R240: where the environment's answers have the peer's pipeline, the second read of `spi.read2` returns the
value the peer held in the register when it took the first frame; the two commands have advanced `cmd` by 2, with two results
(and the program's line by 1: the line's place is a field of the model's own, log entry 11). -/
def Obligations.DoubleReadReturnsPeerValue : Prop :=
  ∀ (s t : State) (reg device : Byte) (line : Nat) (rx rx' : SpiFrame) (peer : Byte → Value),
    OwnsSpi s s.caller.spi → reg.toNat < 0x80 → s.caller.inFlight ≠ some .secondRead →
    (s.spiAt s.caller.spi).configured = true → (s.spiAt s.caller.spi).route device = some line →
    (drawExchange s.caller.spi s).1 = .ok rx → exec (.spiRead2 reg device) s = .next t →
    (drawExchange s.caller.spi t).1 = .ok rx' →
    PipelinedAnswer (t.spiAt s.caller.spi) line peer (.ok rx') →
    ∃ u, exec (.spiRead2 reg device) t = .next u ∧ Returned t u (.ok (.word (peer reg))) ∧
      u.caller.cmd = s.caller.cmd + 2 ∧ u.caller.line = s.caller.line + 1 ∧
      u.caller.results = s.caller.results ++
        [.ok (.word (unbe32 rx.b1 rx.b2 rx.b3 rx.b4)), .ok (.word (peer reg))] ∧
      OnlySpi s.caller.spi t u ∧
      Exchanged (t.spiAt s.caller.spi) (u.spiAt s.caller.spi) line
        ⟨.read reg, ⟨reg, 0, 0, 0, 0⟩, some rx'⟩

/-! ## The UART framer -/

/-- R130: `uart.setup`, with a handle and without one; the queues, `uart.op` and everything else stay. -/
def Obligations.UartSetupOutcomes : Prop :=
  ∀ (s : State), OwnsUart s s.caller.uart → (s.uartAt s.caller.uart).op = .idle →
    ((s.uartAt s.caller.uart).handle = .set →
      ∃ t, exec .uartSetup s = .next t ∧ Returned s t (.ok .void) ∧ OnlyUart s.caller.uart s t ∧
        t.uartAt s.caller.uart =
          { s.uartAt s.caller.uart with
            baud := 115200, dataBits := 8, parity := .none, stopBits := 1, configured := true }) ∧
    ((s.uartAt s.caller.uart).handle = .unset →
      ∃ t, exec .uartSetup s = .next t ∧ Returned s t (.err .configuration) ∧ OnlyUart s.caller.uart s t ∧
        t.uartAt s.caller.uart = { s.uartAt s.caller.uart with configured := false })

/-- R133, R134, R205, R231: before a successful setup a UART register access, by a port too, returns `ConfigurationError`,
`uart.op` stays `Idle`, and nothing but the caller changes. -/
def Obligations.UartAccessBeforeSetup : Prop :=
  ∀ (s : State) (i : Instr) (k : Nat) (reg : Byte) (awaits : Bool) (packet : Bytes),
    AccessesUart s i k reg awaits packet → OwnsUart s k → reg.toNat < 0x80 → (s.uartAt k).op = .idle →
    (s.uartAt k).configured = false →
    ∃ t, exec i s = .next t ∧ Returned s t (.err .configuration) ∧ OnlyCaller s t

/-- R131, R133, R134: from `Idle` a UART register access dispatches its packet and is `Sending`; the operation has not
returned. What an earlier transmission left unsent is kept: after a timeout R138 (a) says so, in a queue that is the model's
(log entry 6); after a fault it is the model's choice (log entry 23). -/
def Obligations.UartDispatchesItsPacket : Prop :=
  ∀ (s : State) (i : Instr) (k : Nat) (reg : Byte) (awaits : Bool) (packet : Bytes),
    AccessesUart s i k reg awaits packet → OwnsUart s k → reg.toNat < 0x80 → (s.uartAt k).op = .idle →
    (s.uartAt k).configured = true →
    ∃ t, exec i s = .next t ∧ OnlyUart k s t ∧
      t.caller = { s.caller with inFlight := some (.uart k) } ∧
      t.uartAt k =
        { s.uartAt k with
          op := .sending, txLeft := packet,
          txOld := if (s.uartAt k).txLeft = [] then (s.uartAt k).txOld
            else (s.uartAt k).txOld ++ [(s.uartAt k).txLeft] }

/-- R131, R133, R134, R135, D16, D19: what resolves while sending. `Done` completes a write and lets a read await its response;
a fault and the timer's expiry end the operation; otherwise it goes on. The model's choice: that `Done` puts what is left of
the packet on the line in that very step (log entry 14; R131 says only that `Done` comes once `uart.txLeft` is empty), that a
fault leaves both queues as they are (log entry 23), and that each resolution is a step (log entry 5). -/
def Obligations.UartSendingResolves : Prop :=
  ∀ (s : State) (i : Instr) (k : Nat) (reg : Byte) (awaits : Bool) (packet : Bytes),
    AccessesUart s i k reg awaits packet → OwnsUart s k → reg.toNat < 0x80 → (s.uartAt k).op = .sending →
    s.caller.inFlight = some (.uart k) →
    ∃ t rest, exec i s = .next t ∧ OnlyUart k s t ∧ t.caller = s.caller ∧
      t.uartAt k =
        match (drawSend k s).1 with
        | .pending => { s.uartAt k with sendAnswers := rest }
        | .done =>
          if awaits = true then
            { s.uartAt k with
              op := .awaitingResponse, wire := (s.uartAt k).wire ++ (s.uartAt k).txLeft, txLeft := [],
              sendAnswers := rest }
          else
            { s.uartAt k with
              op := .complete, got := .void, wire := (s.uartAt k).wire ++ (s.uartAt k).txLeft, txLeft := [],
              sendAnswers := rest }
        | .fault => { s.uartAt k with op := .faulted, sendAnswers := rest }
        | .expire => { s.uartAt k with op := .timedOut, sendAnswers := rest }

/-- R78, R132, R134, R138 (c), R141: what resolves while a read awaits its response. Eight bytes are taken from the front of
`uart.rxq` and checked; fewer leave the wait as it is; a fault and the timer's expiry end the operation, the expiry after
0 to 8 received bytes are consumed. That a receive may fault is read from D16 (log entry 7), and that a fault too consumes 0
to 8 received bytes, a draw, is the model's choice (log entry 23). -/
def Obligations.UartReceivingResolves : Prop :=
  ∀ (s : State) (i : Instr) (k : Nat) (reg device : Byte),
    ReadsUart s i k reg device → OwnsUart s k → reg.toNat < 0x80 → (s.uartAt k).op = .awaitingResponse →
    s.caller.inFlight = some (.uart k) →
    ∃ t rest, exec i s = .next t ∧ OnlyUart k s t ∧ t.caller = s.caller ∧
      ((drawReceive k s).1 = .proceed → (s.uartAt k).rxq.length < 8 →
        t.uartAt k = { s.uartAt k with receiveAnswers := rest }) ∧
      (∀ b0 b1 b2 b3 b4 b5 b6 b7 more, (drawReceive k s).1 = .proceed →
        (s.uartAt k).rxq = b0 :: b1 :: b2 :: b3 :: b4 :: b5 :: b6 :: b7 :: more →
        t.uartAt k =
          if b7 = b0 ^^^ b1 ^^^ b2 ^^^ b3 ^^^ b4 ^^^ b5 ^^^ b6 then
            { s.uartAt k with
              op := .complete, got := .word (unbe32 b3 b4 b5 b6), rxq := more, receiveAnswers := rest }
          else { s.uartAt k with op := .checksumError, rxq := more, receiveAnswers := rest }) ∧
      (∀ n, (drawReceive k s).1 = .fault n →
        ∃ m, m ≤ 8 ∧ (n ≤ 8 → m = n) ∧
          t.uartAt k =
            { s.uartAt k with op := .faulted, rxq := (s.uartAt k).rxq.drop m, receiveAnswers := rest }) ∧
      (∀ n, (drawReceive k s).1 = .expire n →
        ∃ m, m ≤ 8 ∧ (n ≤ 8 → m = n) ∧
          t.uartAt k =
            { s.uartAt k with op := .timedOut, rxq := (s.uartAt k).rxq.drop m, receiveAnswers := rest })

/-- R137: from a terminal state the operation returns its result and `uart.op` goes to `Idle`; nothing else of the framer
changes, so no error is latched (R37, R202). -/
def Obligations.UartReturnsToIdle : Prop :=
  ∀ (s : State) (i : Instr) (k : Nat) (reg : Byte) (awaits : Bool) (packet : Bytes),
    AccessesUart s i k reg awaits packet → OwnsUart s k → reg.toNat < 0x80 → s.caller.inFlight = some (.uart k) →
    ∀ r, ((s.uartAt k).op = .complete ∧ r = .ok (s.uartAt k).got) ∨ ((s.uartAt k).op = .timedOut ∧ r = .err .timeout) ∨
        ((s.uartAt k).op = .checksumError ∧ r = .err .checksum) ∨
        ((s.uartAt k).op = .faulted ∧ r = .err .transport) →
      ∃ t, exec i s = .next t ∧ Returned s t r ∧ OnlyUart k s t ∧
        t.uartAt k = { s.uartAt k with op := .idle }

/-- R131, R133: a UART write, by a port too, whose send completes: the whole packet on the line, `Ok`. The model's choice: that
the write is three steps (log entry 5), that the packet goes out in the step that takes `Done` (log entry 14), and the list
of queues that keeps what earlier transmissions left unsent (log entries 6 and 23). -/
def Obligations.UartWriteCompletes : Prop :=
  ∀ (s : State) (i : Instr) (k : Nat) (reg device : Byte) (value : Value) (rest : List SendAnswer),
    WritesUart s i k reg value device → OwnsUart s k → reg.toNat < 0x80 → (s.uartAt k).op = .idle →
    (s.uartAt k).configured = true → (s.uartAt k).sendAnswers = .done :: rest →
    ∃ t u v, exec i s = .next t ∧ exec i t = .next u ∧ exec i u = .next v ∧
      Returned s v (.ok .void) ∧ OnlyUart k s v ∧
      v.uartAt k =
        { s.uartAt k with
          got := .void, txLeft := [],
          txOld := if (s.uartAt k).txLeft = [] then (s.uartAt k).txOld
            else (s.uartAt k).txOld ++ [(s.uartAt k).txLeft],
          wire := (s.uartAt k).wire ++ uartWritePacket device reg value, sendAnswers := rest }

/-- R134, R141, R244: a UART read, by a port too, on a clean line whose environment sends eight bytes before the timer expires:
the value of a valid response, `ChecksumError` for any other. The model's choice: that the read is four steps, the bytes coming
by a turn of the environment's while the operation awaits its response (log entry 5), and that the request goes out in the step
that takes `Done` (log entry 14). -/
def Obligations.UartReadCompletes : Prop :=
  ∀ (s : State) (i : Instr) (k : Nat) (reg device : Byte) (rest : List SendAnswer) (rest' : List ReceiveAnswer)
    (b0 b1 b2 b3 b4 b5 b6 b7 : Byte),
    ReadsUart s i k reg device → OwnsUart s k → reg.toNat < 0x80 → (s.uartAt k).op = .idle →
    (s.uartAt k).configured = true →
    (s.uartAt k).rxq = [] → (s.uartAt k).txLeft = [] →
    (s.uartAt k).sendAnswers = .done :: rest → (s.uartAt k).receiveAnswers = .proceed :: rest' →
    ∃ t u v w, exec i s = .next t ∧ exec i t = .next u ∧
      exec i (lineMove k (.receive [b0, b1, b2, b3, b4, b5, b6, b7]) u) = .next v ∧ exec i v = .next w ∧
      Returned s w
        (if b7 = b0 ^^^ b1 ^^^ b2 ^^^ b3 ^^^ b4 ^^^ b5 ^^^ b6 then .ok (.word (unbe32 b3 b4 b5 b6))
        else .err .checksum) ∧
      OnlyUart k s w ∧ (w.uartAt k).op = .idle ∧ (w.uartAt k).rxq = [] ∧ (w.uartAt k).txLeft = [] ∧
      (w.uartAt k).wire = (s.uartAt k).wire ++ uartReadRequest device reg

/-- R57, R143: a command that starts on a UART object whose `uart.op` is not `Idle`, while its caller is not in the middle of
that operation, is refused; so is a setup by anyone. The refusal's name, and its place among the checks, are the model's
choice, log entry 19. -/
def Obligations.UartSecondCommandRefused : Prop :=
  ∀ (s : State) (k : Nat), (s.uartAt k).op ≠ .idle →
    (∀ i reg awaits packet, AccessesUart s i k reg awaits packet → reg.toNat < 0x80 →
      s.caller.inFlight ≠ some (.uart k) →
      exec i s = .refused (if (s.uartAt k).owner = s.caller.id then .concurrentCommand else .secondCaller)) ∧
    (s.caller.uart = k →
      exec .uartSetup s = .refused (if (s.uartAt k).owner = s.caller.id then .concurrentCommand else .secondCaller))

/-- R136: no UART operation is ever stuck, and one whose timer expires while it is sending returns `TimeoutError` at its
next sub-step. -/
def Obligations.UartWaitIsBounded : Prop :=
  ∀ (s : State) (i : Instr) (k : Nat) (reg : Byte) (awaits : Bool) (packet : Bytes),
    AccessesUart s i k reg awaits packet →
    (∀ f, exec i s ≠ .fault f) ∧
    (OwnsUart s k → reg.toNat < 0x80 → s.caller.inFlight = some (.uart k) →
      ((s.uartAt k).op = .sending ∧ (drawSend k s).1 = .expire) ∨
        (awaits = true ∧ (s.uartAt k).op = .awaitingResponse ∧ ∃ n, (drawReceive k s).1 = .expire n) →
      ∃ t u, exec i s = .next t ∧ exec i t = .next u ∧ Returned s u (.err .timeout) ∧ (u.uartAt k).op = .idle)

/-- R139: after its dispatch an operation adds no byte to what is to be sent: what has been put on the line, followed by what
is left, never changes by a later sub-step. -/
def Obligations.UartSendsOnce : Prop :=
  ∀ (s t : State) (i : Instr) (k : Nat) (reg : Byte) (awaits : Bool) (packet : Bytes),
    AccessesUart s i k reg awaits packet → (s.uartAt k).op ≠ .idle → exec i s = .next t →
    (t.uartAt k).wire ++ (t.uartAt k).txLeft = (s.uartAt k).wire ++ (s.uartAt k).txLeft ∧
      (t.uartAt k).txOld = (s.uartAt k).txOld

/-- R62, R200: a UART operation never returns `UnknownDeviceError`, whatever its device byte. -/
def Obligations.UartNeverUnknownDevice : Prop :=
  ∀ (s t : State) (i : Instr) (k : Nat) (reg : Byte) (awaits : Bool) (packet : Bytes),
    AccessesUart s i k reg awaits packet → exec i s = .next t →
    t.caller.results ≠ s.caller.results ++ [.err .unknownDevice]

/-! ## The binding port -/

/-- R190, R191: a port with no transport returns `ConfigurationError`, and nothing but the caller changes. -/
def Obligations.UnboundPortRaises : Prop :=
  ∀ (s : State) (reg : Byte) (value : Value), reg.toNat < 0x80 → s.caller.bind.transport = none →
    (∃ t, exec (.bindWrite reg value) s = .next t ∧ Returned s t (.err .configuration) ∧ OnlyCaller s t) ∧
    (∃ t, exec (.bindRead reg) s = .next t ∧ Returned s t (.err .configuration) ∧ OnlyCaller s t)

/-! ## The conversions -/

/-- R160, R165: `conv.speedToHz` returns `x · clockHz / 2^24` exactly, 0 above 715828. -/
def Obligations.SpeedToHzResult : Prop :=
  ∀ (s : State) (x : Value), s.caller.ctx.valid = true →
    ∃ t, exec (.convSpeedToHz x) s = .next t ∧ OnlyCaller s t ∧
      Returned s t (.ok (.hertz (if 715828 < x.toNat then 0 else (x.toNat : ℚ) * s.caller.ctx.clockHz / 2 ^ 24)))

/-- R161: `conv.speedFromHz` returns 0 for a negative input and `floor(h · 2^24 / clockHz) + 1` otherwise; a result above
2^32-1 is refused. -/
def Obligations.SpeedFromHzResult : Prop :=
  ∀ (s : State) (h : ℚ), s.caller.ctx.valid = true →
    (h < 0 →
      ∃ t, exec (.convSpeedFromHz h) s = .next t ∧ OnlyCaller s t ∧ Returned s t (.ok (.natural 0))) ∧
    (0 ≤ h → ∀ n : ℕ, (n : ℤ) = ⌊h * 2 ^ 24 / s.caller.ctx.clockHz⌋ + 1 →
      (n ≤ 2 ^ 32 - 1 →
        ∃ t, exec (.convSpeedFromHz h) s = .next t ∧ OnlyCaller s t ∧ Returned s t (.ok (.natural n))) ∧
      (2 ^ 32 - 1 < n → exec (.convSpeedFromHz h) s = .refused .speedOutOfRange))

/-- R162: `conv.accelFromHz` returns `a · clockHz² · microsteps / 2^41` rounded toward zero, with its sign; a result that is
no signed 32-bit integer is refused. -/
def Obligations.AccelFromHzResult : Prop :=
  ∀ (s : State) (a q : ℚ) (n : ℤ), s.caller.ctx.valid = true →
    q = a * s.caller.ctx.clockHz ^ 2 * s.caller.ctx.microsteps / (512 * 256 * 2 ^ 24) →
    n = (if 0 ≤ q then ⌊q⌋ else ⌈q⌉) →
    (-2 ^ 31 ≤ n → n ≤ 2 ^ 31 - 1 →
      ∃ t, exec (.convAccelFromHz a) s = .next t ∧ OnlyCaller s t ∧ Returned s t (.ok (.integer n))) ∧
    (n < -2 ^ 31 ∨ 2 ^ 31 - 1 < n → exec (.convAccelFromHz a) s = .refused .accelOutOfRange)

/-- R162, R168: the sign of an acceleration is preserved. -/
def Obligations.AccelFromHzIsOdd : Prop :=
  ∀ (c : Context) (a : ℚ), accelFromHz c (-a) = -accelFromHz c a

/-- R163: `conv.thresholdSpeedToTstep` returns `(2^24 / t) · (microsteps / 256)` rounded toward zero and clamped to 20 bits; the
threshold 0 gives `InvalidArgumentError`. -/
def Obligations.TstepResult : Prop :=
  ∀ (s : State) (t q : ℚ), s.caller.ctx.valid = true → q = 2 ^ 24 / t * (s.caller.ctx.microsteps / 256) →
    (t = 0 →
      ∃ u, exec (.convThresholdSpeedToTstep t) s = .next u ∧ OnlyCaller s u ∧
        Returned s u (.err .invalidArgument)) ∧
    (t ≠ 0 → ∃ (u : State) (n : ℕ), exec (.convThresholdSpeedToTstep t) s = .next u ∧ OnlyCaller s u ∧
      Returned s u (.ok (.natural n)) ∧ n ≤ 2 ^ 20 - 1 ∧
      (q < 1 → n = 0) ∧ (2 ^ 20 - 1 ≤ q → n = 2 ^ 20 - 1) ∧
      (1 ≤ q → q < 2 ^ 20 - 1 → (n : ℤ) = ⌊q⌋))

/-- R159: a conversion runs only in a context whose `clockHz` and `microsteps` are integers of 1 or more; its `stepAngle` and
`gearRatio` may be anything. -/
def Obligations.ConversionContextChecked : Prop :=
  ∀ (s : State) (i : Instr), IsConversion i →
    (exec i s = .refused .conversionContext ↔
      ¬ ((∃ n : ℤ, 1 ≤ n ∧ s.caller.ctx.clockHz = n) ∧ (∃ n : ℤ, 1 ≤ n ∧ s.caller.ctx.microsteps = n)))

/-- R164: in every valid context the speed round trip of an `x` up to 715828 gives `x + 1`. -/
def Obligations.SpeedRoundTripAddsOne : Prop :=
  ∀ (s : State) (x : Value), s.caller.ctx.valid = true → x.toNat ≤ 715828 →
    ∃ (t u : State) (h : ℚ), exec (.convSpeedToHz x) s = .next t ∧ Returned s t (.ok (.hertz h)) ∧
      exec (.convSpeedFromHz h) t = .next u ∧ Returned t u (.ok (.natural (x.toNat + 1)))

/-- R167: a conversion's outcome depends only on its operand and on `clockHz` and `microsteps`: two states that agree on these,
and differ in anything else, get the same result, refusal or error. -/
def Obligations.ConversionsReadOnlyTheContext : Prop :=
  ∀ (s s' : State) (i : Instr), IsConversion i → s.caller.ctx.clockHz = s'.caller.ctx.clockHz →
    s.caller.ctx.microsteps = s'.caller.ctx.microsteps →
    (∀ t r, exec i s = .next t → Returned s t r → ∃ t', exec i s' = .next t' ∧ Returned s' t' r ∧ OnlyCaller s' t') ∧
    (∀ why, exec i s = .refused why → exec i s' = .refused why)

/-- R166 (a), and the accelerations of R166 (b): with 256 microsteps the three TSTEP values hold at any clock. The three
acceleration values hold together exactly when `K = clockHz² · microsteps / 2^41` lies in [147590, 147591): R166 (b) says
[147590, 147592), but above 147591 the rule R162 makes `accelFromHz(1.0)` 147591 (log entry 15). -/
def Obligations.SourceExampleValues : Prop :=
  ∀ (c : Context), c.valid = true →
    (c.microsteps = 256 →
      thresholdSpeedToTstep c 1000 = 16777 ∧ thresholdSpeedToTstep c 10000 = 1677 ∧
        thresholdSpeedToTstep c 1 = 1048575) ∧
    (accelFromHz c (1 / 2) = 73795 ∧ accelFromHz c 1 = 147590 ∧ accelFromHz c (-1 / 4) = -36897 ↔
      147590 ≤ c.clockHz ^ 2 * c.microsteps / 2 ^ 41 ∧ c.clockHz ^ 2 * c.microsteps / 2 ^ 41 < 147591)

/-! ## The whole machine -/

/-- R23, R29, R30, R25: `configured` and the bus configuration are written by the setup of their transport, and by no other
operation. -/
def Obligations.OnlySetupConfigures : Prop :=
  ∀ (s t : State) (i : Instr), exec i s = .next t →
    (i ≠ .spiSetup → ∀ j, (t.spiAt j).configured = (s.spiAt j).configured ∧ (t.spiAt j).cpol = (s.spiAt j).cpol ∧
      (t.spiAt j).cpha = (s.spiAt j).cpha ∧ (t.spiAt j).bitOrder = (s.spiAt j).bitOrder ∧
      (t.spiAt j).sckHz = (s.spiAt j).sckHz) ∧
    (i ≠ .uartSetup → ∀ j, (t.uartAt j).configured = (s.uartAt j).configured ∧
      (t.uartAt j).baud = (s.uartAt j).baud ∧ (t.uartAt j).dataBits = (s.uartAt j).dataBits ∧
      (t.uartAt j).parity = (s.uartAt j).parity ∧ (t.uartAt j).stopBits = (s.uartAt j).stopBits)

/-- R22, R25, R28, R35, R36: no operation writes a construction input: a handle, `SELECT_TABLE`, the parameters, the binding,
the caller's context and its program, and the one caller of each object (an input too: the model's choice, log entry 9). -/
def Obligations.ConstructionInputsNeverWritten : Prop :=
  ∀ (s t : State) (i : Instr), exec i s = .next t →
    (∀ j, (t.spiAt j).owner = (s.spiAt j).owner ∧ (t.uartAt j).owner = (s.uartAt j).owner ∧
      (t.spiAt j).handle = (s.spiAt j).handle ∧
      (t.spiAt j).lines.map SelectLine.device = (s.spiAt j).lines.map SelectLine.device ∧
      (t.spiAt j).lines.map SelectLine.line = (s.spiAt j).lines.map SelectLine.line ∧
      (t.spiAt j).sckParam = (s.spiAt j).sckParam ∧ (t.spiAt j).writeFlag = (s.spiAt j).writeFlag ∧
      (t.uartAt j).handle = (s.uartAt j).handle) ∧
    t.caller.bind = s.caller.bind ∧ t.caller.ctx = s.caller.ctx ∧ t.caller.program = s.caller.program ∧
    t.caller.id = s.caller.id ∧ t.caller.spi = s.caller.spi ∧ t.caller.uart = s.caller.uart ∧
    t.spis.length = s.spis.length ∧ t.uarts.length = s.uarts.length

/-- R57, R59, R213: a step changes an SPI object only where the running caller is its one caller, and a UART object only then or
as the environment moves the line. -/
def Obligations.OnlyTheOwnerUsesATransport : Prop :=
  ∀ (s t : State) (k : Nat), step s = .next t →
    (¬ OwnsSpi s k → t.spiAt k = s.spiAt k) ∧
    (¬ OwnsUart s k → t.uartAt k = s.uartAt k ∨ ∃ m, t.uartAt k = (s.uartAt k).move m)

/-- R8, R107, R203, R231, R21, R213: every step keeps the invariant: configured transports are as their setup leaves them, every
select line of a configured transceiver is `Deasserted`, tables stay injective, `cmd` counts the results, and callers have
numbers of their own (callers' numbers and the line's place are the model's, log entries 9 and 11). -/
def Obligations.EveryStepKeepsSound : Prop :=
  ∀ s t : State, Sound s → step s = .next t → Sound t

/-- R57, R58, R95, R143, R213: every step keeps it that a UART object runs an operation exactly when one caller, and one only,
is in the middle of it, and that a caller in the middle of a UART operation or between the reads of a double read is at that
command and is the one caller of the object. -/
def Obligations.EveryStepKeepsOneCallerEach : Prop :=
  ∀ s t : State, OneCallerEach s → step s = .next t → OneCallerEach t

/-- The state after construction meets both invariants (the construction inputs of the reset state are log entries 1 and
2). -/
def Obligations.ResetMeetsTheInvariants : Prop :=
  Sound State.reset ∧ OneCallerEach State.reset

/-- R38, R230: the values of the state after construction that the spec gives. -/
def Obligations.ResetValues : Prop :=
  State.reset.caller.cmd = 0 ∧ State.reset.caller.results = [] ∧
    (∀ k, (State.reset.spiAt k).configured = false ∧ ∀ l, (State.reset.spiAt k).lastTx l = none) ∧
    (∀ k, (State.reset.uartAt k).configured = false ∧ (State.reset.uartAt k).op = .idle ∧
      (State.reset.uartAt k).rxq = [] ∧ (State.reset.uartAt k).txLeft = [] ∧
      (State.reset.uartAt k).timeoutMs = 100 ∧ (State.reset.uartAt k).sync = 0x05)
end

