-- ==== Sys2Proof/Laws/State.lean ====
section
/-! SUPPORT. One lemma a field and update of the state, and what reading a transport object gives after a write. -/

namespace Sys2Proof.Machine

variable (s : State) (k j : Nat) (p : Spi) (u : Uart) (f : Option InFlight) (r : OpResult)

/-! ## Fields -/

@[simp] theorem setSpi_spis : (s.setSpi k p).spis = s.spis.set k p := rfl
@[simp] theorem setSpi_uarts : (s.setSpi k p).uarts = s.uarts := rfl
@[simp] theorem setSpi_caller : (s.setSpi k p).caller = s.caller := rfl
@[simp] theorem setSpi_waiting : (s.setSpi k p).waiting = s.waiting := rfl
@[simp] theorem setSpi_schedule : (s.setSpi k p).schedule = s.schedule := rfl
@[simp] theorem setSpi_draws : (s.setSpi k p).draws = s.draws := rfl
@[simp] theorem setSpi_uartAt : (s.setSpi k p).uartAt j = s.uartAt j := rfl

@[simp] theorem setUart_uarts : (s.setUart k u).uarts = s.uarts.set k u := rfl
@[simp] theorem setUart_spis : (s.setUart k u).spis = s.spis := rfl
@[simp] theorem setUart_caller : (s.setUart k u).caller = s.caller := rfl
@[simp] theorem setUart_waiting : (s.setUart k u).waiting = s.waiting := rfl
@[simp] theorem setUart_schedule : (s.setUart k u).schedule = s.schedule := rfl
@[simp] theorem setUart_draws : (s.setUart k u).draws = s.draws := rfl
@[simp] theorem setUart_spiAt : (s.setUart k u).spiAt j = s.spiAt j := rfl

@[simp] theorem drawn_spis : s.drawn.spis = s.spis := rfl
@[simp] theorem drawn_uarts : s.drawn.uarts = s.uarts := rfl
@[simp] theorem drawn_caller : s.drawn.caller = s.caller := rfl
@[simp] theorem drawn_waiting : s.drawn.waiting = s.waiting := rfl
@[simp] theorem drawn_schedule : s.drawn.schedule = s.schedule := rfl
@[simp] theorem drawn_draws : s.drawn.draws = s.draws + 1 := rfl
@[simp] theorem drawn_spiAt : s.drawn.spiAt j = s.spiAt j := rfl
@[simp] theorem drawn_uartAt : s.drawn.uartAt j = s.uartAt j := rfl

@[simp] theorem setInFlight_spis : (s.setInFlight f).spis = s.spis := rfl
@[simp] theorem setInFlight_uarts : (s.setInFlight f).uarts = s.uarts := rfl
@[simp] theorem setInFlight_caller : (s.setInFlight f).caller = { s.caller with inFlight := f } := rfl
@[simp] theorem setInFlight_waiting : (s.setInFlight f).waiting = s.waiting := rfl
@[simp] theorem setInFlight_schedule : (s.setInFlight f).schedule = s.schedule := rfl
@[simp] theorem setInFlight_draws : (s.setInFlight f).draws = s.draws := rfl
@[simp] theorem setInFlight_spiAt : (s.setInFlight f).spiAt j = s.spiAt j := rfl
@[simp] theorem setInFlight_uartAt : (s.setInFlight f).uartAt j = s.uartAt j := rfl

@[simp] theorem received_spis : (s.received r).spis = s.spis := rfl
@[simp] theorem received_uarts : (s.received r).uarts = s.uarts := rfl
@[simp] theorem received_caller : (s.received r).caller = s.caller.receive r := rfl
@[simp] theorem received_waiting : (s.received r).waiting = s.waiting := rfl
@[simp] theorem received_schedule : (s.received r).schedule = s.schedule := rfl
@[simp] theorem received_draws : (s.received r).draws = s.draws := rfl
@[simp] theorem received_spiAt : (s.received r).spiAt j = s.spiAt j := rfl
@[simp] theorem received_uartAt : (s.received r).uartAt j = s.uartAt j := rfl

/-- `s` with another SPI object number `k` and another count of free values. -/
def State.putSpi (s : State) (k : Nat) (p : Spi) (draws : Nat) : State := { s.setSpi k p with draws := draws }

/-- `s` with another UART object number `k` and another count of free values. -/
def State.putUart (s : State) (k : Nat) (u : Uart) (draws : Nat) : State := { s.setUart k u with draws := draws }

variable (d : Nat)

@[simp] theorem putSpi_spis : (s.putSpi k p d).spis = s.spis.set k p := rfl
@[simp] theorem putSpi_uarts : (s.putSpi k p d).uarts = s.uarts := rfl
@[simp] theorem putSpi_caller : (s.putSpi k p d).caller = s.caller := rfl
@[simp] theorem putSpi_waiting : (s.putSpi k p d).waiting = s.waiting := rfl
@[simp] theorem putSpi_schedule : (s.putSpi k p d).schedule = s.schedule := rfl
@[simp] theorem putSpi_draws : (s.putSpi k p d).draws = d := rfl
@[simp] theorem putSpi_uartAt : (s.putSpi k p d).uartAt j = s.uartAt j := rfl

@[simp] theorem putUart_uarts : (s.putUart k u d).uarts = s.uarts.set k u := rfl
@[simp] theorem putUart_spis : (s.putUart k u d).spis = s.spis := rfl
@[simp] theorem putUart_caller : (s.putUart k u d).caller = s.caller := rfl
@[simp] theorem putUart_waiting : (s.putUart k u d).waiting = s.waiting := rfl
@[simp] theorem putUart_schedule : (s.putUart k u d).schedule = s.schedule := rfl
@[simp] theorem putUart_draws : (s.putUart k u d).draws = d := rfl
@[simp] theorem putUart_spiAt : (s.putUart k u d).spiAt j = s.spiAt j := rfl

/-! ## The caller -/

/-- What a caller that received a result looks like, in the words of the claims. -/
theorem receive_eq (c : Caller) :
    c.receive r = { c with
      cmd := c.cmd + 1
      line := c.line + 1
      dest := none
      inFlight := none
      results := c.results ++ [r]
      bindings :=
        match c.dest with
        | none => c.bindings
        | some n => (n, r) :: c.bindings } := by
  unfold Caller.receive Caller.bindResult
  cases c.dest <;> rfl

@[simp] theorem receive_cmd (c : Caller) : (c.receive r).cmd = c.cmd + 1 := rfl
@[simp] theorem receive_line (c : Caller) : (c.receive r).line = c.line + 1 := rfl
@[simp] theorem receive_results (c : Caller) : (c.receive r).results = c.results ++ [r] := rfl
@[simp] theorem receive_inFlight (c : Caller) : (c.receive r).inFlight = none := rfl
@[simp] theorem receive_id (c : Caller) : (c.receive r).id = c.id := by rw [receive_eq]
@[simp] theorem receive_program (c : Caller) : (c.receive r).program = c.program := by rw [receive_eq]
@[simp] theorem receive_ctx (c : Caller) : (c.receive r).ctx = c.ctx := by rw [receive_eq]
@[simp] theorem receive_bind (c : Caller) : (c.receive r).bind = c.bind := by rw [receive_eq]
@[simp] theorem receive_spi (c : Caller) : (c.receive r).spi = c.spi := by rw [receive_eq]
@[simp] theorem receive_uart (c : Caller) : (c.receive r).uart = c.uart := by rw [receive_eq]

@[simp] theorem halfway_cmd (c : Caller) : (c.halfway r).cmd = c.cmd + 1 := rfl
@[simp] theorem halfway_line (c : Caller) : (c.halfway r).line = c.line := rfl
@[simp] theorem halfway_results (c : Caller) : (c.halfway r).results = c.results ++ [r] := rfl
@[simp] theorem halfway_inFlight (c : Caller) : (c.halfway r).inFlight = some .secondRead := rfl
@[simp] theorem halfway_bindings (c : Caller) : (c.halfway r).bindings = (discardName, r) :: c.bindings := rfl
@[simp] theorem halfway_id (c : Caller) : (c.halfway r).id = c.id := rfl
@[simp] theorem halfway_program (c : Caller) : (c.halfway r).program = c.program := rfl
@[simp] theorem halfway_ctx (c : Caller) : (c.halfway r).ctx = c.ctx := rfl
@[simp] theorem halfway_bind (c : Caller) : (c.halfway r).bind = c.bind := rfl
@[simp] theorem halfway_spi (c : Caller) : (c.halfway r).spi = c.spi := rfl
@[simp] theorem halfway_uart (c : Caller) : (c.halfway r).uart = c.uart := rfl

/-- An operation that received `r` has returned `r`, from any state with the same caller. -/
theorem returned_received {s t : State} (h : t.caller = s.caller) {r : OpResult} :
    Safety.Returned s (t.received r) r := by
  change t.caller.receive r = _
  rw [h]
  exact receive_eq r s.caller

/-! ## Reading a transport object after a write -/

theorem setSpi_spiAt_self (h : k < s.spis.length) : (s.setSpi k p).spiAt k = p := by
  simp [State.spiAt, h]

theorem setSpi_spiAt_ne (h : j ≠ k) : (s.setSpi k p).spiAt j = s.spiAt j := by
  simp [State.spiAt, List.getElem?_set_ne h.symm]

@[simp] theorem setSpi_setSpi (p' : Spi) : (s.setSpi k p).setSpi k p' = s.setSpi k p' := by
  simp [State.setSpi]

theorem setSpi_spiAt_eq : s.setSpi k (s.spiAt k) = s := by
  by_cases h : k < s.spis.length
  · simp [State.setSpi, State.spiAt, h]
  · simp [State.setSpi, List.set_eq_of_length_le (Nat.le_of_not_lt h)]

theorem setUart_uartAt_self (h : k < s.uarts.length) : (s.setUart k u).uartAt k = u := by
  simp [State.uartAt, h]

theorem setUart_uartAt_ne (h : j ≠ k) : (s.setUart k u).uartAt j = s.uartAt j := by
  simp [State.uartAt, List.getElem?_set_ne h.symm]

@[simp] theorem setUart_setUart (u' : Uart) : (s.setUart k u).setUart k u' = s.setUart k u' := by
  simp [State.setUart]

theorem setUart_uartAt_eq : s.setUart k (s.uartAt k) = s := by
  by_cases h : k < s.uarts.length
  · simp [State.setUart, State.uartAt, h]
  · simp [State.setUart, List.set_eq_of_length_le (Nat.le_of_not_lt h)]

theorem putSpi_spiAt_self (h : k < s.spis.length) : (s.putSpi k p d).spiAt k = p := setSpi_spiAt_self s k p h

theorem putSpi_spiAt_ne (h : j ≠ k) : (s.putSpi k p d).spiAt j = s.spiAt j := setSpi_spiAt_ne s k j p h

theorem putUart_uartAt_self (h : k < s.uarts.length) : (s.putUart k u d).uartAt k = u := setUart_uartAt_self s k u h

theorem putUart_uartAt_ne (h : j ≠ k) : (s.putUart k u d).uartAt j = s.uartAt j := setUart_uartAt_ne s k j u h

@[simp] theorem putSpi_setSpi (p' : Spi) : (s.putSpi k p d).setSpi k p' = s.putSpi k p' d := by
  simp [State.setSpi, State.putSpi]

@[simp] theorem setSpi_putSpi (p' : Spi) : (s.setSpi k p).putSpi k p' d = s.putSpi k p' d := by
  simp [State.setSpi, State.putSpi]

@[simp] theorem putUart_setUart (u' : Uart) : (s.putUart k u d).setUart k u' = s.putUart k u' d := by
  simp [State.setUart, State.putUart]

@[simp] theorem setUart_putUart (u' : Uart) : (s.setUart k u).putUart k u' d = s.putUart k u' d := by
  simp [State.setUart, State.putUart]

/-- Drawing a free value, told as a replacement of SPI object `k` by itself. -/
theorem drawn_eq_putSpi : s.drawn = s.putSpi k (s.spiAt k) (s.draws + 1) := by
  unfold State.putSpi
  rw [setSpi_spiAt_eq]
  rfl

/-- Drawing a free value, told as a replacement of UART object `k` by itself. -/
theorem drawn_eq_putUart : s.drawn = s.putUart k (s.uartAt k) (s.draws + 1) := by
  unfold State.putUart
  rw [setUart_uartAt_eq]
  rfl

/-- Replacing SPI object `k`, and whatever an ending operation does to its caller, leaves everything else alone. -/
theorem onlySpi_of_putSpi {t : State} (hspis : t.spis = s.spis.set k p) (huarts : t.uarts = s.uarts)
    (hwaiting : t.waiting = s.waiting) (hschedule : t.schedule = s.schedule) : Safety.OnlySpi k s t := by
  refine ⟨huarts, hwaiting, hschedule, by simp [hspis], fun j hj => ?_⟩
  simp [State.spiAt, hspis, List.getElem?_set_ne hj.symm]

/-- Replacing UART object `k`, and whatever an ending operation does to its caller, leaves everything else alone. -/
theorem onlyUart_of_putUart {t : State} (huarts : t.uarts = s.uarts.set k u) (hspis : t.spis = s.spis)
    (hwaiting : t.waiting = s.waiting) (hschedule : t.schedule = s.schedule) : Safety.OnlyUart k s t := by
  refine ⟨hspis, hwaiting, hschedule, by simp [huarts], fun j hj => ?_⟩
  simp [State.uartAt, huarts, List.getElem?_set_ne hj.symm]

/-- An operation that returned from the state it started in changes nothing but its caller. -/
theorem onlyCaller_received : Safety.OnlyCaller s (s.received r) := ⟨rfl, rfl, rfl, rfl, rfl⟩

/-- A number no SPI object was constructed under reads as `Spi.absent`. -/
theorem spiAt_absent (h : ¬ k < s.spis.length) : s.spiAt k = Spi.absent := by
  simp [State.spiAt, List.getElem?_eq_none (Nat.le_of_not_lt h)]

/-- A number no UART object was constructed under reads as `Uart.absent`. -/
theorem uartAt_absent (h : ¬ k < s.uarts.length) : s.uartAt k = Uart.absent := by
  simp [State.uartAt, List.getElem?_eq_none (Nat.le_of_not_lt h)]

variable {s k}

theorem spi_exists_of_configured (h : (s.spiAt k).configured = true) : k < s.spis.length := by
  by_contra hk
  rw [spiAt_absent s k hk] at h
  exact absurd h (by decide)

theorem spi_exists_of_handle (h : (s.spiAt k).handle = .set) : k < s.spis.length := by
  by_contra hk
  rw [spiAt_absent s k hk] at h
  exact absurd h (by decide)

theorem uart_exists_of_configured (h : (s.uartAt k).configured = true) : k < s.uarts.length := by
  by_contra hk
  rw [uartAt_absent s k hk] at h
  exact absurd h (by decide)

theorem uart_exists_of_handle (h : (s.uartAt k).handle = .set) : k < s.uarts.length := by
  by_contra hk
  rw [uartAt_absent s k hk] at h
  exact absurd h (by decide)

theorem uart_exists_of_op (h : (s.uartAt k).op ≠ .idle) : k < s.uarts.length := by
  by_contra hk
  rw [uartAt_absent s k hk] at h
  exact h rfl

theorem spiAt_mem (h : k < s.spis.length) : s.spiAt k ∈ s.spis := by
  simp [State.spiAt, h]

theorem uartAt_mem (h : k < s.uarts.length) : s.uartAt k ∈ s.uarts := by
  simp [State.uartAt, h]

end Sys2Proof.Machine
end

