-- ==== Sys2Proof/Laws/Conv.lean ====
section
/-! SUPPORT. Rounding toward zero and the context check, in Mathlib's words, and what a checked conversion does. -/

namespace Sys2Proof.Machine

/-- R11: rounding toward zero is the floor from zero up and the ceiling below. -/
theorem trunc_eq (q : ℚ) : trunc q = if 0 ≤ q then ⌊q⌋ else ⌈q⌉ := by
  unfold trunc
  by_cases h : q < 0
  · rw [if_pos h, if_neg (not_le.mpr h), show (-q).floor = ⌊-q⌋ from rfl, Int.floor_neg, neg_neg]
  · rw [if_neg h, if_pos (not_lt.mp h)]
    rfl

theorem positiveInteger_iff (q : ℚ) : positiveInteger q = true ↔ ∃ n : ℤ, 1 ≤ n ∧ q = n := by
  simp only [positiveInteger, Bool.and_eq_true, beq_iff_eq, decide_eq_true_eq]
  constructor
  · rintro ⟨hden, hnum⟩
    exact ⟨q.num, hnum, by conv_lhs => rw [← Rat.num_div_den q, hden]; simp⟩
  · rintro ⟨n, hn, rfl⟩
    simp [hn]

/-- R159: in a valid context both numbers are 1 or more. -/
theorem Context.one_le_of_valid {c : Context} (h : c.valid = true) : 1 ≤ c.clockHz ∧ 1 ≤ c.microsteps := by
  simp only [Context.valid, Bool.and_eq_true, positiveInteger_iff] at h
  obtain ⟨⟨n, hn, hc⟩, m, hm, hmu⟩ := h
  rw [hc, hmu]
  constructor <;> exact_mod_cast ‹_›

theorem withContext_of_valid {s : State} (h : s.caller.ctx.valid = true)
    (go : Host.Outcome State Fault Refusal) : withContext s go = go := by
  simp [withContext, h]

theorem withContext_of_invalid {s : State} (h : s.caller.ctx.valid = false)
    (go : Host.Outcome State Fault Refusal) : withContext s go = .refused .conversionContext := by
  simp [withContext, h]

end Sys2Proof.Machine
end

