-- ==== Sys2Proof/Laws/Decode.lean ====
section
/-! SUPPORT. The text a command line is made of, read back piece by piece: keys, words, digits. -/

namespace Sys2Proof

/-! ## Keys and words -/

theorem stripKey_append (k t : Bytes) : stripKey k (k ++ t) = some t := by
  induction k with
  | nil => cases t <;> rfl
  | cons b k ih => simpa [stripKey] using ih

/-- A word has no blank byte, and at least one byte. -/
def IsWord (w : Bytes) : Prop := w ≠ [] ∧ blankByte ∉ w

theorem splitBlank_word {w : Bytes} (h : blankByte ∉ w) : splitBlank w = [w] := by
  induction w with
  | nil => rfl
  | cons b w ih =>
    have hb : b ≠ blankByte := fun e => h (by simp [e])
    have hw : blankByte ∉ w := fun e => h (by simp [e])
    simp [splitBlank, hb, ih hw]

theorem splitBlank_word_blank {w : Bytes} (h : blankByte ∉ w) (t : Bytes) :
    splitBlank (w ++ blankByte :: t) = w :: splitBlank t := by
  induction w with
  | nil => simp [splitBlank]
  | cons b w ih =>
    have hb : b ≠ blankByte := fun e => h (by simp [e])
    have hw : blankByte ∉ w := fun e => h (by simp [e])
    simp [splitBlank, hb, ih hw]

theorem splitBlank_joinBlank : ∀ {ws : List Bytes}, ws ≠ [] → (∀ w ∈ ws, IsWord w) →
    splitBlank (joinBlank ws) = ws
  | [w], _, h => splitBlank_word (h w (by simp)).2
  | w :: v :: ws, _, h => by
    rw [joinBlank, splitBlank_word_blank (h w (by simp)).2,
      splitBlank_joinBlank (by simp) fun x hx => h x (List.mem_cons_of_mem _ hx)]

/-- Words joined with blanks are cut into the same words again. -/
theorem tokens_joinBlank {ws : List Bytes} (hne : ws ≠ []) (h : ∀ w ∈ ws, IsWord w) : tokens (joinBlank ws) = ws := by
  rw [tokens, splitBlank_joinBlank hne h, List.filter_eq_self]
  intro w hw
  simpa using (h w hw).1

/-! ## Digits -/

theorem decimalDigit_digitByte : ∀ d < 10, decimalDigit? (digitByte d) = some d := by decide

theorem hexDigit_digitByte : ∀ d < 16, hexDigit? (digitByte d) = some d := by decide

theorem digitByte_ne_blank : ∀ d < 16, digitByte d ≠ blankByte := by decide

theorem digitByte_ne_slash : ∀ d < 16, digitByte d ≠ ch '/' := by decide

theorem digitByte_ne_minus : ∀ d < 16, digitByte d ≠ ch '-' := by decide

theorem digitByte_ne_x : ∀ d < 16, digitByte d ≠ ch 'x' := by decide

theorem digitsValue_append (base : Nat) (digit? : Byte → Option Nat) :
    ∀ (t u : Bytes) (read n : Nat), digitsValue base digit? read t = some n →
      digitsValue base digit? read (t ++ u) = digitsValue base digit? n u
  | [], u, read, n, h => by
    cases h
    rfl
  | b :: t, u, read, n, h => by
    rw [List.cons_append]
    rw [digitsValue] at h ⊢
    cases hb : digit? b with
    | none =>
      rw [hb] at h
      cases h
    | some d =>
      rw [hb] at h
      exact digitsValue_append base digit? t u _ n h

/-- The last `k` hexadecimal digits of a number below `16^k` read as the number. -/
theorem digitsValue_hexDigits : ∀ (k n : Nat), n < 16 ^ k → digitsValue 16 hexDigit? 0 (hexDigits k n) = some n
  | 0, n, h => by
    have : n = 0 := by simpa using h
    subst this
    rfl
  | k + 1, n, h => by
    have hlt : n / 16 < 16 ^ k := Nat.div_lt_of_lt_mul (by rw [Nat.pow_succ] at h; omega)
    rw [hexDigits, digitsValue_append 16 hexDigit? _ _ _ _ (digitsValue_hexDigits k (n / 16) hlt)]
    simp only [digitsValue, hexDigit_digitByte (n % 16) (Nat.mod_lt _ (by decide))]
    congr 1
    omega

/-- A number in decimal put before `acc` reads as the number followed by `acc`. -/
theorem digitsValue_decimalOnto : ∀ (fuel n : Nat) (acc : Bytes), n < fuel →
    digitsValue 10 decimalDigit? 0 (decimalOnto fuel n acc) = digitsValue 10 decimalDigit? n acc
  | 0, n, acc, h => absurd h (by omega)
  | fuel + 1, n, acc, h => by
    unfold decimalOnto
    split
    · rename_i hn
      simp [digitsValue, decimalDigit_digitByte n hn]
    · rename_i hn
      rw [digitsValue_decimalOnto fuel (n / 10) _ (by omega)]
      simp only [digitsValue, decimalDigit_digitByte (n % 10) (Nat.mod_lt _ (by decide))]
      congr 1
      omega

theorem digitsValue_decimalText (n : Nat) : digitsValue 10 decimalDigit? 0 (decimalText n) = some n := by
  rw [decimalText, digitsValue_decimalOnto _ _ _ (Nat.lt_succ_self n)]
  rfl

/-- Every byte of a number in decimal is a digit. -/
theorem mem_decimalOnto : ∀ (fuel n : Nat) (acc : Bytes) (b : Byte), b ∈ decimalOnto fuel n acc →
    b ∈ acc ∨ ∃ d < 10, b = digitByte d
  | 0, n, acc, b, h => Or.inl h
  | fuel + 1, n, acc, b, h => by
    unfold decimalOnto at h
    split at h
    · rename_i hn
      rcases List.mem_cons.mp h with rfl | h
      · exact Or.inr ⟨n, hn, rfl⟩
      · exact Or.inl h
    · rcases mem_decimalOnto fuel (n / 10) _ b h with h | h
      · rcases List.mem_cons.mp h with rfl | h
        · exact Or.inr ⟨n % 10, Nat.mod_lt _ (by decide), rfl⟩
        · exact Or.inl h
      · exact Or.inr h

theorem mem_decimalText {n : Nat} {b : Byte} (h : b ∈ decimalText n) : ∃ d < 10, b = digitByte d := by
  rcases mem_decimalOnto _ _ _ _ h with h | h
  · cases h
  · exact h

theorem decimalOnto_ne_nil (fuel n : Nat) (acc : Bytes) (h : 0 < fuel) : decimalOnto fuel n acc ≠ [] := by
  induction fuel generalizing n acc with
  | zero => omega
  | succ fuel ih =>
    unfold decimalOnto
    split
    · simp
    · cases fuel with
      | zero => simp [decimalOnto]
      | succ fuel => exact ih _ _ (by omega)

theorem decimalText_ne_nil (n : Nat) : decimalText n ≠ [] := decimalOnto_ne_nil _ _ _ (by omega)

theorem mem_hexDigits : ∀ (k n : Nat) (b : Byte), b ∈ hexDigits k n → ∃ d < 16, b = digitByte d
  | 0, n, b, h => by cases h
  | k + 1, n, b, h => by
    rcases List.mem_append.mp h with h | h
    · exact mem_hexDigits k (n / 16) b h
    · exact ⟨n % 16, Nat.mod_lt _ (by decide), by simpa using h⟩

/-! ## Numbers -/

theorem parseDecimal_decimalText (n : Nat) : parseDecimal (decimalText n) = some n := by
  have h : (decimalText n).isEmpty = false := by simpa using decimalText_ne_nil n
  rw [parseDecimal, h]
  exact digitsValue_decimalText n

/-- A number in decimal does not begin with `0x`. -/
theorem stripKey_decimalText (n : Nat) : stripKey (ascii "0x") (decimalText n) = none := by
  have key : ∀ t : Bytes, (∀ b ∈ t, ∃ d < 10, b = digitByte d) → stripKey (ascii "0x") t = none := by
    intro t ht
    match t with
    | [] => rfl
    | [a] =>
      show (if ch '0' = a then _ else _) = _
      split <;> rfl
    | a :: b :: t =>
      obtain ⟨d, hd, rfl⟩ := ht b (by simp)
      have := (digitByte_ne_x d (by omega)).symm
      show (if ch '0' = a then (if ch 'x' = digitByte d then _ else _) else _) = _
      rw [if_neg this, ite_self]
  exact key _ fun b hb => mem_decimalText hb

theorem parseNumber_decimalText (n : Nat) : parseNumber (decimalText n) = some n := by
  rw [parseNumber, stripKey_decimalText]
  exact parseDecimal_decimalText n

theorem parseNumber_hex {k n : Nat} (hk : hexDigits k n ≠ []) (h : n < 16 ^ k) :
    parseNumber (ascii "0x" ++ hexDigits k n) = some n := by
  have he : (hexDigits k n).isEmpty = false := by simpa using hk
  rw [parseNumber, stripKey_append]
  simp only [he]
  exact digitsValue_hexDigits k n h

theorem parseNumber_byteText (b : Byte) : parseNumber (byteText b) = some b.toNat :=
  parseNumber_hex (by simp [hexDigits]) (by have := b.isLt; omega)

theorem parseNumber_valueText (v : Value) : parseNumber (valueText v) = some v.toNat :=
  parseNumber_hex (by simp [hexDigits]) (by have := v.isLt; omega)

/-! ## Operands -/

theorem byteField_text (key : String) (b : Byte) : byteField key (ascii key ++ byteText b) = .ok b := by
  have h : b.toNat < 256 := b.isLt
  simp [byteField, numberField, stripKey_append, parseNumber_byteText, h]

theorem valueField_text (key : String) (v : Value) : valueField key (ascii key ++ valueText v) = .ok v := by
  have h : v.toNat < 4294967296 := v.isLt
  simp [valueField, numberField, stripKey_append, parseNumber_valueText, h]

theorem valueField_decimal (key : String) (v : Value) :
    valueField key (ascii key ++ decimalText v.toNat) = .ok v := by
  have h : v.toNat < 4294967296 := v.isLt
  simp [valueField, numberField, stripKey_append, parseNumber_decimalText, h]

theorem splitSlash_none {t : Bytes} (h : ch '/' ∉ t) : splitSlash t = (t, none) := by
  induction t with
  | nil => rfl
  | cons b t ih =>
    have hb : b ≠ ch '/' := fun e => h (by simp [e])
    have ht : ch '/' ∉ t := fun e => h (by simp [e])
    simp [splitSlash, hb, ih ht]

theorem splitSlash_append {t : Bytes} (h : ch '/' ∉ t) (u : Bytes) : splitSlash (t ++ ch '/' :: u) = (t, some u) := by
  induction t with
  | nil => simp [splitSlash]
  | cons b t ih =>
    have hb : b ≠ ch '/' := fun e => h (by simp [e])
    have ht : ch '/' ∉ t := fun e => h (by simp [e])
    simp [splitSlash, hb, ih ht]

theorem slash_not_mem_decimalText (n : Nat) : ch '/' ∉ decimalText n := by
  intro h
  obtain ⟨d, hd, he⟩ := mem_decimalText h
  exact digitByte_ne_slash d (by omega) he.symm

/-- The digits of a rational, without its sign, read as its numerator and its denominator. -/
theorem parseUnsignedRat_text (n d : Nat) (hd : d ≠ 0) :
    parseUnsignedRat (decimalText n ++ (if d = 1 then [] else ch '/' :: decimalText d)) = some (n, d) := by
  unfold parseUnsignedRat
  split
  · rename_i hs
    by_cases h1 : d = 1
    · rw [if_pos h1, List.append_nil, splitSlash_none (slash_not_mem_decimalText n)] at hs
      cases hs
      rw [parseDecimal_decimalText, h1]
    · rw [if_neg h1, splitSlash_append (slash_not_mem_decimalText n)] at hs
      cases hs
  · rename_i hs
    by_cases h1 : d = 1
    · rw [if_pos h1, List.append_nil, splitSlash_none (slash_not_mem_decimalText n)] at hs
      cases hs
    · rw [if_neg h1, splitSlash_append (slash_not_mem_decimalText n)] at hs
      cases hs
      simp [parseDecimal_decimalText, hd]

/-- A number in decimal does not begin with a minus sign. -/
theorem stripMinus_decimalText (n : Nat) (u : Bytes) : stripKey (ascii "-") (decimalText n ++ u) = none := by
  cases ht : decimalText n with
  | nil => exact absurd ht (decimalText_ne_nil n)
  | cons b t =>
    obtain ⟨d, hd, rfl⟩ := mem_decimalText (show b ∈ decimalText n by rw [ht]; simp)
    show (if ch '-' = digitByte d then _ else _) = _
    rw [if_neg (digitByte_ne_minus d (by omega)).symm]

/-- R90: a rational's text reads as the rational. -/
theorem parseRat_ratText (q : Rat) : parseRat (ratText q) = some q := by
  unfold ratText
  by_cases hneg : q.num < 0
  · rw [if_pos hneg, List.append_assoc, parseRat, stripKey_append]
    simp only [parseUnsignedRat_text _ _ q.den_nz]
    have : -((q.num.natAbs : Nat) : Int) = q.num := by omega
    rw [this, Rat.mkRat_self]
  · rw [if_neg hneg, List.nil_append, parseRat, stripMinus_decimalText]
    simp only [parseUnsignedRat_text _ _ q.den_nz]
    have : ((q.num.natAbs : Nat) : Int) = q.num := by omega
    rw [this, Rat.mkRat_self]

theorem ratField_text (key : String) (q : Rat) : ratField key (ascii key ++ ratText q) = .ok q := by
  simp [ratField, stripKey_append, parseRat_ratText]

theorem resultName_nameTokens {n : Option Bytes} (h : ∀ x, n = some x → nameOk x = true) :
    resultName (nameTokens n) = .ok n := by
  cases n with
  | none => rfl
  | some x => simp [resultName, nameTokens, h x rfl]

/-! ## Words of a line -/

theorem blank_not_mem_decimalText (n : Nat) : blankByte ∉ decimalText n := by
  intro h
  obtain ⟨d, hd, he⟩ := mem_decimalText h
  exact digitByte_ne_blank d (by omega) he.symm

theorem blank_not_mem_hexDigits (k n : Nat) : blankByte ∉ hexDigits k n := by
  intro h
  obtain ⟨d, hd, he⟩ := mem_hexDigits _ _ _ h
  exact digitByte_ne_blank d hd he.symm

theorem blank_not_mem_ratText (q : Rat) : blankByte ∉ ratText q := by
  unfold ratText
  simp only [List.mem_append, not_or]
  refine ⟨⟨?_, blank_not_mem_decimalText _⟩, ?_⟩
  · split <;> decide
  · split
    · simp
    · rw [List.mem_cons, not_or]
      exact ⟨by decide, blank_not_mem_decimalText _⟩

theorem isWord_key {key t : Bytes} (hk : key ≠ []) (hb : blankByte ∉ key) (ht : blankByte ∉ t) : IsWord (key ++ t) :=
  ⟨by simp [hk], by simp [hb, ht]⟩

theorem isWord_name {n : Bytes} (h : nameOk n = true) : IsWord n := by
  simp only [nameOk, Bool.and_eq_true, List.all_eq_true, decide_eq_true_eq] at h
  refine ⟨by simpa using h.1, fun hb => ?_⟩
  have := (h.2 _ hb).1
  exact absurd this (by decide)

/-- Every mnemonic is found again from its text. -/
theorem mnemonicOf_text (m : Mnemonic) : mnemonicOf m.text = some m := by
  cases m <;> decide

theorem isWord_mnemonic (m : Mnemonic) : IsWord m.text := by
  cases m <;> exact ⟨by decide, by decide⟩

/-- A key, `0x` and hexadecimal digits are one word. -/
theorem isWord_hex {key : Bytes} (hk : key ≠ []) (hb : blankByte ∉ key) (k n : Nat) :
    IsWord (key ++ (ascii "0x" ++ hexDigits k n)) :=
  isWord_key hk hb (by
    rw [List.mem_append, not_or]
    exact ⟨by decide, blank_not_mem_hexDigits _ _⟩)

/-! ## Masks -/

/-- Masking a number takes its last byte and the rest apart. -/
theorem land_byte {b c : Nat} (n m : Nat) (hb : b < 256) (hc : c < 256) :
    Nat.land (n * 256 + b) (m * 256 + c) = Nat.land n m * 256 + Nat.land b c := by
  have hd := Nat.and_div_two_pow (a := n * 256 + b) (b := m * 256 + c) (n := 8)
  have hm := Nat.and_mod_two_pow (a := n * 256 + b) (b := m * 256 + c) (n := 8)
  simp only [show (2 : Nat) ^ 8 = 256 from rfl] at hd hm
  rw [show (n * 256 + b) / 256 = n by omega, show (m * 256 + c) / 256 = m by omega] at hd
  rw [show (n * 256 + b) % 256 = b by omega, show (m * 256 + c) % 256 = c by omega] at hm
  have hbc : b &&& c < 256 := Nat.lt_of_le_of_lt Nat.and_le_left hb
  show (n * 256 + b) &&& (m * 256 + c) = (n &&& m) * 256 + (b &&& c)
  omega

/-- A mask byte of ones keeps a byte. -/
theorem land_ff (b : Byte) : Nat.land b.toNat 0xFF = b.toNat := by
  revert b
  decide

/-- A mask byte of 0x80 keeps bit 7. -/
theorem land_80 (b : Byte) : Nat.land b.toNat 0x80 = if b.toNat < 0x80 then 0 else 0x80 := by
  revert b
  decide

end Sys2Proof
end

