-- ==== Sys2Proof/Laws/Operands.lean ====
section
/-! SUPPORT. Bytes of a value, the checksum, the register check, and the select table's reads after an update. -/

namespace Sys2Proof.Machine

/-- R72: bit 7 is clear exactly in 0x00..0x7F. -/
theorem registerRefused_iff (reg : Byte) : registerRefused reg = true ↔ 0x80 ≤ reg.toNat := by
  unfold registerRefused
  revert reg
  decide

theorem registerRefused_of_lt {reg : Byte} (h : reg.toNat < 0x80) : registerRefused reg = false := by
  rw [Bool.eq_false_iff]
  intro hr
  have := (registerRefused_iff reg).mp hr
  omega

theorem admitRegister_of_lt {reg : Byte} (h : reg.toNat < 0x80)
    (go : Host.Outcome State Fault Refusal) : admitRegister reg go = go := by
  simp [admitRegister, registerRefused_of_lt h]

/-- R12: decoding the four bytes of a value gives the value back. -/
theorem unbe32_bytes (v : Value) : unbe32 (byte3 v) (byte2 v) (byte1 v) (byte0 v) = v := by
  simp only [unbe32, byte3, byte2, byte1, byte0]
  rw [BitVec.extractLsb'_append_extractLsb'_eq_extractLsb' (by decide),
    BitVec.extractLsb'_append_extractLsb'_eq_extractLsb' (by decide),
    BitVec.extractLsb'_append_extractLsb'_eq_extractLsb' (by decide)]
  exact BitVec.extractLsb'_eq_self

/-- R12: `unbe32([a,b,c,d])` is `a·2^24 + b·2^16 + c·2^8 + d`. -/
theorem unbe32_toNat (a b c d : Byte) :
    (unbe32 a b c d).toNat = a.toNat * 2 ^ 24 + b.toNat * 2 ^ 16 + c.toNat * 2 ^ 8 + d.toNat := by
  have ha := a.isLt
  have hb := b.isLt
  have hc := c.isLt
  have hd := d.isLt
  simp only [unbe32, BitVec.toNat_append]
  rw [← Nat.shiftLeft_add_eq_or_of_lt hd, ← Nat.shiftLeft_add_eq_or_of_lt hc,
    ← Nat.shiftLeft_add_eq_or_of_lt hb]
  simp only [Nat.shiftLeft_eq]
  omega

/-- The checksum of a sequence with one byte more. -/
theorem xorBytes_append (s : Bytes) (b : Byte) : xorBytes (s ++ [b]) = xorBytes s ^^^ b := by
  simp [xorBytes]

/-- The checksum folds from the front too. -/
theorem xorBytes_cons (b : Byte) (s : Bytes) : xorBytes (b :: s) = b ^^^ xorBytes s := by
  have h : ∀ (l : Bytes) (x y : Byte), l.foldl (· ^^^ ·) (x ^^^ y) = x ^^^ l.foldl (· ^^^ ·) y := by
    intro l
    induction l with
    | nil => intro x y; rfl
    | cons c l ih => intro x y; simp only [List.foldl_cons, BitVec.xor_assoc, ih]
  have := h s b 0
  simpa [xorBytes] using this

/-! ## The select table -/

/-- An update of a line's entries that keeps their devices and lines. -/
theorem onLine_devices (p : Spi) (line : Nat) (f : SelectLine → SelectLine) (hf : ∀ e, (f e).device = e.device) :
    (p.onLine line f).lines.map SelectLine.device = p.lines.map SelectLine.device := by
  simp only [Spi.onLine, List.map_map]
  refine List.map_congr_left fun e _ => ?_
  simp only [Function.comp_apply]
  split <;> simp [hf]

theorem onLine_lines (p : Spi) (line : Nat) (f : SelectLine → SelectLine) (hf : ∀ e, (f e).line = e.line) :
    (p.onLine line f).lines.map SelectLine.line = p.lines.map SelectLine.line := by
  simp only [Spi.onLine, List.map_map]
  refine List.map_congr_left fun e _ => ?_
  simp only [Function.comp_apply]
  split <;> simp [hf]

/-- The entry found for a line after an update of some line's entries. -/
theorem find_onLine (p : Spi) (line l : Nat) (f : SelectLine → SelectLine) (hf : ∀ e, (f e).line = e.line) :
    (p.onLine line f).lines.find? (fun e => e.line == l) =
      (p.lines.find? (fun e => e.line == l)).map (fun e => if e.line = line then f e else e) := by
  simp only [Spi.onLine, List.find?_map]
  congr 1
  refine List.find?_congr fun e _ => ?_
  simp only [Function.comp_apply]
  split <;> simp [hf]

/-- The level of a line after an update of some line's entries. -/
theorem sel_onLine_ne (p : Spi) {line l : Nat} (f : SelectLine → SelectLine) (hf : ∀ e, (f e).line = e.line)
    (h : l ≠ line) : (p.onLine line f).sel l = p.sel l := by
  simp only [Spi.sel, find_onLine p line l f hf, Option.map_map]
  cases hfind : p.lines.find? (fun e => e.line == l) with
  | none => rfl
  | some e =>
    have : e.line = l := by simpa using List.find?_some hfind
    simp [this, h]

/-- A device with a route has an entry for its line. -/
theorem line_exists_of_route {p : Spi} {device : Byte} {line : Nat} (h : p.route device = some line) :
    ∃ e, p.lines.find? (fun e => e.line == line) = some e ∧ e.line = line := by
  simp only [Spi.route, Option.map_eq_some_iff] at h
  obtain ⟨e, hfind, rfl⟩ := h
  have hmem := List.mem_of_find?_eq_some hfind
  cases h2 : p.lines.find? (fun e' => e'.line == e.line) with
  | none =>
    have := List.find?_eq_none.mp h2 e hmem
    simp at this
  | some e' => exact ⟨e', rfl, by simpa using List.find?_some h2⟩

/-- R61: a route depends on the table's devices and lines alone. -/
theorem route_of_columns {p q : Spi} (hd : q.lines.map SelectLine.device = p.lines.map SelectLine.device)
    (hl : q.lines.map SelectLine.line = p.lines.map SelectLine.line) (device : Byte) :
    q.route device = p.route device := by
  have key : ∀ l l' : List SelectLine, l.map SelectLine.device = l'.map SelectLine.device →
      l.map SelectLine.line = l'.map SelectLine.line →
      (l.find? (fun e => e.device == device)).map SelectLine.line =
        (l'.find? (fun e => e.device == device)).map SelectLine.line := by
    intro l
    induction l with
    | nil =>
      intro l' h _
      cases l' with
      | nil => rfl
      | cons _ _ => simp at h
    | cons a l ih =>
      intro l' h h'
      cases l' with
      | nil => simp at h
      | cons b l' =>
        simp only [List.map_cons, List.cons.injEq] at h h'
        simp only [List.find?_cons, h.1]
        cases b.device == device
        · exact ih l' h.2 h'.2
        · simp [h'.1]
  exact key _ _ hd hl

end Sys2Proof.Machine
end

