-- ==== Sys2Proof/Laws/Ops.lean ====
section
/-! SUPPORT. What the shared operations can do, said once: drawing an answer, one transfer, one register access over
SPI, and ending an operation. -/

namespace Sys2Proof.Machine

open Sys2Proof.Safety

/-! ## Ending an operation -/

theorem finish_eq (r : OpResult) (s : State) : finish r s = .next (s.received r) := rfl

theorem finish_next {r : OpResult} {s t : State} (h : finish r s = .next t) : t = s.received r := by
  simpa [finish] using h.symm

theorem admitRegister_next {reg : Byte} {go : Host.Outcome State Fault Refusal} {t : State}
    (h : admitRegister reg go = .next t) : registerRefused reg = false ∧ go = .next t := by
  unfold admitRegister at h
  split at h
  · cases h
  · exact ⟨by simpa using ‹¬ registerRefused reg = true›, h⟩

theorem admitCaller_of_owner {owner : Nat} {s : State} (h : owner = s.caller.id)
    (go : Host.Outcome State Fault Refusal) : admitCaller owner s go = go := if_pos h

theorem admitCaller_of_other {owner : Nat} {s : State} (h : owner ≠ s.caller.id)
    (go : Host.Outcome State Fault Refusal) : admitCaller owner s go = .refused .secondCaller := if_neg h

theorem admitCaller_next {owner : Nat} {s t : State} {go : Host.Outcome State Fault Refusal}
    (h : admitCaller owner s go = .next t) : owner = s.caller.id ∧ go = .next t := by
  unfold admitCaller at h
  split at h
  · exact ⟨‹_›, h⟩
  · cases h

/-! ## Drawing -/

/-- A draw of the controller's answer changes only the answers that are left, and the count of free values. -/
theorem drawConfigure_state (k : Nat) (s : State) :
    ∃ rest d, (drawConfigure k s).2 =
      s.putSpi k { s.spiAt k with configureAnswers := rest } d := by
  unfold drawConfigure
  cases h : (s.spiAt k).configureAnswers with
  | cons a rest => exact ⟨rest, s.draws, rfl⟩
  | nil =>
    refine ⟨[], s.draws + 1, ?_⟩
    have : ({ s.spiAt k with configureAnswers := [] } : Spi) = s.spiAt k := by rw [← h]
    rw [this, ← drawn_eq_putSpi]

/-- A draw of the answer to an exchange changes only the answers that are left, and the count of free values. -/
theorem drawExchange_state (k : Nat) (s : State) :
    ∃ rest d, (drawExchange k s).2 =
      s.putSpi k { s.spiAt k with exchangeAnswers := rest } d := by
  unfold drawExchange
  cases h : (s.spiAt k).exchangeAnswers with
  | cons a rest => exact ⟨rest, s.draws, rfl⟩
  | nil =>
    refine ⟨[], s.draws + 1, ?_⟩
    have : ({ s.spiAt k with exchangeAnswers := [] } : Spi) = s.spiAt k := by rw [← h]
    rw [this, ← drawn_eq_putSpi]

/-- A draw while sending changes only the answers that are left, and the count of free values. -/
theorem drawSend_state (k : Nat) (s : State) :
    ∃ rest d, (drawSend k s).2 = s.putUart k { s.uartAt k with sendAnswers := rest } d := by
  unfold drawSend
  cases h : (s.uartAt k).sendAnswers with
  | cons a rest => exact ⟨rest, s.draws, rfl⟩
  | nil =>
    refine ⟨[], s.draws + 1, ?_⟩
    have : ({ s.uartAt k with sendAnswers := [] } : Uart) = s.uartAt k := by rw [← h]
    rw [this, ← drawn_eq_putUart]

/-- A draw while receiving changes only the answers that are left, and the count of free values. -/
theorem drawReceive_state (k : Nat) (s : State) :
    ∃ rest d, (drawReceive k s).2 =
      s.putUart k { s.uartAt k with receiveAnswers := rest } d := by
  unfold drawReceive
  cases h : (s.uartAt k).receiveAnswers with
  | cons a rest => exact ⟨rest, s.draws, rfl⟩
  | nil =>
    refine ⟨[], s.draws + 1, ?_⟩
    have : ({ s.uartAt k with receiveAnswers := [] } : Uart) = s.uartAt k := by rw [← h]
    rw [this, ← drawn_eq_putUart]

/-- The answer drawn does not depend on the level of a line. -/
theorem drawExchange_drive (k line : Nat) (level : Level) (s : State) (hk : k < s.spis.length) :
    (drawExchange k (s.setSpi k ((s.spiAt k).drive line level))).1 = (drawExchange k s).1 := by
  have hd : ((s.spiAt k).drive line level).exchangeAnswers = (s.spiAt k).exchangeAnswers := rfl
  unfold drawExchange
  rw [setSpi_spiAt_self s k _ hk, hd]
  cases (s.spiAt k).exchangeAnswers <;> rfl

/-! ## One transfer -/

/-- What one finished transfer on `line` leaves in the SPI object: `x` in the frame buffers and on the line's record,
and the line `Deasserted`. -/
def Spi.afterTransfer (p : Spi) (line : Nat) (x : Exchange) (rx : SpiFrame) (rest : List ExchangeAnswer) : Spi :=
  { p with
    tx := x.tx
    rx := rx
    exchangeAnswers := rest
    lines := p.lines.map fun e =>
      if e.line = line then { e with level := .deasserted, log := x :: e.log } else e }

theorem drive_note_drive (p : Spi) (line : Nat) (x : Exchange) (rx : SpiFrame) (rest : List ExchangeAnswer) :
    ((({ p.drive line .asserted with exchangeAnswers := rest, tx := x.tx, rx := rx } : Spi).note line x).drive line
      .deasserted) = p.afterTransfer line x rx rest := by
  simp only [Spi.drive, Spi.note, Spi.onLine, Spi.afterTransfer, List.map_map]
  congr 1
  refine List.map_congr_left fun e _ => ?_
  by_cases h : e.line = line <;> simp [h]

/-- R104: one transfer, by the environment's answer. -/
theorem transfer_cases (k line : Nat) (form : FrameForm) (tx : SpiFrame) (s : State) (hk : k < s.spis.length) :
    ((drawExchange k s).1 = .never ∧ transfer k line form tx s = .never) ∨
    ((drawExchange k s).1 = .fault ∧ ∃ junk rest d,
      transfer k line form tx s = .answered none
        (s.putSpi k ((s.spiAt k).afterTransfer line ⟨form, tx, none⟩ junk rest) d)) ∨
    (∃ rx rest d, (drawExchange k s).1 = .ok rx ∧
      transfer k line form tx s = .answered (some rx)
        (s.putSpi k ((s.spiAt k).afterTransfer line ⟨form, tx, some rx⟩ rx rest) d)) := by
  have hdraw := drawExchange_drive k line .asserted s hk
  obtain ⟨rest, d, hstate⟩ := drawExchange_state k (s.setSpi k ((s.spiAt k).drive line .asserted))
  rw [setSpi_spiAt_self s k _ hk, setSpi_putSpi] at hstate
  generalize hD : drawExchange k (s.setSpi k ((s.spiAt k).drive line .asserted)) = D at hdraw hstate
  obtain ⟨a, s'⟩ := D
  simp only at hdraw hstate
  subst hstate
  unfold transfer spiExchange
  rw [hD, ← hdraw]
  cases a with
  | never => exact Or.inl ⟨rfl, rfl⟩
  | fault =>
    refine Or.inr (Or.inl ⟨rfl, Config.freeFrame d, rest, d + 1, ?_⟩)
    have hdrive := drive_note_drive (s.spiAt k) line ⟨form, tx, none⟩ (Config.freeFrame d) rest
    simp only [putSpi_spiAt_self s k _ _ hk, putSpi_draws, Answered.answered.injEq, true_and]
    rw [drawn_eq_putSpi _ k, putSpi_setSpi, putSpi_spiAt_self _ k _ _ (by simpa using hk), putSpi_setSpi, ← hdrive]
    simp [State.putSpi, State.setSpi]
  | ok rx =>
    refine Or.inr (Or.inr ⟨rx, rest, d, rfl, ?_⟩)
    have hdrive := drive_note_drive (s.spiAt k) line ⟨form, tx, some rx⟩ rx rest
    simp only [putSpi_spiAt_self s k _ _ hk, putSpi_setSpi, Answered.answered.injEq, true_and]
    rw [← hdrive]

/-- A finished transfer on a line of the table is one exchange on it, in the words of the claims. -/
theorem exchanged_afterTransfer {p : Spi} {device : Byte} {line : Nat} (hroute : p.route device = some line)
    (x : Exchange) (rx : SpiFrame) (rest : List ExchangeAnswer) (hrx : ∀ r, x.rx = some r → rx = r) :
    Exchanged p (p.afterTransfer line x rx rest) line x := by
  obtain ⟨e, hfind, hline⟩ := line_exists_of_route hroute
  let f : SelectLine → SelectLine := fun e => { e with level := .deasserted, log := x :: e.log }
  have hf : ∀ e, (f e).line = e.line := fun _ => rfl
  have hfd : ∀ e, (f e).device = e.device := fun _ => rfl
  have hlines : (p.afterTransfer line x rx rest).lines = (p.onLine line f).lines := rfl
  have hat : (p.afterTransfer line x rx rest).lines.find? (fun e => e.line == line) = some (f e) := by
    rw [hlines, find_onLine p line line f hf, hfind]
    simp [hline]
  have hne : ∀ l, l ≠ line → (p.afterTransfer line x rx rest).lines.find? (fun e => e.line == l) =
      p.lines.find? (fun e => e.line == l) := by
    intro l hl
    rw [hlines, find_onLine p line l f hf]
    cases h : p.lines.find? (fun e => e.line == l) with
    | none => rfl
    | some e' =>
      have : e'.line = l := by simpa using List.find?_some h
      simp [this, hl]
  refine ⟨rfl, hrx, ?_, ?_, ?_, ?_, ?_, ?_, rfl, rfl, rfl, rfl, rfl, rfl, rfl, rfl, rfl, rfl⟩
  · simp only [Spi.sel, hat]; rfl
  · simp only [Spi.exchanges, hat, hfind]; rfl
  · simp only [Spi.lastTx, Spi.exchanges, hat]; rfl
  · intro l hl
    simp only [Spi.sel, Spi.exchanges, hne l hl, and_self]
  · rw [hlines]; exact onLine_devices p line f hfd
  · rw [hlines]; exact onLine_lines p line f hf

/-! ## One register access over SPI -/

/-- What `spiPerform` can do: return an error before the transfer, or make one transfer. -/
theorem spiPerform_cases (k : Nat) (device : Byte) (form : FrameForm) (tx : SpiFrame)
    (reply : SpiFrame → ResultValue) (s : State) :
    ((s.spiAt k).configured = false ∧
      spiPerform k device form tx reply s = .returned (.err .configuration) s) ∨
    ((s.spiAt k).configured = true ∧ (s.spiAt k).route device = none ∧
      spiPerform k device form tx reply s = .returned (.err .unknownDevice) s) ∨
    (∃ line, (s.spiAt k).configured = true ∧ (s.spiAt k).route device = some line ∧
      (((drawExchange k s).1 = .never ∧ spiPerform k device form tx reply s = .stuck) ∨
      ((drawExchange k s).1 = .fault ∧ ∃ junk rest d,
        spiPerform k device form tx reply s = .returned (.err .transport)
          (s.putSpi k ((s.spiAt k).afterTransfer line ⟨form, tx, none⟩ junk rest) d)) ∨
      (∃ rx rest d, (drawExchange k s).1 = .ok rx ∧
        spiPerform k device form tx reply s = .returned (.ok (reply rx))
          (s.putSpi k ((s.spiAt k).afterTransfer line ⟨form, tx, some rx⟩ rx rest) d)))) := by
  unfold spiPerform
  cases hc : (s.spiAt k).configured with
  | false => exact Or.inl ⟨rfl, by simp⟩
  | true =>
    have hk := spi_exists_of_configured hc
    cases hr : (s.spiAt k).route device with
    | none => exact Or.inr (Or.inl ⟨rfl, rfl, by simp⟩)
    | some line =>
      refine Or.inr (Or.inr ⟨line, rfl, rfl, ?_⟩)
      rcases transfer_cases k line form tx s hk with ⟨h, ht⟩ | ⟨h, junk, rest, d, ht⟩ | ⟨rx, rest, d, h, ht⟩
      · exact Or.inl ⟨h, by simp [ht]⟩
      · exact Or.inr (Or.inl ⟨h, junk, rest, d, by simp [ht]⟩)
      · exact Or.inr (Or.inr ⟨rx, rest, d, h, by simp [ht]⟩)

end Sys2Proof.Machine
end

