-- ==== Sys2Proof/Laws/Uart.lean ====
section
/-! SUPPORT. What a UART operation can do in one sub-step, said once. -/

namespace Sys2Proof.Machine

open Sys2Proof.Safety

/-- One sub-step while sending: the object changes as `Uart.onSend` says, on the answer drawn. -/
theorem uartContinue_sending {k : Nat} {awaits : Bool} {s : State} (hop : (s.uartAt k).op = .sending) :
    ∃ rest d, uartContinue k awaits s = .next
      (s.putUart k { (s.uartAt k).onSend awaits (drawSend k s).1 with sendAnswers := rest } d) := by
  have hk : k < s.uarts.length := uart_exists_of_op (by rw [hop]; decide)
  obtain ⟨rest, d, hstate⟩ := drawSend_state k s
  refine ⟨rest, d, ?_⟩
  unfold uartContinue
  rw [hop]
  generalize drawSend k s = D at hstate
  obtain ⟨a, s'⟩ := D
  simp only at hstate ⊢
  subst hstate
  rw [putUart_uartAt_self s k _ _ hk, putUart_setUart]
  cases a <;> cases awaits <;> rfl

/-- One sub-step while receiving: the object changes as `Uart.onReceive` says, on the answer drawn. -/
theorem uartContinue_receiving {k : Nat} {s : State} (hop : (s.uartAt k).op = .awaitingResponse) :
    ∃ rest d, uartContinue k true s = .next
      (s.putUart k { (s.uartAt k).onReceive (drawReceive k s).1 with receiveAnswers := rest } d) := by
  have hk : k < s.uarts.length := uart_exists_of_op (by rw [hop]; decide)
  obtain ⟨rest, d, hstate⟩ := drawReceive_state k s
  refine ⟨rest, d, ?_⟩
  unfold uartContinue
  rw [hop]
  generalize drawReceive k s = D at hstate
  obtain ⟨a, s'⟩ := D
  simp only [↓reduceIte] at hstate ⊢
  subst hstate
  rw [putUart_uartAt_self s k _ _ hk, putUart_setUart]
  cases a with
  | proceed =>
    simp only [Uart.onReceive, Uart.takeResponse]
    split
    · split <;> rfl
    · rfl
  | fault n => rfl
  | expire n => rfl

/-- Where a terminal state stands, the result the operation returns. -/
def Uart.verdict? (u : Uart) : Option OpResult :=
  match u.op with
  | .idle => none
  | .sending => none
  | .awaitingResponse => none
  | .complete => some (.ok u.got)
  | .timedOut => some (.err .timeout)
  | .checksumError => some (.err .checksum)
  | .faulted => some (.err .transport)

/-- From a terminal state the operation returns. -/
theorem uartContinue_returns {k : Nat} {awaits : Bool} {s : State} {r : OpResult}
    (h : (s.uartAt k).verdict? = some r) :
    uartContinue k awaits s = .next ((s.setUart k { s.uartAt k with op := .idle }).received r) := by
  unfold Uart.verdict? at h
  unfold uartContinue returnFrom finish
  cases hop : (s.uartAt k).op <;> rw [hop] at h <;> simp_all

/-- Everything a UART operation of the object's one caller can do in one step. -/
theorem uartOperation_cases {k : Nat} {s : State} (howner : OwnsUart s k) (awaits : Bool) (packet : Bytes) :
    ((s.uartAt k).op = .idle ∧ (s.uartAt k).configured = false ∧
      uartOperation k awaits packet s = finish (.err .configuration) s) ∨
    ((s.uartAt k).op = .idle ∧ (s.uartAt k).configured = true ∧
      uartOperation k awaits packet s =
        .next ((s.setUart k ((s.uartAt k).dispatch packet)).setInFlight (some (.uart k)))) ∨
    ((s.uartAt k).op = .sending ∧ s.caller.inFlight = some (.uart k) ∧ ∃ rest d,
      uartOperation k awaits packet s = .next
        (s.putUart k { (s.uartAt k).onSend awaits (drawSend k s).1 with sendAnswers := rest } d)) ∨
    ((s.uartAt k).op = .awaitingResponse ∧ s.caller.inFlight = some (.uart k) ∧ awaits = true ∧ ∃ rest d,
      uartOperation k awaits packet s = .next
        (s.putUart k { (s.uartAt k).onReceive (drawReceive k s).1 with receiveAnswers := rest } d)) ∨
    (∃ r, (s.uartAt k).verdict? = some r ∧ s.caller.inFlight = some (.uart k) ∧
      uartOperation k awaits packet s = .next ((s.setUart k { s.uartAt k with op := .idle }).received r)) ∨
    ((s.uartAt k).op ≠ .idle ∧
      (s.caller.inFlight = some (.uart k) → awaits = false ∧ (s.uartAt k).op = .awaitingResponse) ∧
      uartOperation k awaits packet s = .refused .concurrentCommand) := by
  unfold uartOperation
  rw [admitCaller_of_owner howner]
  by_cases hop : (s.uartAt k).op = .idle
  · rw [if_pos hop]
    unfold uartStart
    cases hc : (s.uartAt k).configured
    · exact Or.inl ⟨hop, rfl, by simp⟩
    · exact Or.inr (Or.inl ⟨hop, rfl, by simp⟩)
  · rw [if_neg hop]
    by_cases hf : s.caller.inFlight = some (.uart k)
    · rw [if_pos hf]
      cases h : (s.uartAt k).op with
      | idle => exact absurd h hop
      | sending => exact Or.inr (Or.inr (Or.inl ⟨rfl, hf, uartContinue_sending h⟩))
      | awaitingResponse =>
        cases awaits with
        | true => exact Or.inr (Or.inr (Or.inr (Or.inl ⟨rfl, hf, rfl, uartContinue_receiving h⟩)))
        | false =>
          refine Or.inr (Or.inr (Or.inr (Or.inr (Or.inr ⟨by decide, fun _ => ⟨rfl, rfl⟩, ?_⟩))))
          simp [uartContinue, h]
      | complete =>
        have hv : (s.uartAt k).verdict? = some (.ok (s.uartAt k).got) := by simp [Uart.verdict?, h]
        exact Or.inr (Or.inr (Or.inr (Or.inr (Or.inl ⟨_, hv, hf, uartContinue_returns hv⟩))))
      | timedOut =>
        have hv : (s.uartAt k).verdict? = some (.err .timeout) := by simp [Uart.verdict?, h]
        exact Or.inr (Or.inr (Or.inr (Or.inr (Or.inl ⟨_, hv, hf, uartContinue_returns hv⟩))))
      | checksumError =>
        have hv : (s.uartAt k).verdict? = some (.err .checksum) := by simp [Uart.verdict?, h]
        exact Or.inr (Or.inr (Or.inr (Or.inr (Or.inl ⟨_, hv, hf, uartContinue_returns hv⟩))))
      | faulted =>
        have hv : (s.uartAt k).verdict? = some (.err .transport) := by simp [Uart.verdict?, h]
        exact Or.inr (Or.inr (Or.inr (Or.inr (Or.inl ⟨_, hv, hf, uartContinue_returns hv⟩))))
    · rw [if_neg hf]
      exact Or.inr (Or.inr (Or.inr (Or.inr (Or.inr ⟨hop, fun h => absurd h hf, rfl⟩))))

/-- R139: a sub-step while sending puts no new byte in front of the line. -/
theorem onSend_wire (u : Uart) (awaits : Bool) (a : SendAnswer) :
    (u.onSend awaits a).wire ++ (u.onSend awaits a).txLeft = u.wire ++ u.txLeft := by
  cases a <;> cases awaits <;> simp [Uart.onSend, Uart.drained]

/-- What receiving leaves alone. -/
theorem onReceive_line (u : Uart) (a : ReceiveAnswer) :
    (u.onReceive a).wire = u.wire ∧ (u.onReceive a).txLeft = u.txLeft ∧ (u.onReceive a).txOld = u.txOld := by
  cases a with
  | proceed =>
    simp only [Uart.onReceive, Uart.takeResponse]
    split
    · split <;> exact ⟨rfl, rfl, rfl⟩
    · exact ⟨rfl, rfl, rfl⟩
  | fault n => exact ⟨rfl, rfl, rfl⟩
  | expire n => exact ⟨rfl, rfl, rfl⟩

/-- A move of the environment changes nothing of the framer but its line queues and the record of the line. -/
theorem move_frame (u : Uart) (m : LineMove) :
    u.move m = { u with
      rxq := (u.move m).rxq, txLeft := (u.move m).txLeft, txOld := (u.move m).txOld, wire := (u.move m).wire } := by
  cases m <;> simp only [Uart.move] <;> (try split) <;> rfl

/-- An abandoned transmission that is listed has bytes left, after one of them is gone too. -/
theorem nil_not_mem_leaveOld {u : Uart} (h : [] ∉ u.txOld) (n : Nat) (bs : Bytes) : [] ∉ (u.leaveOld n bs).txOld := by
  simp only [Uart.leaveOld]
  split
  · exact fun hm => h (List.mem_of_mem_eraseIdx hm)
  · rename_i hb
    intro hm
    rcases List.mem_or_eq_of_mem_set hm with hm | hm
    · exact h hm
    · exact hb hm.symm

/-- The same at a dispatch. -/
theorem nil_not_mem_leftovers {u : Uart} (h : [] ∉ u.txOld) : [] ∉ u.leftovers := by
  unfold Uart.leftovers
  split
  · exact h
  · rename_i hb
    simpa [h] using hb

end Sys2Proof.Machine
end

