-- ==== Sys2Proof/Laws/Exec.lean ====
section
/-! SUPPORT. Which shared operation a register access is, directly or through a binding port, said once. -/

namespace Sys2Proof.Machine

open Sys2Proof.Safety

/-- A register access over SPI is one `spiAccess`, behind the register check. -/
theorem exec_accessesSpi {s : State} {i : Instr} {k : Nat} {reg device : Byte} {form : FrameForm} {tx : SpiFrame}
    (h : AccessesSpi s i k reg device form tx) :
    ∃ reply, exec i s = admitRegister reg (spiAccess k device form tx reply s) ∧
      (form = .write → reply = fun _ => .void) ∧
      (form = .read reg → reply = fun rx => .word (frameValue rx)) := by
  rcases h with ⟨value, (⟨rfl, rfl⟩ | ⟨rfl, hb⟩), rfl, rfl⟩ | ⟨(⟨rfl, rfl⟩ | ⟨rfl, hb⟩), rfl, rfl⟩
  · exact ⟨fun _ => .void, rfl, fun _ => rfl, fun h => (nomatch h)⟩
  · refine ⟨fun _ => .void, ?_, fun _ => rfl, fun h => (nomatch h)⟩
    simp only [exec, execBindWrite, hb, spiWriteOn, admitRegister]
    split <;> rfl
  · exact ⟨fun rx => .word (frameValue rx), rfl, fun h => (nomatch h), fun _ => rfl⟩
  · refine ⟨fun rx => .word (frameValue rx), ?_, fun h => (nomatch h), fun _ => rfl⟩
    simp only [exec, execBindRead, hb, spiReadOn, admitRegister]
    split <;> rfl

/-- A register access of a SPI object's one caller is the outcome of `spiPerform`. -/
theorem spiAccess_of_owner {s : State} {k : Nat} (h : OwnsSpi s k) (device : Byte) (form : FrameForm) (tx : SpiFrame)
    (reply : SpiFrame → ResultValue) :
    spiAccess k device form tx reply s =
      match spiPerform k device form tx reply s with
      | .stuck => .fault .spiExchangeUnanswered
      | .returned r s' => finish r s' := admitCaller_of_owner h _

/-- A register access over the UART is one `uartOperation`, behind the register check. -/
theorem exec_accessesUart {s : State} {i : Instr} {k : Nat} {reg : Byte} {awaits : Bool} {packet : Bytes}
    (h : AccessesUart s i k reg awaits packet) :
    exec i s = admitRegister reg (uartOperation k awaits packet s) := by
  rcases h with ⟨value, device, (⟨rfl, rfl⟩ | ⟨rfl, hb⟩), rfl, rfl⟩ | ⟨device, (⟨rfl, rfl⟩ | ⟨rfl, hb⟩), rfl, rfl⟩
  · rfl
  · simp only [exec, execBindWrite, hb, uartWriteOn, admitRegister]
    split <;> rfl
  · rfl
  · simp only [exec, execBindRead, hb, uartReadOn, admitRegister]
    split <;> rfl

end Sys2Proof.Machine
end

