-- ==== Sys2Proof/Laws/Spi.lean ====
section
/-! SUPPORT. What `spi.setup` and the double read can do, said once. -/

namespace Sys2Proof.Machine

open Sys2Proof.Safety

/-- R100, R101: the three ends of a `spi.setup` of the object's one caller. -/
theorem spiSetupOn_cases {k : Nat} {s : State} (howner : OwnsSpi s k) :
    ((s.spiAt k).handle = .unset ∧ spiSetupOn k s =
      .next ((s.setSpi k { s.spiAt k with configured := false }).received (.err .configuration))) ∨
    ((s.spiAt k).handle = .set ∧ (drawConfigure k s).1 = .accept ∧ ∃ rest d, spiSetupOn k s =
      .next ((s.putSpi k { (s.spiAt k).setUp with configureAnswers := rest } d).received (.ok .void))) ∨
    ((s.spiAt k).handle = .set ∧ (drawConfigure k s).1 = .reject ∧ ∃ rest n d, spiSetupOn k s =
      .next ((s.putSpi k { (s.spiAt k).rejected n with configureAnswers := rest } d).received
        (.err .configuration))) := by
  unfold spiSetupOn
  rw [admitCaller_of_owner howner]
  cases hh : (s.spiAt k).handle with
  | unset => exact Or.inl ⟨rfl, by rw [finish_eq]⟩
  | set =>
    have hk := spi_exists_of_handle hh
    obtain ⟨rest, d, hd⟩ := drawConfigure_state k s
    generalize drawConfigure k s = D at hd
    obtain ⟨a, s'⟩ := D
    simp only at hd
    subst hd
    refine Or.inr ?_
    cases a with
    | accept =>
      refine Or.inl ⟨rfl, rfl, rest, d, ?_⟩
      simp only [putSpi_spiAt_self s k _ _ hk, putSpi_setSpi, finish_eq]
      rfl
    | reject =>
      refine Or.inr ⟨rfl, rfl, rest, d, d + 1, ?_⟩
      simp only [putSpi_spiAt_self s k _ _ hk, finish_eq]
      rw [drawn_eq_putSpi _ k, putSpi_setSpi, putSpi_draws]
      simp only [State.putSpi, State.setSpi, List.set_set]
      rfl

/-- R95: what one step of the double read can do, by how its read ended. -/
theorem spiRead2On_eq {k : Nat} {reg device : Byte} {s s' : State} {r : OpResult} (hr : reg.toNat < 0x80)
    (howner : OwnsSpi s k)
    (h : spiPerform k device (.read reg) (spiReadFrame reg) (fun rx => .word (frameValue rx)) s = .returned r s') :
    spiRead2On k reg device s =
      if s.caller.inFlight = some .secondRead then .next (s'.received r) else afterFirstRead r s' := by
  unfold spiRead2On
  rw [admitRegister_of_lt hr, admitCaller_of_owner howner, h]
  rfl

end Sys2Proof.Machine
end

