-- ==== Sys2Proof/Laws/Moves.lean ====
section
/-! SUPPORT. Said once, everything an operation that goes on to a next state can do, so that invariants need no unfolding
of a meaning. -/

namespace Sys2Proof.Machine

open Sys2Proof.Safety

/-- How the running caller changes in an operation that is no UART sub-step: it receives a result, or it is `spi.read2`,
whose first read binds `_discard` and either ends it or leaves it halfway. -/
def CallerMoves (i : Instr) (s : State) (c : Caller) : Prop :=
  (∃ r, c = s.caller.receive r) ∨ (∃ r, c = (s.caller.bindResult (some discardName) r).receive r) ∨
    ((∃ reg device, i = .spiRead2 reg device) ∧ s.caller.inFlight ≠ some .secondRead ∧ OwnsSpi s s.caller.spi ∧
      ∃ r, c = s.caller.halfway r)

/-- How an SPI object changes: by `spi.setup`, in its three outcomes, or by one transfer on a line of the table of a
configured transceiver. -/
def SpiMoves (i : Instr) (p q : Spi) : Prop :=
  (i = .spiSetup ∧
    ((p.handle = .unset ∧ q = { p with configured := false }) ∨
      (p.handle = .set ∧ ∃ rest, q = { p.setUp with configureAnswers := rest }) ∨
      (p.handle = .set ∧ ∃ n rest, q = { p.rejected n with configureAnswers := rest }))) ∨
    (i ≠ .spiSetup ∧ p.configured = true ∧ ∃ device line x rx rest, p.route device = some line ∧
      q = p.afterTransfer line x rx rest)

/-- How a UART object changes in a sub-step of a register access, with the caller's new place in its command. -/
def UartMoves (k : Nat) (c : Caller) (u : Uart) (c' : Caller) (u' : Uart) : Prop :=
  (u.op = .idle ∧ u.configured = true ∧ c' = { c with inFlight := some (.uart k) } ∧
    ∃ packet, u' = u.dispatch packet) ∨
    (u.op = .sending ∧ c.inFlight = some (.uart k) ∧ c' = c ∧
      ∃ awaits a rest, u' = { u.onSend awaits a with sendAnswers := rest }) ∨
    (u.op = .awaitingResponse ∧ c.inFlight = some (.uart k) ∧ c' = c ∧
      ∃ a rest, u' = { u.onReceive a with receiveAnswers := rest }) ∨
    (∃ r, u.verdict? = some r ∧ c.inFlight = some (.uart k) ∧ c' = c.receive r ∧ u' = { u with op := .idle })

/-- Everything an operation can do that ends in a next state: change nothing but the caller; move one SPI object; set up a
UART object that is idle; or make one sub-step of the UART object its command reaches; each of an object whose one caller
runs it. -/
def Moves (i : Instr) (s t : State) : Prop :=
  ((∀ k, uartTarget s.caller i = some k → (s.uartAt k).op = .idle) ∧
    ∃ c, CallerMoves i s c ∧ t = { s with caller := c }) ∨
  (uartTarget s.caller i = none ∧
    ∃ k p d c, OwnsSpi s k ∧ CallerMoves i s c ∧ SpiMoves i (s.spiAt k) p ∧ t = { s.putSpi k p d with caller := c }) ∨
  (i = .uartSetup ∧ ∃ k u r, OwnsUart s k ∧ (s.uartAt k).op = .idle ∧
    (((s.uartAt k).handle = .unset ∧ u = { s.uartAt k with configured := false }) ∨
      ((s.uartAt k).handle = .set ∧ u = (s.uartAt k).setUp)) ∧
    t = (s.setUart k u).received r) ∨
  (i ≠ .uartSetup ∧ ∃ k c u d, OwnsUart s k ∧ uartTarget s.caller i = some k ∧ UartMoves k s.caller (s.uartAt k) c u ∧
    t = { s.putUart k u d with caller := c })

theorem moves_received {i : Instr} {s : State} (h : ∀ k, uartTarget s.caller i = some k → (s.uartAt k).op = .idle)
    (r : OpResult) : Moves i s (s.received r) :=
  Or.inl ⟨h, _, Or.inl ⟨r, rfl⟩, rfl⟩

theorem moves_of_conversion {i : Instr} {s t : State} (hi : uartTarget s.caller i = none)
    {go : Host.Outcome State Fault Refusal} (h : withContext s go = .next t)
    (hgo : go = .next t → ∃ r, t = s.received r) : Moves i s t := by
  unfold withContext at h
  split at h
  · obtain ⟨r, rfl⟩ := hgo h
    exact moves_received (by simp [hi]) r
  · cases h

/-- What the one shared SPI access can do, to a caller change `mk` that depends on its result. -/
theorem moves_of_perform {i : Instr} {s s' : State} {k : Nat} {device : Byte} {form : FrameForm} {tx : SpiFrame}
    {reply : SpiFrame → ResultValue} {r : OpResult} (hi : uartTarget s.caller i = none) (hne : i ≠ .spiSetup)
    (ho : OwnsSpi s k)
    (hp : spiPerform k device form tx reply s = .returned r s') (c : Caller) (hc : CallerMoves i s c) :
    Moves i s { s' with caller := c } := by
  rcases spiPerform_cases k device form tx reply s with ⟨_, h⟩ | ⟨_, _, h⟩ | ⟨line, hcf, hrt, hcase⟩
  · rw [h] at hp
    cases hp
    exact Or.inl ⟨by simp [hi], c, hc, rfl⟩
  · rw [h] at hp
    cases hp
    exact Or.inl ⟨by simp [hi], c, hc, rfl⟩
  · rcases hcase with ⟨_, h⟩ | ⟨_, junk, rest, d, h⟩ | ⟨rx, rest, d, _, h⟩
    · rw [h] at hp
      cases hp
    · rw [h] at hp
      cases hp
      exact Or.inr (Or.inl ⟨hi, k, _, d, c, ho, hc, Or.inr ⟨hne, hcf, device, line, _, _, _, hrt, rfl⟩, rfl⟩)
    · rw [h] at hp
      cases hp
      exact Or.inr (Or.inl ⟨hi, k, _, d, c, ho, hc, Or.inr ⟨hne, hcf, device, line, _, _, _, hrt, rfl⟩, rfl⟩)

theorem perform_caller {k : Nat} {device : Byte} {form : FrameForm} {tx : SpiFrame}
    {reply : SpiFrame → ResultValue} {s s' : State} {r : OpResult}
    (hp : spiPerform k device form tx reply s = .returned r s') : s'.caller = s.caller := by
  rcases spiPerform_cases k device form tx reply s with ⟨_, h⟩ | ⟨_, _, h⟩ | ⟨line, _, _, hcase⟩
  · rw [h] at hp
    cases hp
    rfl
  · rw [h] at hp
    cases hp
    rfl
  · rcases hcase with ⟨_, h⟩ | ⟨_, junk, rest, d, h⟩ | ⟨rx, rest, d, _, h⟩ <;> rw [h] at hp <;> cases hp <;> rfl

theorem moves_of_spiAccess {i : Instr} {s t : State} {k : Nat} {device : Byte} {form : FrameForm} {tx : SpiFrame}
    {reply : SpiFrame → ResultValue} (hi : uartTarget s.caller i = none) (hne : i ≠ .spiSetup)
    (h : spiAccess k device form tx reply s = .next t) : Moves i s t := by
  obtain ⟨ho, h⟩ := admitCaller_next h
  cases hp : spiPerform k device form tx reply s with
  | stuck =>
    rw [hp] at h
    cases h
  | returned r s' =>
    rw [hp] at h
    rw [finish_next h]
    have := moves_of_perform hi hne ho hp _ (Or.inl ⟨r, rfl⟩)
    rwa [← perform_caller hp] at this

theorem moves_of_uartOperation {i : Instr} {s t : State} {k : Nat} {awaits : Bool} {packet : Bytes}
    (hi : uartTarget s.caller i = some k) (hne : i ≠ .uartSetup) (h : uartOperation k awaits packet s = .next t) :
    Moves i s t := by
  have ho := (admitCaller_next h).1
  rcases uartOperation_cases ho awaits packet with ⟨hop, _, e⟩ | ⟨hop, hcf, e⟩ | ⟨hop, hf, rest, d, e⟩ |
    ⟨hop, hf, _, rest, d, e⟩ | ⟨r, hv, hf, e⟩ | ⟨_, _, e⟩ <;> rw [e] at h
  · rw [finish_next h]
    refine moves_received (fun j hj => ?_) _
    rw [hi] at hj
    cases hj
    exact hop
  · cases h
    exact Or.inr (Or.inr (Or.inr ⟨hne, k, _, _, s.draws, ho, hi, Or.inl ⟨hop, hcf, rfl, _, rfl⟩, rfl⟩))
  · cases h
    exact Or.inr (Or.inr (Or.inr ⟨hne, k, _, _, d, ho, hi, Or.inr (Or.inl ⟨hop, hf, rfl, _, _, _, rfl⟩), rfl⟩))
  · cases h
    exact Or.inr (Or.inr (Or.inr ⟨hne, k, _, _, d, ho, hi, Or.inr (Or.inr (Or.inl ⟨hop, hf, rfl, _, _, rfl⟩)), rfl⟩))
  · cases h
    exact Or.inr (Or.inr (Or.inr ⟨hne, k, _, _, s.draws, ho, hi, Or.inr (Or.inr (Or.inr ⟨r, hv, hf, rfl, rfl⟩)), rfl⟩))
  · cases h

theorem moves_of_spiRead2 {s t : State} {reg device : Byte}
    (h : exec (.spiRead2 reg device) s = .next t) : Moves (.spiRead2 reg device) s t := by
  obtain ⟨_, h⟩ := admitRegister_next (show admitRegister reg _ = .next t from h)
  obtain ⟨ho, h⟩ := admitCaller_next h
  cases hp : spiPerform s.caller.spi device (.read reg) (spiReadFrame reg) (fun rx => .word (frameValue rx)) s with
  | stuck =>
    rw [hp] at h
    cases h
  | returned r s' =>
    rw [hp] at h
    have hc := perform_caller hp
    simp only at h
    split at h
    · rw [finish_next h]
      have := moves_of_perform (i := .spiRead2 reg device) rfl (by simp) ho hp _ (Or.inl ⟨r, rfl⟩)
      rwa [← hc] at this
    · rename_i hf
      unfold afterFirstRead at h
      cases r with
      | err e =>
        rw [finish_next h]
        have := moves_of_perform (i := .spiRead2 reg device) rfl (by simp) ho hp _ (Or.inr (Or.inl ⟨.err e, rfl⟩))
        rwa [← hc] at this
      | ok v =>
        cases h
        have := moves_of_perform (i := .spiRead2 reg device) rfl (by simp) ho hp _
          (Or.inr (Or.inr ⟨⟨_, _, rfl⟩, hf, ho, .ok v, rfl⟩))
        rwa [← hc] at this

/-- Everything an operation can do that ends in a next state. -/
theorem exec_moves {i : Instr} {s t : State} (h : exec i s = .next t) : Moves i s t := by
  cases i with
  | spiSetup =>
    have howner := (admitCaller_next (show admitCaller _ s _ = .next t from h)).1
    rcases spiSetupOn_cases howner with ⟨hh, e⟩ | ⟨hh, _, rest, d, e⟩ | ⟨hh, _, rest, n, d, e⟩ <;>
      rw [show exec .spiSetup s = spiSetupOn s.caller.spi s from rfl, e] at h <;> cases h
    · exact Or.inr (Or.inl ⟨rfl, _, _, s.draws, _, howner, Or.inl ⟨_, rfl⟩, Or.inl ⟨rfl, Or.inl ⟨hh, rfl⟩⟩, rfl⟩)
    · exact Or.inr (Or.inl ⟨rfl, _, _, d, _, howner, Or.inl ⟨_, rfl⟩, Or.inl ⟨rfl, Or.inr (Or.inl ⟨hh, rest, rfl⟩)⟩, rfl⟩)
    · exact Or.inr (Or.inl ⟨rfl, _, _, d, _, howner, Or.inl ⟨_, rfl⟩, Or.inl ⟨rfl, Or.inr (Or.inr ⟨hh, n, rest, rfl⟩)⟩, rfl⟩)
  | spiWrite reg v dev =>
    exact moves_of_spiAccess rfl (by simp) (admitRegister_next (show admitRegister reg _ = .next t from h)).2
  | spiRead reg dev =>
    exact moves_of_spiAccess rfl (by simp) (admitRegister_next (show admitRegister reg _ = .next t from h)).2
  | uartSetup =>
    change uartSetupOn s.caller.uart s = .next t at h
    obtain ⟨ho, h⟩ := admitCaller_next h
    split at h
    · rename_i hop
      cases hh : (s.uartAt s.caller.uart).handle <;> rw [hh] at h <;> rw [finish_next h]
      · exact Or.inr (Or.inr (Or.inl ⟨rfl, _, _, _, ho, hop, Or.inl ⟨hh, rfl⟩, rfl⟩))
      · exact Or.inr (Or.inr (Or.inl ⟨rfl, _, _, _, ho, hop, Or.inr ⟨hh, rfl⟩, rfl⟩))
    · cases h
  | uartWrite reg v dev =>
    exact moves_of_uartOperation rfl (by simp) (admitRegister_next (show admitRegister reg _ = .next t from h)).2
  | uartRead reg dev =>
    exact moves_of_uartOperation rfl (by simp) (admitRegister_next (show admitRegister reg _ = .next t from h)).2
  | bindWrite reg v =>
    obtain ⟨_, h⟩ := admitRegister_next (show admitRegister reg _ = .next t from h)
    cases hb : s.caller.bind.transport with
    | none =>
      rw [hb] at h
      rw [finish_next h]
      exact moves_received (by simp [uartTarget, hb]) _
    | some ref =>
      rw [hb] at h
      cases ref with
      | spi k => exact moves_of_spiAccess (by simp [uartTarget, hb]) (by simp) (admitRegister_next h).2
      | uart k => exact moves_of_uartOperation (by simp [uartTarget, hb]) (by simp) (admitRegister_next h).2
  | bindRead reg =>
    obtain ⟨_, h⟩ := admitRegister_next (show admitRegister reg _ = .next t from h)
    cases hb : s.caller.bind.transport with
    | none =>
      rw [hb] at h
      rw [finish_next h]
      exact moves_received (by simp [uartTarget, hb]) _
    | some ref =>
      rw [hb] at h
      cases ref with
      | spi k => exact moves_of_spiAccess (by simp [uartTarget, hb]) (by simp) (admitRegister_next h).2
      | uart k => exact moves_of_uartOperation (by simp [uartTarget, hb]) (by simp) (admitRegister_next h).2
  | convSpeedToHz x => exact moves_of_conversion rfl h fun h => ⟨_, finish_next h⟩
  | convSpeedFromHz x =>
    refine moves_of_conversion rfl h fun h => ?_
    split at h
    · cases h
    · exact ⟨_, finish_next h⟩
  | convAccelFromHz a =>
    refine moves_of_conversion rfl h fun h => ?_
    split at h
    · cases h
    · exact ⟨_, finish_next h⟩
  | convThresholdSpeedToTstep x =>
    refine moves_of_conversion rfl h fun h => ?_
    split at h
    · exact ⟨_, finish_next h⟩
    · exact ⟨_, finish_next h⟩
  | spiRead2 reg dev => exact moves_of_spiRead2 h

end Sys2Proof.Machine
end

