-- ==== Sys2Proof/Laws/PerInstr.lean ====
section
/-! SUPPORT. Lemmas that hold of every operation, one for each. -/

namespace Sys2Proof.Laws.OperandWords

/-- The words an operation is written with (R90) are words: none is empty, and none holds a blank. -/
def Statement (i : Instr) : Prop := ∀ w ∈ i.mnemonic.text :: operandTokens i, IsWord w

theorem spiSetup : Statement .spiSetup := by
  rintro w hw
  obtain rfl : w = _ := by simpa [operandTokens] using hw
  exact isWord_mnemonic _

theorem uartSetup : Statement .uartSetup := by
  rintro w hw
  obtain rfl : w = _ := by simpa [operandTokens] using hw
  exact isWord_mnemonic _

theorem spiWrite (r : Byte) (v : Value) (d : Byte) : Statement (.spiWrite r v d) := by
  simp only [Statement, operandTokens, List.forall_mem_cons]
  exact ⟨isWord_mnemonic _, isWord_hex (by decide) (by decide) _ _, isWord_hex (by decide) (by decide) _ _,
    isWord_hex (by decide) (by decide) _ _,
    by simp⟩

theorem uartWrite (r : Byte) (v : Value) (d : Byte) : Statement (.uartWrite r v d) := by
  simp only [Statement, operandTokens, List.forall_mem_cons]
  exact ⟨isWord_mnemonic _, isWord_hex (by decide) (by decide) _ _, isWord_hex (by decide) (by decide) _ _,
    isWord_hex (by decide) (by decide) _ _,
    by simp⟩

theorem spiRead (r d : Byte) : Statement (.spiRead r d) := by
  simp only [Statement, operandTokens, List.forall_mem_cons]
  exact ⟨isWord_mnemonic _, isWord_hex (by decide) (by decide) _ _, isWord_hex (by decide) (by decide) _ _,
    by simp⟩

theorem uartRead (r d : Byte) : Statement (.uartRead r d) := by
  simp only [Statement, operandTokens, List.forall_mem_cons]
  exact ⟨isWord_mnemonic _, isWord_hex (by decide) (by decide) _ _, isWord_hex (by decide) (by decide) _ _,
    by simp⟩

theorem spiRead2 (r d : Byte) : Statement (.spiRead2 r d) := by
  simp only [Statement, operandTokens, List.forall_mem_cons]
  exact ⟨isWord_mnemonic _, isWord_hex (by decide) (by decide) _ _, isWord_hex (by decide) (by decide) _ _,
    by simp⟩

theorem bindWrite (r : Byte) (v : Value) : Statement (.bindWrite r v) := by
  simp only [Statement, operandTokens, List.forall_mem_cons]
  exact ⟨isWord_mnemonic _, isWord_hex (by decide) (by decide) _ _, isWord_hex (by decide) (by decide) _ _,
    by simp⟩

theorem bindRead (r : Byte) : Statement (.bindRead r) := by
  simp only [Statement, operandTokens, List.forall_mem_cons]
  exact ⟨isWord_mnemonic _, isWord_hex (by decide) (by decide) _ _,
    by simp⟩

theorem convSpeedToHz (x : Value) : Statement (.convSpeedToHz x) := by
  simp only [Statement, operandTokens, List.forall_mem_cons]
  exact ⟨isWord_mnemonic _, isWord_key (by decide) (by decide) (blank_not_mem_decimalText _),
    by simp⟩

theorem convSpeedFromHz (h : Rat) : Statement (.convSpeedFromHz h) := by
  simp only [Statement, operandTokens, List.forall_mem_cons]
  exact ⟨isWord_mnemonic _, isWord_key (by decide) (by decide) (blank_not_mem_ratText _),
    by simp⟩

theorem convAccelFromHz (a : Rat) : Statement (.convAccelFromHz a) := by
  simp only [Statement, operandTokens, List.forall_mem_cons]
  exact ⟨isWord_mnemonic _, isWord_key (by decide) (by decide) (blank_not_mem_ratText _),
    by simp⟩

theorem convThresholdSpeedToTstep (t : Rat) : Statement (.convThresholdSpeedToTstep t) := by
  simp only [Statement, operandTokens, List.forall_mem_cons]
  exact ⟨isWord_mnemonic _, isWord_key (by decide) (by decide) (blank_not_mem_ratText _),
    by simp⟩

end Sys2Proof.Laws.OperandWords
end

