-- ==== Sys2Proof/Laws/Step.lean ====
section
/-! SUPPORT. What a step that goes on to a next state can do, said once. -/

namespace Sys2Proof.Machine

/-- The running caller's turn runs the command of the line it stands at. -/
theorem runCaller_next {s t : State} (h : runCaller s = .next t) :
    ∃ line c, s.caller.program[s.caller.line]? = some line ∧ decode line = .ok c ∧
      exec c.op { s with caller := { s.caller with dest := c.name } } = .next t := by
  unfold runCaller fetchLine at h
  cases hl : s.caller.program[s.caller.line]? with
  | none =>
    rw [hl] at h
    cases h
  | some line =>
    simp only [hl] at h
    cases hd : decode line with
    | error e =>
      rw [hd] at h
      cases h
    | ok c =>
      rw [hd] at h
      exact ⟨line, c, rfl, hd, h⟩

/-- Every step is one turn, taken with some of the schedule and the count of free values replaced: the running caller's
command, a move of the environment's on a UART line, or another caller's becoming the running one. -/
theorem step_cases {s t : State} (h : step s = .next t) :
    ∃ rest d, runCaller { s with schedule := rest, draws := d } = .next t ∨
      (∃ k m, t = lineMove k m { s with schedule := rest, draws := d }) ∨
      ∃ j, t = switchTo j { s with schedule := rest, draws := d } := by
  have turn : ∀ (x : Turn) (u : State), takeTurn x u = .next t →
      runCaller u = .next t ∨ (∃ k m, t = lineMove k m u) ∨ ∃ j, t = switchTo j u := by
    intro x u hx
    cases x with
    | run => exact Or.inl hx
    | line k m =>
      cases hx
      exact Or.inr (Or.inl ⟨k, m, rfl⟩)
    | switch j =>
      cases hx
      exact Or.inr (Or.inr ⟨j, rfl⟩)
  unfold step at h
  cases hs : s.schedule with
  | nil =>
    rw [hs] at h
    exact ⟨s.schedule, s.draws + 1, turn _ _ h⟩
  | cons x rest =>
    rw [hs] at h
    exact ⟨rest, s.draws, turn _ _ h⟩

end Sys2Proof.Machine
end

