-- ==== Sys2Proof/Tests/Slice0.lean ====
section
/-! SUPPORT. Tests whose expected results are the spec's (95_test_vectors.md, the examples of the rules), each on one small
state, and for every statement with hypotheses a state and operands that meet them. -/

namespace Sys2Proof.Tests

open Sys2Proof.Machine Sys2Proof.Safety

/-! ## Small states -/

/-- `SELECT_TABLE = {0x00 -> L0, 0x01 -> L1}` (95_test_vectors.md 2.1). -/
def twoLines : List SelectLine := [⟨0x00, 0, .deasserted, []⟩, ⟨0x01, 1, .deasserted, []⟩]

/-- A transceiver after its setup. -/
def spiReady (answers : List ExchangeAnswer) : Spi :=
  { Spi.constructed.setUp with lines := twoLines, exchangeAnswers := answers }

/-- A framer after its setup. -/
def uartReady (op : UartOp) (rxq : Bytes) (sends : List SendAnswer) (receives : List ReceiveAnswer) : Uart :=
  { Uart.constructed.setUp with op := op, rxq := rxq, sendAnswers := sends, receiveAnswers := receives }

def idleUart : Uart := uartReady .idle [] [] []

/-- One transceiver, one framer, one caller with a port to the given transport, at ctx12. -/
def machine (p : Spi) (u : Uart) (port : BindPort) : State :=
  { State.reset with spis := [p], uarts := [u], caller := { Caller.constructed with bind := port } }

def spiPort : BindPort := ⟨some (.spi 0), 0x00⟩

def uartPort : BindPort := ⟨some (.uart 0), 0x02⟩

/-- A state for the SPI operations. -/
def onSpi (answers : List ExchangeAnswer) : State := machine (spiReady answers) idleUart spiPort

/-- A state for the UART operations; the caller is in the middle of one where the framer is. -/
def onUart (op : UartOp) (rxq : Bytes) (sends : List SendAnswer) (receives : List ReceiveAnswer) : State :=
  (machine (spiReady []) (uartReady op rxq sends receives) uartPort).setInFlight
    (if op = .idle then none else some (.uart 0))

/-- A caller with another context. -/
def withCtx (clockHz microsteps : Rat) : State :=
  { onSpi [] with caller := { Caller.constructed with ctx := ⟨clockHz, microsteps, 0, 0⟩ } }

/-- The state after, or the state before where there is none. -/
def after (s : State) : Host.Outcome State Fault Refusal → State
  | .next t => t
  | _ => s

/-- The results after an operation; none where it stopped. -/
def results : Host.Outcome State Fault Refusal → Option (List OpResult)
  | .next t => some t.caller.results
  | _ => none

def refusal : Host.Outcome State Fault Refusal → Option Refusal
  | .refused w => some w
  | _ => none

def rx1234 : SpiFrame := ⟨0x5A, 0x12, 0x34, 0x56, 0x78⟩

/-! ## Well-formedness: one ill-formed term for each check -/

/-- R72: the register range. -/
theorem test_wellFormed_register : (Instr.wellFormed (.spiRead 0x7F 0) && !Instr.wellFormed (.spiRead 0x80 0)) = true := by
  decide

/-- R72: the register range of the double read and of a port. -/
theorem test_wellFormed_register_bind :
    (Instr.wellFormed (.bindWrite 0xFF 1) || Instr.wellFormed (.spiRead2 0x80 0)) = false := by decide

/-- R90: an operation that returns no value binds no name. -/
theorem test_wellFormed_no_name : Command.wellFormed ⟨.spiSetup, some (ascii "a")⟩ = false := by decide

/-- A name holds no blank and is not empty. -/
theorem test_wellFormed_name :
    (Command.wellFormed ⟨.bindRead 0x21, some (ascii "a b")⟩ || Command.wellFormed ⟨.bindRead 0x21, some []⟩) = false := by
  decide

/-- A well-formed line passes. -/
theorem test_wellFormed_accepts : Command.wellFormed ⟨.uartRead 0x6F 0xFF, some (ascii "c")⟩ = true := by decide

/-! ## Decoding: a line of R90's form for every operation -/

theorem test_decode_spiSetup : decode (ascii "spi.setup") = .ok ⟨.spiSetup, none⟩ := by decide

theorem test_decode_spiWrite :
    decode (ascii "spi.write  reg=0x24 val=0xDEADBEEF dev=0x01") = .ok ⟨.spiWrite 0x24 0xDEADBEEF 0x01, none⟩ := by
  decide

/-- 95_test_vectors.md V10 writes a value in decimal. -/
theorem test_decode_spiWrite_decimal :
    decode (ascii "spi.write reg=0x21 val=1 dev=0x00") = .ok ⟨.spiWrite 0x21 1 0x00, none⟩ := by decide

theorem test_decode_spiRead :
    decode (ascii "spi.read   reg=0x6F dev=0x02            -> e") = .ok ⟨.spiRead 0x6F 0x02, some (ascii "e")⟩ := by
  decide

theorem test_decode_uartSetup : decode (ascii "uart.setup") = .ok ⟨.uartSetup, none⟩ := by decide

theorem test_decode_uartWrite :
    decode (ascii "uart.write reg=0x6C val=0x000100C3 dev=0x03") = .ok ⟨.uartWrite 0x6C 0x000100C3 0x03, none⟩ := by
  decide

theorem test_decode_uartRead :
    decode (ascii "uart.read  reg=0x21 dev=0xFF            -> b") = .ok ⟨.uartRead 0x21 0xFF, some (ascii "b")⟩ := by
  decide

theorem test_decode_bindWrite :
    decode (ascii "bind.write reg=0x13 val=0x00004189") = .ok ⟨.bindWrite 0x13 0x00004189, none⟩ := by decide

theorem test_decode_bindRead :
    decode (ascii "bind.read  reg=0x00                       -> x") = .ok ⟨.bindRead 0x00, some (ascii "x")⟩ := by decide

theorem test_decode_convSpeedToHz :
    decode (ascii "conv.speedToHz   x=4294967295 -> h") = .ok ⟨.convSpeedToHz 4294967295, some (ascii "h")⟩ := by decide

theorem test_decode_convSpeedFromHz :
    decode (ascii "conv.speedFromHz hz=1/2 -> v") = .ok ⟨.convSpeedFromHz (1 / 2), some (ascii "v")⟩ := by
  decide +kernel

theorem test_decode_convAccelFromHz :
    decode (ascii "conv.accelFromHz a=-1/4 -> am") = .ok ⟨.convAccelFromHz (-1 / 4), some (ascii "am")⟩ := by
  decide +kernel

theorem test_decode_convThresholdSpeedToTstep :
    decode (ascii "conv.thresholdSpeedToTstep t=16777216/1048575 -> ts") =
      .ok ⟨.convThresholdSpeedToTstep (16777216 / 1048575), some (ascii "ts")⟩ := by decide +kernel

theorem test_decode_spiRead2 :
    decode (ascii "spi.read2 reg=0x21 dev=0x00 -> n") = .ok ⟨.spiRead2 0x21 0x00, some (ascii "n")⟩ := by decide

/-- R14: an operand that does not fit is no command. -/
theorem test_decode_range : decode (ascii "spi.read reg=0x100 dev=0x00") = .error .operandRange := by decide

/-! ## Frames as numbers: words written out from R73, R76 and R77 -/

/-- R73: `21 00 00 10 00`. -/
theorem test_word_spiWrite : decodeTableWord 40 0x2100001000 = some (.spiWrite 0x21 0x00001000 0x00) := by decide

/-- R73, `SPI_WRITE_FLAG` = 0x80: `A1 00 00 10 00`. -/
theorem test_word_spiWrite_flag80 : decodeTableWord 40 0xA100001000 = some (.spiWrite 0x21 0x00001000 0x00) := by decide

/-- R73: `6F 00 00 00 00`. -/
theorem test_word_spiRead : decodeTableWord 40 0x6F00000000 = some (.spiRead 0x6F 0x00) := by decide

/-- U5: `05 03 EC 00 01 00 C3 28`. -/
theorem test_word_uartWrite : decodeTableWord 64 0x0503EC000100C328 = some (.uartWrite 0x6C 0x000100C3 0x03) := by decide

/-- U9: `05 01 6F 6B`. -/
theorem test_word_uartRead : decodeTableWord 32 0x05016F6B = some (.uartRead 0x6F 0x01) := by decide

/-- R84: a first byte that is not 0x05 is no UART frame. -/
theorem test_word_refused : decodeTableWord 32 0x06016F6B = none := by decide

/-- The step after `withFetchWord` runs the word's operation: before a setup, `ConfigurationError` (V11). -/
theorem test_withFetchWord :
    results (step (State.reset.withFetchWord 40 0x6F00000000)) = some [.err .configuration] := by decide

/-! ## SPI (95_test_vectors.md 2.1) -/

/-- R100's example. -/
theorem test_spiSetup :
    let p := (after State.reset (exec .spiSetup (machine { Spi.constructed with
      lines := [⟨0x00, 0, .asserted, []⟩, ⟨0x01, 1, .asserted, []⟩], configureAnswers := [.accept] } idleUart spiPort))).spiAt 0
    p.configured = true ∧ p.sel 0 = some .deasserted ∧ p.sel 1 = some .deasserted ∧ p.cpol = 1 ∧ p.cpha = 1 := by
  decide

/-- V13. -/
theorem test_spiSetup_unset :
    let t := after State.reset (exec .spiSetup (machine { spiReady [] with handle := .unset } idleUart spiPort))
    t.caller.results = [.err .configuration] ∧ (t.spiAt 0).configured = false := by decide

/-- V4, with the byte order of `be32`. -/
theorem test_spiWrite :
    let t := after State.reset (exec (.spiWrite 0x24 0xDEADBEEF 0x00) (onSpi [.ok rx1234]))
    t.caller.results = [.ok .void] ∧ (t.spiAt 0).lastTx 0 = some ⟨0x24, 0xDE, 0xAD, 0xBE, 0xEF⟩ ∧
      (t.spiAt 0).lastTx 1 = none := by decide

/-- V10. -/
theorem test_spiWrite_fault :
    let t := after State.reset (exec (.spiWrite 0x21 1 0x00) (onSpi [.fault]))
    t.caller.results = [.err .transport] ∧ (t.spiAt 0).sel 0 = some .deasserted ∧
      (t.spiAt 0).lastTx 0 = some ⟨0x21, 0, 0, 0, 1⟩ := by decide

/-- V5. -/
theorem test_spiRead :
    let t := after State.reset (exec (.spiRead 0x6F 0x00) (onSpi [.ok rx1234]))
    t.caller.results = [.ok (.word 0x12345678)] ∧ (t.spiAt 0).lastTx 0 = some ⟨0x6F, 0, 0, 0, 0⟩ := by decide

/-- V9. -/
theorem test_spiRead_unknown : results (exec (.spiRead 0x21 0x02) (onSpi [.ok rx1234])) = some [.err .unknownDevice] := by
  decide

/-- R95: the first read is a command of its own; its result is bound to `_discard`, and the second follows. -/
theorem test_spiRead2_first :
    let t := after State.reset (exec (.spiRead2 0x6F 0x00) (onSpi [.ok rx1234]))
    t.caller.results = [.ok (.word 0x12345678)] ∧ t.caller.cmd = 1 ∧
      t.caller.bindings = [(ascii "_discard", .ok (.word 0x12345678))] ∧ t.caller.inFlight = some .secondRead := by decide

/-- P-b: the second read's value is the second result, and R21: the two commands have advanced `cmd` by 2. -/
theorem test_spiRead2_second :
    let t := after State.reset (exec (.spiRead2 0x6F 0x00) (onSpi [.ok ⟨0, 0, 0, 0, 1⟩, .ok rx1234]))
    let u := after State.reset (exec (.spiRead2 0x6F 0x00) t)
    u.caller.results = [.ok (.word 1), .ok (.word 0x12345678)] ∧ u.caller.cmd = 2 ∧ u.caller.inFlight = none := by decide

/-- R213: between the two reads, another caller's exchange on the same transceiver is refused. -/
theorem test_second_caller :
    let t := after State.reset (exec (.spiRead2 0x6F 0x00) (onSpi [.ok rx1234, .ok rx1234]))
    refusal (exec (.spiRead 0x21 0x00) (switchTo 0 { t with waiting := [{ Caller.constructed with id := 1 }] })) =
      some .secondCaller := by decide

/-! ## UART (95_test_vectors.md 2.2) -/

/-- R130's example. -/
theorem test_uartSetup :
    let u := (after State.reset (exec .uartSetup State.reset)).uartAt 0
    u.configured = true ∧ u.baud = 115200 ∧ u.dataBits = 8 ∧ u.parity = .none ∧ u.stopBits = 1 := by decide

/-- R130: an unset handle. -/
theorem test_uartSetup_unset :
    let t := after State.reset (exec .uartSetup (machine (spiReady []) { idleUart with handle := .unset } spiPort))
    t.caller.results = [.err .configuration] ∧ (t.uartAt 0).configured = false := by decide

/-- U5: the packet dispatched. -/
theorem test_uartWrite :
    let t := after State.reset (exec (.uartWrite 0x6C 0x000100C3 0x03) (onUart .idle [] [] []))
    (t.uartAt 0).op = .sending ∧ (t.uartAt 0).txLeft = [0x05, 0x03, 0xEC, 0x00, 0x01, 0x00, 0xC3, 0x28] := by decide

/-- D19: a write completes without awaiting a response. -/
theorem test_uartWrite_done :
    ((after State.reset (exec (.uartWrite 0x6C 0x000100C3 0x03) (onUart .sending [] [.done] []))).uartAt 0).op = .complete := by
  decide

/-- U13, with a byte of a later response behind it. -/
theorem test_uartRead :
    let u := (after State.reset (exec (.uartRead 0x21 0x00)
      (onUart .awaitingResponse [0x05, 0xFF, 0x21, 0x00, 0x00, 0x10, 0x00, 0xCB, 0x05] [] [.proceed]))).uartAt 0
    u.op = .complete ∧ u.got = .word 0x00001000 ∧ u.rxq = [0x05] := by decide

/-- U14. -/
theorem test_uartRead_checksum :
    ((after State.reset (exec (.uartRead 0x21 0x00)
      (onUart .awaitingResponse [0x05, 0xFF, 0x21, 0x00, 0x00, 0x10, 0x00, 0xCA] [] [.proceed]))).uartAt 0).op =
      .checksumError := by decide

/-! ## The binding port (95_test_vectors.md 2.4) -/

/-- B3. -/
theorem test_bindWrite_spi :
    let t := after State.reset (exec (.bindWrite 0x27 0x00000577) (onSpi [.ok rx1234]))
    t.caller.results = [.ok .void] ∧ (t.spiAt 0).lastTx 0 = some ⟨0x27, 0x00, 0x00, 0x05, 0x77⟩ := by decide

/-- B4. -/
theorem test_bindWrite_uart :
    ((after State.reset (exec (.bindWrite 0x21 0x00001000) (onUart .idle [] [] []))).uartAt 0).txLeft =
      [0x05, 0x02, 0xA1, 0x00, 0x00, 0x10, 0x00, 0xB6] := by decide

/-- B2. -/
theorem test_bindRead_unbound :
    results (exec (.bindRead 0x21) (machine (spiReady []) idleUart ⟨none, 0x00⟩)) = some [.err .configuration] := by decide

/-- B5. -/
theorem test_bindRead_unknown :
    results (exec (.bindRead 0x00) (machine (spiReady []) idleUart ⟨some (.spi 0), 0x09⟩)) = some [.err .unknownDevice] := by
  decide

/-! ## Conversions (95_test_vectors.md 2.3) -/

/-- C5. -/
theorem test_convSpeedToHz_limit :
    results (exec (.convSpeedToHz 715828) (onSpi [])) = some [.ok (.hertz (8388609375 / 16384))] := by decide +kernel

/-- C6. -/
theorem test_convSpeedToHz_above :
    results (exec (.convSpeedToHz 715829) (onSpi [])) = some [.ok (.hertz 0)] := by decide +kernel

/-- C13. -/
theorem test_convSpeedFromHz :
    results (exec (.convSpeedFromHz 3071999999) (onSpi [])) = some [.ok (.natural 4294967295)] := by decide +kernel

/-- C14. -/
theorem test_convSpeedFromHz_refused :
    refusal (exec (.convSpeedFromHz 3072000000) (onSpi [])) = some .speedOutOfRange := by decide +kernel

/-- C19. -/
theorem test_convAccelFromHz :
    results (exec (.convAccelFromHz (-1 / 4)) (onSpi [])) = some [.ok (.integer (-4190))] := by decide +kernel

/-- C25. -/
theorem test_convAccelFromHz_refused :
    refusal (exec (.convAccelFromHz 128103) (onSpi [])) = some .accelOutOfRange := by decide +kernel

/-- C39. -/
theorem test_convThresholdSpeedToTstep :
    results (exec (.convThresholdSpeedToTstep 1000) (withCtx 12000000 16)) = some [.ok (.natural 1048)] := by
  decide +kernel

/-- C32. -/
theorem test_convThresholdSpeedToTstep_zero :
    results (exec (.convThresholdSpeedToTstep 0) (onSpi [])) = some [.err .invalidArgument] := by decide +kernel

/-! ## Witnesses: for every statement with hypotheses, a state and operands that meet all of them -/

theorem witness_CommandLinesRoundTrip : Command.wellFormed ⟨.spiRead 0x7F 0xFF, some (ascii "a")⟩ = true := by decide

theorem witness_CommandLinesRoundTrip_rational : Command.wellFormed ⟨.convAccelFromHz (-1 / 4), none⟩ = true := by decide

/-- Both ends of the register range, and both ends of a value that is not zero. -/
theorem witness_SpiFramesMatchTableRows :
    ((0x00 : Byte).toNat < 0x80 ∧ (1 : Value) ≠ 0) ∧ (0x7F : Byte).toNat < 0x80 ∧ (0xFFFFFFFF : Value) ≠ 0 := by decide

theorem witness_UartPacketsMatchTableRows : (0x00 : Byte).toNat < 0x80 ∧ (0x7F : Byte).toNat < 0x80 := by decide

theorem witness_SpiWriteFrameRoundTrip : (0x00 : Byte).toNat < 0x80 ∧ (0x7F : Byte).toNat < 0x80 := by decide

/-- U13, its first and its last byte. -/
theorem witness_ChecksumDetectsOneFlippedBit :
    let s : Bytes := [0x05, 0xFF, 0x21, 0x00, 0x00, 0x10, 0x00, 0xCB]
    s.length = 8 ∧ 0 < 8 ∧ 7 < 8 ∧ 0 ≠ 7 ∧ responseValid s = true := by decide

/-- A caller with a one-line program. -/
def withProgram (line : String) (schedule : List Turn) : State :=
  { State.reset with schedule := schedule, caller := { Caller.constructed with program := [ascii line] } }

theorem witness_StepRunsDecodedCommand :
    (withProgram "spi.setup" [.run]).schedule = .run :: [] ∧
      (withProgram "spi.setup" [.run]).caller.program[(withProgram "spi.setup" [.run]).caller.line]? =
        some (ascii "spi.setup") ∧
      decode (ascii "spi.setup") = .ok ⟨.spiSetup, none⟩ := by decide

theorem witness_StepRunsDecodedCommand_refused :
    (withProgram "spi.erase" [.run]).schedule = .run :: [] ∧
      (withProgram "spi.erase" [.run]).caller.program[(withProgram "spi.erase" [.run]).caller.line]? =
        some (ascii "spi.erase") ∧
      decode (ascii "spi.erase") = .error .unknownMnemonic := by decide

theorem witness_StepRunsDecodedCommand_ended :
    let s : State := { State.reset with schedule := [.run] }
    s.schedule = .run :: [] ∧ s.caller.program[s.caller.line]? = none := by decide

theorem witness_UnlistedTurnIsFree : State.reset.schedule = [] := rfl

/-- Two callers, the second of which owns nothing, and a turn of the second's to come. -/
def twoCallers (schedule : List Turn) : State :=
  { onSpi [.ok rx1234] with waiting := [{ Caller.constructed with id := 1 }], schedule := schedule }

/-- A waiting caller, and a number none waits under. -/
theorem witness_SwitchTurnsExchangeCallers :
    (twoCallers [.switch 0]).schedule = .switch 0 :: [] ∧
      (twoCallers [.switch 0]).waiting[0]? = some { Caller.constructed with id := 1 } ∧
      (twoCallers [.switch 1]).schedule = .switch 1 :: [] ∧ (twoCallers [.switch 1]).waiting[1]? = none := by decide

/-- A framer with bytes of three transmissions unsent, and one turn to come. -/
def onLine (m : LineMove) : State :=
  { machine (spiReady []) { idleUart with txLeft := [0x05], txOld := [[0x85], [0x86, 0x87]] } uartPort with
    schedule := [.line 0 m] }

theorem witness_EnvironmentTurnsMoveTheLine_receive :
    0 < (onLine (.receive [0x05])).uarts.length ∧
      (onLine (.receive [0x05])).schedule = .line 0 (.receive [0x05]) :: [] := by decide

theorem witness_EnvironmentTurnsMoveTheLine_emit :
    0 < (onLine .emit).uarts.length ∧ (onLine .emit).schedule = .line 0 .emit :: [] ∧
      ((onLine .emit).uartAt 0).txLeft = 0x05 :: [] := by decide

theorem witness_EnvironmentTurnsMoveTheLine_emitOld :
    0 < (onLine (.emitOld 1)).uarts.length ∧ (onLine (.emitOld 1)).schedule = .line 0 (.emitOld 1) :: [] ∧
      ((onLine (.emitOld 1)).uartAt 0).txOld[1]? = some (0x86 :: [0x87]) ∧
      (onLine (.emitOld 0)).schedule = .line 0 (.emitOld 0) :: [] ∧
      ((onLine (.emitOld 0)).uartAt 0).txOld[0]? = some (0x85 :: []) := by decide

/-- A byte lost of the last transmission, abandoned or being sent, and of an earlier one. -/
theorem witness_EnvironmentTurnsMoveTheLine_lose :
    (onLine .lose).schedule = .line 0 .lose :: [] ∧ ((onLine .lose).uartAt 0).txLeft = 0x05 :: [] ∧
      ((onLine .lose).uartAt 0).op ≠ .sending ∧ (onLine (.loseOld 1)).schedule = .line 0 (.loseOld 1) :: [] ∧
      ((onLine (.loseOld 1)).uartAt 0).txOld[1]? = some (0x86 :: [0x87]) := by decide

/-- R138 (a), A6: a byte of the second abandoned transmission appears while those of the first never do. -/
theorem test_leftovers_each_on_its_own :
    let u := ((onLine .emit).uartAt 0).move (.emitOld 1)
    u.wire = [0x86] ∧ u.txOld = [[0x85], [0x87]] ∧ (u.move (.loseOld 0)).txOld = [[0x87]] := by decide

/-- An operation that ends, one that goes on, and the first read of a double read. -/
theorem witness_CommandIndexAdvancesByOne :
    (∃ t, exec .uartSetup State.reset = .next t) ∧
      (∃ t, exec (.uartRead 0x21 0x00) (onUart .idle [] [] []) = .next t) ∧
      ∃ t, exec (.spiRead2 0x6F 0x00) (onSpi [.ok rx1234]) = .next t := ⟨⟨_, rfl⟩, ⟨_, rfl⟩, ⟨_, rfl⟩⟩

/-- A caller that owns neither the transceiver nor the framer, with a port to either. -/
theorem witness_SecondCallerRefused :
    let s := switchTo 0 (twoCallers [])
    let s' : State := { s with caller := { s.caller with bind := uartPort } }
    (s.spiAt 0).owner ≠ s.caller.id ∧ s.caller.spi = 0 ∧ (s'.uartAt 0).owner ≠ s'.caller.id ∧ s'.caller.uart = 0 ∧
      AccessesSpi s (.bindRead 0x21) 0 0x21 0x00 (.read 0x21) (spiReadFrame 0x21) ∧
      AccessesUart s' (.bindRead 0x21) 0 0x21 true (uartReadRequest 0x02 0x21) ∧ (0x21 : Byte).toNat < 0x80 :=
  ⟨by decide, rfl, by decide, rfl, Or.inr ⟨Or.inr ⟨rfl, rfl⟩, rfl, rfl⟩, Or.inr ⟨0x02, Or.inr ⟨rfl, rfl⟩, rfl, rfl⟩,
    by decide⟩

/-- A transceiver before its setup, and the controller's answer to come. -/
def beforeSetup (a : ConfigureAnswer) : State := machine { Spi.constructed with configureAnswers := [a] } idleUart spiPort

theorem witness_SpiSetupConfigures :
    OwnsSpi (beforeSetup .accept) (beforeSetup .accept).caller.spi ∧
      ((beforeSetup .accept).spiAt (beforeSetup .accept).caller.spi).handle = .set ∧
      (drawConfigure (beforeSetup .accept).caller.spi (beforeSetup .accept)).1 = .accept := by decide

theorem witness_SpiSetupFails_rejected :
    OwnsSpi (beforeSetup .reject) (beforeSetup .reject).caller.spi ∧
      ((beforeSetup .reject).spiAt (beforeSetup .reject).caller.spi).handle = .set ∧
      (drawConfigure (beforeSetup .reject).caller.spi (beforeSetup .reject)).1 = .reject := by decide

theorem witness_SpiSetupFails_unset :
    OwnsSpi (machine { Spi.constructed with handle := .unset } idleUart spiPort) 0 ∧
      ((machine { Spi.constructed with handle := .unset } idleUart spiPort).spiAt 0).handle = .unset := by decide

theorem witness_SpiAccessBeforeSetup :
    OwnsSpi State.reset 0 ∧ AccessesSpi State.reset (.spiRead 0x21 0x00) 0 0x21 0x00 (.read 0x21) (spiReadFrame 0x21) ∧
      AccessesSpi State.reset (.bindWrite 0x7F 1) 0 0x7F 0x00 .write (spiWriteFrame .flag00 0x7F 1) ∧
      (0x21 : Byte).toNat < 0x80 ∧ (State.reset.spiAt 0).configured = false :=
  ⟨rfl, Or.inr ⟨Or.inl ⟨rfl, rfl⟩, rfl, rfl⟩, Or.inl ⟨1, Or.inr ⟨rfl, rfl⟩, rfl, rfl⟩, by decide, rfl⟩

theorem witness_SpiAccessBeforeSetup_second :
    let s := State.reset.setInFlight (some .secondRead)
    OwnsSpi s 0 ∧ (s.spiAt 0).configured = false ∧ s.caller.spi = 0 ∧ s.caller.inFlight = some .secondRead := by decide

/-- V9. -/
theorem witness_SpiUnknownDevice :
    OwnsSpi (onSpi []) 0 ∧ AccessesSpi (onSpi []) (.spiRead 0x21 0x02) 0 0x21 0x02 (.read 0x21) (spiReadFrame 0x21) ∧
      (0x21 : Byte).toNat < 0x80 ∧ ((onSpi []).spiAt 0).configured = true ∧
      ∀ e ∈ ((onSpi []).spiAt 0).lines, e.device ≠ 0x02 :=
  ⟨rfl, Or.inr ⟨Or.inl ⟨rfl, rfl⟩, rfl, rfl⟩, by decide, rfl, by decide⟩

/-- V3, and through a port. -/
theorem witness_SpiWriteSendsItsFrame :
    OwnsSpi (onSpi [.ok rx1234]) 0 ∧ WritesSpi (onSpi [.ok rx1234]) (.spiWrite 0x7F 0xFFFFFFFF 0x01) 0 0x7F 0xFFFFFFFF 0x01 ∧
      WritesSpi (onSpi [.ok rx1234]) (.bindWrite 0x00 0) 0 0x00 0 0x00 ∧
      (0x7F : Byte).toNat < 0x80 ∧ ((onSpi [.ok rx1234]).spiAt 0).configured = true ∧
      ((onSpi [.ok rx1234]).spiAt 0).route 0x01 = some 1 ∧ ((onSpi [.ok rx1234]).spiAt 0).route 0x00 = some 0 ∧
      (drawExchange 0 (onSpi [.ok rx1234])).1 = .ok rx1234 :=
  ⟨rfl, Or.inl ⟨rfl, rfl⟩, Or.inr ⟨rfl, rfl⟩, by decide, rfl, by decide, by decide, rfl⟩

/-- V5, and through a port. -/
theorem witness_SpiReadReturnsReceivedValue :
    OwnsSpi (onSpi [.ok rx1234]) 0 ∧ ReadsSpi (onSpi [.ok rx1234]) (.spiRead 0x6F 0x00) 0 0x6F 0x00 ∧
      ReadsSpi (onSpi [.ok rx1234]) (.bindRead 0x6F) 0 0x6F 0x00 ∧ (0x6F : Byte).toNat < 0x80 ∧
      ((onSpi [.ok rx1234]).spiAt 0).configured = true ∧
      ((onSpi [.ok rx1234]).spiAt 0).route 0x00 = some 0 ∧ (drawExchange 0 (onSpi [.ok rx1234])).1 = .ok rx1234 :=
  ⟨rfl, Or.inl ⟨rfl, rfl⟩, Or.inr ⟨rfl, rfl⟩, by decide, rfl, by decide, rfl⟩

/-- V10. -/
theorem witness_SpiFaultReleasesTheLine :
    OwnsSpi (onSpi [.fault]) 0 ∧
      AccessesSpi (onSpi [.fault]) (.spiWrite 0x21 1 0x00) 0 0x21 0x00 .write (spiWriteFrame .flag00 0x21 1) ∧
      (0x21 : Byte).toNat < 0x80 ∧ ((onSpi [.fault]).spiAt 0).configured = true ∧
      ((onSpi [.fault]).spiAt 0).route 0x00 = some 0 ∧ (drawExchange 0 (onSpi [.fault])).1 = .fault :=
  ⟨rfl, Or.inl ⟨1, Or.inl ⟨rfl, rfl⟩, rfl, rfl⟩, by decide, rfl, by decide, rfl⟩

/-- An exchange that is never answered. -/
theorem witness_SpiUnansweredIsStuck :
    OwnsSpi (onSpi [.never]) 0 ∧ AccessesSpi (onSpi [.never]) (.bindRead 0x21) 0 0x21 0x00 (.read 0x21) (spiReadFrame 0x21) ∧
      (0x21 : Byte).toNat < 0x80 ∧ ((onSpi [.never]).spiAt 0).configured = true ∧
      ((onSpi [.never]).spiAt 0).route 0x00 = some 0 ∧ (drawExchange 0 (onSpi [.never])).1 = .never :=
  ⟨rfl, Or.inr ⟨Or.inr ⟨rfl, rfl⟩, rfl, rfl⟩, by decide, rfl, by decide, rfl⟩

theorem witness_SpiExchangeCount :
    AccessesSpi (onSpi [.fault]) (.spiWrite 0x21 1 0x00) 0 0x21 0x00 .write (spiWriteFrame .flag00 0x21 1) ∧
      (∃ t, exec (.spiWrite 0x21 1 0x00) (onSpi [.fault]) = .next t) ∧ ((onSpi [.fault]).spiAt 0).configured = true ∧
      ((onSpi [.fault]).spiAt 0).route 0x00 = some 0 :=
  ⟨Or.inl ⟨1, Or.inl ⟨rfl, rfl⟩, rfl, rfl⟩, ⟨_, rfl⟩, rfl, by decide⟩

theorem witness_SpiExchangeCount_none :
    AccessesSpi (onSpi []) (.spiRead 0x21 0x02) 0 0x21 0x02 (.read 0x21) (spiReadFrame 0x21) ∧
      (∃ t, exec (.spiRead 0x21 0x02) (onSpi []) = .next t) ∧ ((onSpi []).spiAt 0).route 0x02 = none :=
  ⟨Or.inr ⟨Or.inl ⟨rfl, rfl⟩, rfl, rfl⟩, ⟨_, rfl⟩, by decide⟩

theorem witness_SpiExchangeCount_setup : ∃ t, exec .spiSetup (beforeSetup .reject) = .next t := ⟨_, rfl⟩

theorem witness_SpiRoutesAreDistinct :
    TableInjective (spiReady []) ∧ ⟨0x01, 1, .deasserted, []⟩ ∈ (spiReady []).lines ∧
      (∀ e ∈ (spiReady []).lines, e.device ≠ 0x02) ∧ (spiReady []).route 0x01 = some 1 :=
  ⟨⟨by decide, by decide⟩, by decide, by decide, by decide⟩

theorem spiReady_sound : SpiSound (spiReady []) := ⟨⟨by decide, by decide⟩, fun _ => ⟨rfl, rfl, rfl, rfl, rfl, by decide, by decide⟩⟩

theorem witness_OnlyTheTransferLineIsAsserted : ∀ a ∈ [ExchangeAnswer.ok rx1234, .fault],
    let s := onSpi [a]
    SpiSound (s.spiAt 0) ∧ (s.spiAt 0).configured = true ∧ (s.spiAt 0).route 0x01 = some 1 ∧
      AccessesSpi s (.spiRead 0x21 0x01) 0 0x21 0x01 (.read 0x21) (spiReadFrame 0x21) ∧ OwnsSpi s 0 ∧
      (∃ rx v, spiExchange 0 1 (.read 0x21) (spiReadFrame 0x21) (s.setSpi 0 ((s.spiAt 0).drive 1 .asserted)) =
        .answered rx v) ∧
      ∃ rx v, transfer 0 1 (.read 0x21) (spiReadFrame 0x21) s = .answered rx v := by
  intro a ha
  obtain rfl | rfl : a = .ok rx1234 ∨ a = .fault := by simpa using ha
  all_goals
    exact ⟨⟨⟨by decide, by decide⟩, fun _ => ⟨rfl, rfl, rfl, rfl, rfl, by decide, by decide⟩⟩, rfl, by decide,
      Or.inr ⟨Or.inl ⟨rfl, rfl⟩, rfl, rfl⟩, rfl, ⟨_, _, rfl⟩, ⟨_, _, rfl⟩⟩

/-- The exchange that never ends. -/
theorem witness_OnlyTheTransferLineIsAsserted_never :
    let s := onSpi [.never]
    spiExchange 0 1 (.read 0x21) (spiReadFrame 0x21) (s.setSpi 0 ((s.spiAt 0).drive 1 .asserted)) = .never ∧
      transfer 0 1 (.read 0x21) (spiReadFrame 0x21) s = .never := ⟨rfl, rfl⟩

theorem witness_ReadinessFollowsTheLastExchange :
    AccessesSpi (onSpi [.ok rx1234]) (.spiRead 0x6F 0x00) 0 0x6F 0x00 (.read 0x6F) (spiReadFrame 0x6F) ∧
      (∃ t, exec (.spiRead 0x6F 0x00) (onSpi [.ok rx1234]) = .next t) ∧
      ((onSpi [.ok rx1234]).spiAt 0).configured = true ∧ ((onSpi [.ok rx1234]).spiAt 0).route 0x00 = some 0 ∧
      (drawExchange 0 (onSpi [.ok rx1234])).1 = .ok rx1234 :=
  ⟨Or.inr ⟨Or.inl ⟨rfl, rfl⟩, rfl, rfl⟩, ⟨_, rfl⟩, rfl, by decide, rfl⟩

theorem witness_ReadinessFollowsTheLastExchange_fault :
    AccessesSpi (onSpi [.fault]) (.spiRead 0x6F 0x00) 0 0x6F 0x00 (.read 0x6F) (spiReadFrame 0x6F) ∧
      (∃ t, exec (.spiRead 0x6F 0x00) (onSpi [.fault]) = .next t) ∧ (drawExchange 0 (onSpi [.fault])).1 = .fault :=
  ⟨Or.inr ⟨Or.inl ⟨rfl, rfl⟩, rfl, rfl⟩, ⟨_, rfl⟩, rfl⟩

theorem witness_DoubleReadFirstHalf :
    OwnsSpi (onSpi [.ok rx1234]) 0 ∧ (0x6F : Byte).toNat < 0x80 ∧ (onSpi [.ok rx1234]).caller.inFlight ≠ some .secondRead ∧
      ((onSpi [.ok rx1234]).spiAt 0).configured = true ∧ ((onSpi [.ok rx1234]).spiAt 0).route 0x00 = some 0 ∧
      (drawExchange 0 (onSpi [.ok rx1234])).1 = .ok rx1234 := ⟨rfl, by decide, by decide, rfl, by decide, rfl⟩

/-- The three ways the first read of a double read fails. -/
theorem witness_DoubleReadFirstHalf_errors :
    OwnsSpi State.reset 0 ∧ OwnsSpi (onSpi []) 0 ∧ OwnsSpi (onSpi [.fault]) 0 ∧
      (State.reset.spiAt 0).configured = false ∧ State.reset.caller.inFlight ≠ some .secondRead ∧
      ((onSpi []).spiAt 0).configured = true ∧ ((onSpi []).spiAt 0).route 0x02 = none ∧
      ((onSpi [.fault]).spiAt 0).route 0x00 = some 0 ∧ (drawExchange 0 (onSpi [.fault])).1 = .fault :=
  ⟨rfl, rfl, rfl, rfl, by decide, rfl, by decide, by decide, rfl⟩

/-- Each clause: no route, an answer, a fault. -/
theorem witness_DoubleReadSecondHalf : ∀ a ∈ [ExchangeAnswer.ok rx1234, .fault, .never],
    let s := (onSpi [a]).setInFlight (some .secondRead)
    OwnsSpi s 0 ∧ (0x7F : Byte).toNat < 0x80 ∧ s.caller.inFlight = some .secondRead ∧ (s.spiAt 0).configured = true ∧
      (s.spiAt 0).route 0x02 = none ∧ (s.spiAt 0).route 0x00 = some 0 ∧ (drawExchange 0 s).1 = a := by decide

/-- P-a and P-b: a peer that holds 0x12345678 in every register. -/
theorem witness_DoubleReadReturnsPeerValue :
    let s := onSpi [.ok rx1234, .ok rx1234]
    let t := after s (exec (.spiRead2 0x6F 0x00) s)
    OwnsSpi s 0 ∧ (0x6F : Byte).toNat < 0x80 ∧ s.caller.inFlight ≠ some .secondRead ∧ (s.spiAt 0).configured = true ∧
      (s.spiAt 0).route 0x00 = some 0 ∧ (drawExchange 0 s).1 = .ok rx1234 ∧ exec (.spiRead2 0x6F 0x00) s = .next t ∧
      (drawExchange 0 t).1 = .ok rx1234 ∧ PipelinedAnswer (t.spiAt 0) 0 (fun _ => 0x12345678) (.ok rx1234) := by
  refine ⟨rfl, by decide, by decide, rfl, by decide, rfl, rfl, rfl, ?_⟩
  intro reg rx _ hrx
  cases hrx
  change [rx1234.b1, rx1234.b2, rx1234.b3, rx1234.b4] = be32 0x12345678
  decide

theorem witness_UartSetupOutcomes :
    OwnsUart State.reset 0 ∧ (State.reset.uartAt 0).op = .idle ∧ (State.reset.uartAt 0).handle = .set ∧
      OwnsUart (machine (spiReady []) { idleUart with handle := .unset } spiPort) 0 ∧
      ((machine (spiReady []) { idleUart with handle := .unset } spiPort).uartAt 0).op = .idle ∧
      ((machine (spiReady []) { idleUart with handle := .unset } spiPort).uartAt 0).handle = .unset := by decide

/-- The three ways to reach UART object 0 here. -/
theorem onUart_write (op : UartOp) (rxq : Bytes) (a : List SendAnswer) (b : List ReceiveAnswer) :
    AccessesUart (onUart op rxq a b) (.uartWrite 0x21 1 0x00) 0 0x21 false (uartWritePacket 0x00 0x21 1) :=
  Or.inl ⟨1, 0x00, Or.inl ⟨rfl, rfl⟩, rfl, rfl⟩

theorem onUart_read (op : UartOp) (rxq : Bytes) (a : List SendAnswer) (b : List ReceiveAnswer) :
    AccessesUart (onUart op rxq a b) (.uartRead 0x21 0x00) 0 0x21 true (uartReadRequest 0x00 0x21) :=
  Or.inr ⟨0x00, Or.inl ⟨rfl, rfl⟩, rfl, rfl⟩

theorem onUart_port (op : UartOp) (rxq : Bytes) (a : List SendAnswer) (b : List ReceiveAnswer) :
    AccessesUart (onUart op rxq a b) (.bindRead 0x21) 0 0x21 true (uartReadRequest 0x02 0x21) :=
  Or.inr ⟨0x02, Or.inr ⟨rfl, rfl⟩, rfl, rfl⟩

/-- U21. -/
theorem witness_UartAccessBeforeSetup :
    OwnsUart State.reset 0 ∧ AccessesUart State.reset (.uartRead 0x21 0x00) 0 0x21 true (uartReadRequest 0x00 0x21) ∧
      (0x21 : Byte).toNat < 0x80 ∧ (State.reset.uartAt 0).op = .idle ∧ (State.reset.uartAt 0).configured = false :=
  ⟨rfl, Or.inr ⟨0x00, Or.inl ⟨rfl, rfl⟩, rfl, rfl⟩, by decide, rfl, rfl⟩

theorem witness_UartDispatchesItsPacket :
    OwnsUart (onUart .idle [] [] []) 0 ∧ (0x21 : Byte).toNat < 0x80 ∧ ((onUart .idle [] [] []).uartAt 0).op = .idle ∧
      ((onUart .idle [] [] []).uartAt 0).configured = true := by decide

/-- Each of the four ways sending goes on. -/
theorem witness_UartSendingResolves : ∀ a ∈ [SendAnswer.pending, .done, .fault, .expire],
    OwnsUart (onUart .sending [] [a] []) 0 ∧
    ((onUart .sending [] [a] []).uartAt 0).op = .sending ∧ (onUart .sending [] [a] []).caller.inFlight = some (.uart 0) ∧
      (drawSend 0 (onUart .sending [] [a] [])).1 = a := by decide

theorem witness_UartReceivingResolves :
    OwnsUart (onUart .awaitingResponse [] [] []) 0 ∧
      ReadsUart (onUart .awaitingResponse [] [] []) (.uartRead 0x21 0x00) 0 0x21 0x00 ∧
      ReadsUart (onUart .awaitingResponse [] [] []) (.bindRead 0x21) 0 0x21 0x02 ∧
      (onUart .awaitingResponse [] [] []).caller.inFlight = some (.uart 0) ∧
      ((onUart .awaitingResponse [] [] []).uartAt 0).op = .awaitingResponse :=
  ⟨rfl, Or.inl ⟨rfl, rfl⟩, Or.inr ⟨rfl, rfl⟩, rfl, rfl⟩

/-- Seven bytes and eight; a fault and an expiry that consume none, eight and a number above eight. -/
theorem witness_UartReceivingResolves_clauses :
    (drawReceive 0 (onUart .awaitingResponse [1, 2, 3, 4, 5, 6, 7] [] [.proceed])).1 = .proceed ∧
      ((onUart .awaitingResponse [1, 2, 3, 4, 5, 6, 7] [] [.proceed]).uartAt 0).rxq.length < 8 ∧
      ((onUart .awaitingResponse [1, 2, 3, 4, 5, 6, 7, 8] [] [.proceed]).uartAt 0).rxq =
        1 :: 2 :: 3 :: 4 :: 5 :: 6 :: 7 :: 8 :: [] ∧
      (∀ n ∈ [0, 8, 9], (drawReceive 0 (onUart .awaitingResponse [] [] [.fault n])).1 = .fault n) ∧
      ∀ n ∈ [0, 8, 9], (drawReceive 0 (onUart .awaitingResponse [] [] [.expire n])).1 = .expire n := by decide

/-- Each of the four terminal states. -/
theorem witness_UartReturnsToIdle : ∀ o ∈ [UartOp.complete, .timedOut, .checksumError, .faulted],
    OwnsUart (onUart o [] [] []) 0 ∧
    ((onUart o [] [] []).uartAt 0).op = o ∧ (onUart o [] [] []).caller.inFlight = some (.uart 0) := by decide

theorem witness_UartWriteCompletes :
    OwnsUart (onUart .idle [] [.done] []) 0 ∧ WritesUart (onUart .idle [] [.done] []) (.uartWrite 0x21 1 0x00) 0 0x21 1 0x00 ∧
      WritesUart (onUart .idle [] [.done] []) (.bindWrite 0x21 1) 0 0x21 1 0x02 ∧
      ((onUart .idle [] [.done] []).uartAt 0).op = .idle ∧ ((onUart .idle [] [.done] []).uartAt 0).configured = true ∧
      ((onUart .idle [] [.done] []).uartAt 0).sendAnswers = .done :: [] :=
  ⟨rfl, Or.inl ⟨rfl, rfl⟩, Or.inr ⟨rfl, rfl⟩, rfl, rfl, rfl⟩

theorem witness_UartReadCompletes :
    let s := onUart .idle [] [.done] [.proceed]
    OwnsUart s 0 ∧ ReadsUart s (.uartRead 0x21 0x00) 0 0x21 0x00 ∧ ReadsUart s (.bindRead 0x21) 0 0x21 0x02 ∧
      (s.uartAt 0).op = .idle ∧ (s.uartAt 0).configured = true ∧ (s.uartAt 0).rxq = [] ∧ (s.uartAt 0).txLeft = [] ∧
      (s.uartAt 0).sendAnswers = .done :: [] ∧ (s.uartAt 0).receiveAnswers = .proceed :: [] :=
  ⟨rfl, Or.inl ⟨rfl, rfl⟩, Or.inr ⟨rfl, rfl⟩, rfl, rfl, rfl, rfl, rfl, rfl⟩

/-- A framer in the middle of another caller's operation. -/
theorem witness_UartSecondCommandRefused :
    let s := machine (spiReady []) (uartReady .sending [] [] []) uartPort
    (s.uartAt 0).op ≠ .idle ∧ s.caller.inFlight ≠ some (.uart 0) ∧ s.caller.uart = 0 ∧
      AccessesUart s (.uartRead 0x21 0x00) 0 0x21 true (uartReadRequest 0x00 0x21) :=
  ⟨by decide, by decide, rfl, Or.inr ⟨0x00, Or.inl ⟨rfl, rfl⟩, rfl, rfl⟩⟩

theorem witness_UartWaitIsBounded :
    OwnsUart (onUart .sending [] [.expire] []) 0 ∧ ((onUart .sending [] [.expire] []).uartAt 0).op = .sending ∧
      (drawSend 0 (onUart .sending [] [.expire] [])).1 = .expire ∧
      OwnsUart (onUart .awaitingResponse [] [] [.expire 8]) 0 ∧
      ((onUart .awaitingResponse [] [] [.expire 8]).uartAt 0).op = .awaitingResponse ∧
      (drawReceive 0 (onUart .awaitingResponse [] [] [.expire 8])).1 = .expire 8 ∧
      (onUart .awaitingResponse [] [] [.expire 8]).caller.inFlight = some (.uart 0) := by decide

theorem witness_UartSendsOnce :
    ((onUart .sending [] [.done] []).uartAt 0).op ≠ .idle ∧
      ∃ t, exec (.uartRead 0x21 0x00) (onUart .sending [] [.done] []) = .next t := ⟨by decide, ⟨_, rfl⟩⟩

theorem witness_UartNeverUnknownDevice :
    ∃ t, exec (.uartWrite 0x21 1 0x00) (onUart .complete [] [] []) = .next t := ⟨_, rfl⟩

/-- B1, B2. -/
theorem witness_UnboundPortRaises :
    (0x21 : Byte).toNat < 0x80 ∧ (machine (spiReady []) idleUart ⟨none, 0x00⟩).caller.bind.transport = none := by decide

/-- ctx12 is valid, and so is the smallest context. -/
theorem witness_valid : (onSpi []).caller.ctx.valid = true ∧ (withCtx 1 1).caller.ctx.valid = true := by decide +kernel

theorem witness_SpeedFromHzResult :
    (-1 : ℚ) < 0 ∧ (0 : ℚ) ≤ 0 ∧ ((1 : ℕ) : ℤ) = ⌊(0 : ℚ) * 2 ^ 24 / (onSpi []).caller.ctx.clockHz⌋ + 1 ∧
      (0 : ℚ) ≤ 3072000000 ∧
      ((4294967297 : ℕ) : ℤ) = ⌊(3072000000 : ℚ) * 2 ^ 24 / (onSpi []).caller.ctx.clockHz⌋ + 1 ∧
      (2 : ℕ) ^ 32 - 1 < 4294967297 := by decide +kernel

/-- C19 and C25. -/
theorem witness_AccelFromHzResult :
    (let q : ℚ := -1 / 4 * (12000000 : ℚ) ^ 2 * 256 / (512 * 256 * 2 ^ 24)
    (-4190 : ℤ) = (if 0 ≤ q then ⌊q⌋ else ⌈q⌉) ∧ (-2 ^ 31 : ℤ) ≤ -4190 ∧ (-4190 : ℤ) ≤ 2 ^ 31 - 1) ∧
    (let q : ℚ := 128103 * (12000000 : ℚ) ^ 2 * 256 / (512 * 256 * 2 ^ 24)
    (2147493883 : ℤ) = (if 0 ≤ q then ⌊q⌋ else ⌈q⌉) ∧ (2 : ℤ) ^ 31 - 1 < 2147493883) := by decide +kernel

/-- C33 and C37, C38, and C36: each clause at the edge of its range. -/
theorem witness_TstepResult :
    let q (t : ℚ) : ℚ := 2 ^ 24 / t * ((256 : ℚ) / 256)
    q (-5) < 1 ∧ q 33554432 < 1 ∧ q (16777216 / 1048575) = 2 ^ 20 - 1 ∧ 1 ≤ q 16777216 ∧ q 16777216 < 2 ^ 20 - 1 := by
  decide +kernel

theorem witness_IsConversion :
    IsConversion (.convSpeedToHz 0) ∧ IsConversion (.convSpeedFromHz 0) ∧ IsConversion (.convAccelFromHz 0) ∧
      IsConversion (.convThresholdSpeedToTstep 0) :=
  ⟨Or.inl ⟨_, rfl⟩, Or.inr (Or.inl ⟨_, rfl⟩), Or.inr (Or.inr (Or.inl ⟨_, rfl⟩)), Or.inr (Or.inr (Or.inr ⟨_, rfl⟩))⟩

/-- C41: a context that is refused. -/
theorem witness_ConversionContextChecked :
    refusal (exec (.convThresholdSpeedToTstep 1) (withCtx 0 256)) = some .conversionContext := by decide +kernel

theorem witness_SpeedRoundTripAddsOne : (0 : Value).toNat ≤ 715828 ∧ (715828 : Value).toNat ≤ 715828 := by decide

/-- Two states that differ in everything but the two numbers of the context. -/
theorem witness_ConversionsReadOnlyTheContext :
    (onSpi []).caller.ctx.clockHz = State.reset.caller.ctx.clockHz ∧
      (onSpi []).caller.ctx.microsteps = State.reset.caller.ctx.microsteps ∧ (onSpi []).spis ≠ State.reset.spis ∧
      ∃ t, exec (.convSpeedToHz 1) (onSpi []) = .next t ∧
        Returned (onSpi []) t (.ok (.hertz (speedToHz (onSpi []).caller.ctx 1))) := by
  refine ⟨rfl, rfl, by decide, _, rfl, rfl⟩

/-- C28: a context in which the source's accelerations hold. -/
theorem witness_SourceExampleValues :
    let c : Context := ⟨35606017, 256, 0, 0⟩
    c.valid = true ∧ c.microsteps = 256 ∧ 147590 ≤ c.clockHz ^ 2 * c.microsteps / 2 ^ 41 ∧
      c.clockHz ^ 2 * c.microsteps / 2 ^ 41 < 147591 := by decide +kernel

theorem witness_OnlySetupConfigures : ∃ t, exec (.spiRead 0x21 0x00) (onSpi [.ok rx1234]) = .next t := ⟨_, rfl⟩

theorem witness_ConstructionInputsNeverWritten : ∃ t, exec .spiSetup (beforeSetup .reject) = .next t := ⟨_, rfl⟩

/-- A caller that owns neither object has the turn. -/
theorem witness_OnlyTheOwnerUsesATransport :
    let s := switchTo 0 (twoCallers [.line 0 (.receive [0x05])])
    ¬ OwnsSpi s 0 ∧ ¬ OwnsUart s 0 ∧ ∃ t, step s = .next t := ⟨by decide, by decide, ⟨_, rfl⟩⟩

/-- A step of a sound state that is not the reset state. -/
theorem witness_EveryStepKeepsSound :
    Sound (withProgram "uart.setup" [.run]) ∧ ∃ t, step (withProgram "uart.setup" [.run]) = .next t := by
  refine ⟨⟨?_, ?_, ?_, by decide⟩, ⟨_, rfl⟩⟩
  · simp [withProgram, State.reset, SpiSound, TableInjective, Spi.constructed, Spi.absent]
  · simp [withProgram, State.reset, UartSound, Uart.constructed, Uart.absent]
  · simp [withProgram, State.reset, CallerSound, Caller.constructed]

/-- A framer that one caller is in the middle of an operation on. -/
def oneRunning : State :=
  { (onUart .sending [] [.done] []) with
    schedule := [.run]
    caller := { (onUart .sending [] [.done] []).caller with program := [ascii "uart.read reg=0x21 dev=0x00"] } }

theorem witness_EveryStepKeepsOneCallerEach : OneCallerEach oneRunning ∧ ∃ t, step oneRunning = .next t := by
  refine ⟨⟨?_, ?_⟩, ⟨_, rfl⟩⟩
  · intro c hc
    obtain rfl : c = oneRunning.caller := by
      cases hc with
      | head => rfl
      | tail _ h => cases h
    refine ⟨fun k hk => ?_, fun h => absurd h (by decide)⟩
    cases hk
    exact ⟨rfl, _, ⟨.uartRead 0x21 0x00, none⟩, rfl, by decide, rfl⟩
  · intro k
    cases k with
    | zero => decide
    | succ k => rfl

/-- A caller between the reads of a double read. -/
def halfRead : State :=
  { (onSpi [.ok rx1234]) with
    schedule := [.run]
    caller := { Caller.constructed with
      program := [ascii "spi.read2 reg=0x6F dev=0x00"], inFlight := some .secondRead } }

theorem witness_EveryStepKeepsOneCallerEach_read2 : OneCallerEach halfRead ∧ ∃ t, step halfRead = .next t := by
  refine ⟨⟨?_, ?_⟩, ⟨_, rfl⟩⟩
  · intro c hc
    obtain rfl : c = halfRead.caller := by
      cases hc with
      | head => rfl
      | tail _ h => cases h
    exact ⟨fun k hk => (nomatch hk), fun _ => ⟨rfl, _, none, 0x6F, 0x00, rfl, by decide⟩⟩
  · intro k
    cases k with
    | zero => decide
    | succ k => rfl

end Sys2Proof.Tests
end

-- ==== The step: an unlisted turn, and the machine's invariant ====
section
/-! PROOFS. An unlisted turn is a free value (O9), and every step keeps the machine's invariant (O55): what the invariant
asks of each part is kept by every move of that part (`Laws/Moves.lean`), and put together once for the whole state. -/

namespace Sys2Proof.Safety

open Sys2Proof.Machine

/-! ## Unlisted turns -/

theorem step_of_nil {s : State} (h : s.schedule = []) : step s = takeTurn (Config.freeTurn s.draws) s.drawn := by
  rw [step, h]

theorem step_of_cons {s : State} {x : Turn} {rest : List Turn} (h : s.schedule = x :: rest) :
    step s = takeTurn x { s with schedule := rest } := by
  rw [step, h]

/-- Settles O9: both steps take the turn `freeTurn s.draws`, in the same state. -/
theorem unlistedTurnIsFree : Obligations.UnlistedTurnIsFree := by
  intro s h
  have hdrawn : ({ s with schedule := [], draws := s.draws + 1 } : State) = s.drawn := by
    rw [← h]
    rfl
  rw [step_of_nil h, step_of_cons (x := Config.freeTurn s.draws) (rest := []) rfl, ← hdrawn]

/-! ## SPI objects -/

/-- R8: whether the table is injective depends on its columns of devices and lines alone. -/
theorem TableInjective.of_columns {p q : Spi} (h : TableInjective p)
    (hd : q.lines.map SelectLine.device = p.lines.map SelectLine.device)
    (hl : q.lines.map SelectLine.line = p.lines.map SelectLine.line) : TableInjective q := by
  unfold TableInjective
  rw [hd, hl]
  exact h

/-- Driving every line to a level keeps the table. -/
theorem TableInjective.of_levels {p q : Spi} (h : TableInjective p) (level : SelectLine → Level)
    (hq : q.lines = p.lines.map fun e => { e with level := level e }) : TableInjective q :=
  h.of_columns (by simp [hq, Function.comp_def]) (by simp [hq, Function.comp_def])

/-- Of a transceiver that is not configured the invariant asks only its table. -/
theorem spiSound_of_unconfigured {p : Spi} (h : TableInjective p) (hc : p.configured = false) : SpiSound p :=
  ⟨h, fun hc' => by simp [hc] at hc'⟩

theorem spiSound_absent : SpiSound Spi.absent := spiSound_of_unconfigured ⟨List.nodup_nil, List.nodup_nil⟩ rfl

/-- R100: an accepted setup leaves a configured transceiver as the invariant asks. -/
theorem spiSound_setUp {p : Spi} (h : TableInjective p) (hh : p.handle = .set) : SpiSound p.setUp := by
  refine ⟨h.of_levels (fun _ => .deasserted) rfl, fun _ => ⟨hh, rfl, rfl, rfl, rfl, p.sckParam.pos, fun e he => ?_⟩⟩
  obtain ⟨_, _, rfl⟩ := List.mem_map.mp he
  rfl

/-- R104, R107: a finished transfer writes the levels to `Deasserted` only, and no configuration. -/
theorem spiSound_afterTransfer {p : Spi} (h : SpiSound p) (line : Nat) (x : Exchange) (rx : SpiFrame)
    (rest : List ExchangeAnswer) : SpiSound (p.afterTransfer line x rx rest) := by
  obtain ⟨htable, hconf⟩ := h
  have hd := onLine_devices p line (fun e => { e with level := .deasserted, log := x :: e.log }) fun _ => rfl
  have hl := onLine_lines p line (fun e => { e with level := .deasserted, log := x :: e.log }) fun _ => rfl
  refine ⟨htable.of_columns hd hl, fun hc => ?_⟩
  obtain ⟨hh, hcpol, hcpha, hbit, hsck, hpos, hlevels⟩ := hconf hc
  refine ⟨hh, hcpol, hcpha, hbit, hsck, hpos, fun e he => ?_⟩
  obtain ⟨e', he', rfl⟩ := List.mem_map.mp he
  split
  · rfl
  · exact hlevels e' he'

/-- Every move of an SPI object keeps the invariant. -/
theorem spiMoves_sound {i : Instr} {p q : Spi} (hm : SpiMoves i p q) (h : SpiSound p) : SpiSound q := by
  rcases hm with ⟨_, ⟨_, rfl⟩ | ⟨hh, _, rfl⟩ | ⟨_, n, _, rfl⟩⟩ | ⟨_, _, _, line, x, rx, rest, _, rfl⟩
  case inl.inl => exact spiSound_of_unconfigured h.1 rfl
  case inl.inr.inl => exact spiSound_setUp h.1 hh
  case inl.inr.inr =>
    exact spiSound_of_unconfigured (h.1.of_levels (fun e => Config.freeLevel n e.line) rfl) rfl
  case inr => exact spiSound_afterTransfer h line x rx rest

/-! ## UART objects -/

theorem uartSound_absent : UartSound Uart.absent :=
  ⟨fun h => (nomatch h), fun h => absurd rfl h, List.not_mem_nil⟩

/-- R130: a setup whose handle is unset leaves an idle framer not configured. -/
theorem uartSound_unconfigured {u : Uart} (h : UartSound u) (hop : u.op = .idle) :
    UartSound { u with configured := false } :=
  ⟨fun hc => (nomatch hc), fun hne => absurd hop hne, h.2.2⟩

/-- R130: a successful setup leaves 115200 baud, 8N1. -/
theorem uartSound_setUp {u : Uart} (h : UartSound u) (hh : u.handle = .set) : UartSound u.setUp :=
  ⟨fun _ => ⟨hh, rfl, rfl, rfl, rfl⟩, fun _ => rfl, h.2.2⟩

/-- R131, R132: a move of the environment keeps what the invariant asks of the lists of unsent bytes. -/
theorem nil_not_mem_move {u : Uart} (h : [] ∉ u.txOld) (m : LineMove) : [] ∉ (u.move m).txOld := by
  cases m with
  | emit => simp only [Uart.move]; split <;> exact h
  | emitOld n =>
    simp only [Uart.move]
    split
    · exact h
    · exact h
    · exact nil_not_mem_leaveOld h n _
  | lose => simp only [Uart.move]; split <;> exact h
  | loseOld n =>
    simp only [Uart.move]
    split
    · exact h
    · exact h
    · exact nil_not_mem_leaveOld h n _
  | receive bs => exact h

theorem uartSound_move {u : Uart} (h : UartSound u) (m : LineMove) : UartSound (u.move m) := by
  have hold := nil_not_mem_move h.2.2 m
  rw [move_frame u m]
  exact ⟨h.1, h.2.1, hold⟩

/-- A sub-step of sending writes `uart.op`, the value to return and the line, and nothing else of the framer. -/
theorem onSend_frame (u : Uart) (awaits : Bool) (a : SendAnswer) :
    u.onSend awaits a = { u with
      op := (u.onSend awaits a).op, got := (u.onSend awaits a).got, wire := (u.onSend awaits a).wire,
      txLeft := (u.onSend awaits a).txLeft } := by
  cases a with
  | pending => rfl
  | done => cases awaits <;> rfl
  | fault => rfl
  | expire => rfl

/-- A sub-step of receiving writes `uart.op`, the value to return and the received bytes, and nothing else of the framer. -/
theorem onReceive_frame (u : Uart) (a : ReceiveAnswer) :
    u.onReceive a = { u with
      op := (u.onReceive a).op, got := (u.onReceive a).got, rxq := (u.onReceive a).rxq } := by
  cases a with
  | proceed =>
    simp only [Uart.onReceive, Uart.takeResponse]
    split
    · split <;> rfl
    · rfl
  | fault k => rfl
  | expire k => rfl

/-- Every sub-step of a UART operation keeps the invariant: a framer in an operation is configured, so `uart.op` may become
anything. -/
theorem uartMoves_sound {k : Nat} {c c' : Caller} {u u' : Uart} (hm : UartMoves k c u c' u') (h : UartSound u) :
    UartSound u' := by
  obtain ⟨hframing, hrunning, hold⟩ := h
  rcases hm with ⟨_, hc, _, packet, rfl⟩ | ⟨hop, _, _, awaits, a, rest, rfl⟩ | ⟨hop, _, _, a, rest, rfl⟩ |
    ⟨r, _, _, _, rfl⟩
  · exact ⟨hframing, fun _ => hc, nil_not_mem_leftovers hold⟩
  · rw [onSend_frame]
    exact ⟨hframing, fun _ => hrunning (by simp [hop]), hold⟩
  · rw [onReceive_frame]
    exact ⟨hframing, fun _ => hrunning (by simp [hop]), hold⟩
  · exact ⟨hframing, fun hne => absurd rfl hne, hold⟩

/-! ## Callers -/

/-- R21: a caller that stands at a line of its program may receive a result. -/
theorem callerSound_receive {c : Caller} (h : CallerSound c) (hline : c.line < c.program.length) (r : OpResult) :
    CallerSound (c.receive r) := by
  obtain ⟨hcount, hle, _⟩ := h
  refine ⟨?_, ?_, ?_⟩
  · simp [hcount]
  · simpa using hle
  · simpa using hline

/-- R95: halfway through a double read one more result is counted, on the same line. -/
theorem callerSound_halfway {c : Caller} (h : CallerSound c) (r : OpResult) : CallerSound (c.halfway r) := by
  obtain ⟨hcount, hle, hend⟩ := h
  refine ⟨?_, ?_, ?_⟩
  · simp [hcount]
  · exact Nat.le_succ_of_le hle
  · exact hend

/-- Every change of the running caller keeps what the invariant asks of it, and its number. -/
theorem callerMoves_sound {i : Instr} {s : State} {c : Caller} (hm : CallerMoves i s c) (h : CallerSound s.caller)
    (hline : s.caller.line < s.caller.program.length) : CallerSound c ∧ c.id = s.caller.id := by
  rcases hm with ⟨r, rfl⟩ | ⟨r, rfl⟩ | ⟨_, _, _, r, rfl⟩
  · exact ⟨callerSound_receive h hline r, receive_id r _⟩
  · exact ⟨callerSound_receive (c := s.caller.bindResult (some discardName) r) h hline r, receive_id r _⟩
  · exact ⟨callerSound_halfway h r, halfway_id r _⟩

theorem uartMoves_callerSound {k : Nat} {c c' : Caller} {u u' : Uart} (hm : UartMoves k c u c' u') (h : CallerSound c)
    (hline : c.line < c.program.length) : CallerSound c' ∧ c'.id = c.id := by
  rcases hm with ⟨_, _, rfl, _⟩ | ⟨_, _, rfl, _⟩ | ⟨_, _, rfl, _⟩ | ⟨r, _, _, rfl, _⟩
  · exact ⟨h, rfl⟩
  · exact ⟨h, rfl⟩
  · exact ⟨h, rfl⟩
  · exact ⟨callerSound_receive h hline r, receive_id r _⟩

/-! ## The whole state -/

section

variable {s : State} (h : Sound s)

include h

theorem Sound.spiAt (k : Nat) : SpiSound (s.spiAt k) := by
  by_cases hk : k < s.spis.length
  · exact h.1 _ (spiAt_mem hk)
  · rw [spiAt_absent s k hk]
    exact spiSound_absent

theorem Sound.uartAt (k : Nat) : UartSound (s.uartAt k) := by
  by_cases hk : k < s.uarts.length
  · exact h.2.1 _ (uartAt_mem hk)
  · rw [uartAt_absent s k hk]
    exact uartSound_absent

theorem Sound.callerSound : CallerSound s.caller := h.2.2.1 _ List.mem_cons_self

/-- The invariant asks nothing of the schedule and of the count of free values. -/
theorem Sound.replan (rest : List Turn) (d : Nat) : Sound { s with schedule := rest, draws := d } := h

theorem Sound.putSpi (k : Nat) {p : Spi} (hp : SpiSound p) (d : Nat) : Sound (s.putSpi k p d) := by
  obtain ⟨hspis, huarts, hcallers, hids⟩ := h
  refine ⟨fun q hq => ?_, huarts, hcallers, hids⟩
  rcases List.mem_or_eq_of_mem_set hq with hq | rfl
  · exact hspis q hq
  · exact hp

theorem Sound.putUart (k : Nat) {u : Uart} (hu : UartSound u) (d : Nat) : Sound (s.putUart k u d) := by
  obtain ⟨hspis, huarts, hcallers, hids⟩ := h
  refine ⟨hspis, fun v hv => ?_, hcallers, hids⟩
  rcases List.mem_or_eq_of_mem_set hv with hv | rfl
  · exact huarts v hv
  · exact hu

/-- Another record of the running caller, of the same number. -/
theorem Sound.withCaller {c : Caller} (hc : CallerSound c ∧ c.id = s.caller.id) : Sound { s with caller := c } := by
  obtain ⟨hspis, huarts, hcallers, hids⟩ := h
  refine ⟨hspis, huarts, fun c' hc' => ?_, ?_⟩
  · rcases List.mem_cons.mp hc' with rfl | hc'
    · exact hc.1
    · exact hcallers c' (List.mem_cons_of_mem _ hc')
  · rw [List.map_cons] at hids ⊢
    rwa [hc.2]

/-- The environment's turn keeps the invariant. -/
theorem Sound.lineMove (k : Nat) (m : LineMove) : Sound (lineMove k m s) :=
  h.putUart k (uartSound_move (h.uartAt k) m) s.draws

end

/-- R59: a switch of callers keeps them all, in another order. -/
theorem switchTo_callers_perm (j : Nat) (s : State) :
    ((switchTo j s).caller :: (switchTo j s).waiting).Perm (s.caller :: s.waiting) := by
  unfold switchTo
  cases hj : s.waiting[j]? with
  | none => exact List.Perm.refl _
  | some c =>
    obtain ⟨hlt, rfl⟩ := List.getElem?_eq_some_iff.mp hj
    calc
      List.Perm (s.waiting[j] :: s.waiting.set j s.caller) (s.waiting[j] :: s.caller :: s.waiting.eraseIdx j) :=
        (List.set_perm_cons_eraseIdx hlt _).cons _
      List.Perm _ (s.caller :: s.waiting[j] :: s.waiting.eraseIdx j) := List.Perm.swap _ _ _
      List.Perm _ (s.caller :: s.waiting) := (List.getElem_cons_eraseIdx_perm hlt).cons _

theorem switchTo_spis (j : Nat) (s : State) : (switchTo j s).spis = s.spis := by
  unfold switchTo
  split <;> rfl

theorem switchTo_uarts (j : Nat) (s : State) : (switchTo j s).uarts = s.uarts := by
  unfold switchTo
  split <;> rfl

theorem Sound.switchTo {s : State} (h : Sound s) (j : Nat) : Sound (switchTo j s) := by
  obtain ⟨hspis, huarts, hcallers, hids⟩ := h
  have hperm := switchTo_callers_perm j s
  refine ⟨?_, ?_, fun c hc => hcallers c (hperm.mem_iff.mp hc), ?_⟩
  · rwa [switchTo_spis]
  · rwa [switchTo_uarts]
  · exact (hperm.map Caller.id).nodup_iff.mpr hids

/-- Every operation of a caller that stands at a line of its program keeps the invariant. -/
theorem Sound.exec {s t : State} {i : Instr} (h : Sound s) (hline : s.caller.line < s.caller.program.length)
    (he : exec i s = .next t) : Sound t := by
  have hcaller := h.callerSound
  rcases exec_moves he with ⟨_, c, hc, rfl⟩ | ⟨_, k, p, d, c, _, hc, hp, rfl⟩ |
    ⟨_, k, u, r, _, hop, hu, rfl⟩ | ⟨_, k, c, u, d, _, _, hu, rfl⟩
  · exact h.withCaller (callerMoves_sound hc hcaller hline)
  · have hc := callerMoves_sound hc hcaller hline
    exact (h.putSpi k (spiMoves_sound hp (h.spiAt k)) d).withCaller hc
  · have hsound : UartSound u := by
      rcases hu with ⟨_, rfl⟩ | ⟨hh, rfl⟩
      · exact uartSound_unconfigured (h.uartAt k) hop
      · exact uartSound_setUp (h.uartAt k) hh
    exact (h.putUart k hsound s.draws).withCaller ⟨callerSound_receive hcaller hline r, receive_id r _⟩
  · exact (h.putUart k (uartMoves_sound hu (h.uartAt k)) d).withCaller (uartMoves_callerSound hu hcaller hline)

/-- The running caller's turn keeps the invariant. -/
theorem Sound.runCaller {s t : State} (h : Sound s) (hr : runCaller s = .next t) : Sound t := by
  obtain ⟨line, c, hfetch, _, he⟩ := runCaller_next hr
  have hline : s.caller.line < s.caller.program.length := (List.getElem?_eq_some_iff.mp hfetch).1
  exact (h.withCaller (c := { s.caller with dest := c.name }) ⟨h.callerSound, rfl⟩).exec hline he

/-- Settles O55, by the three kinds of turn a step can take. -/
theorem everyStepKeepsSound : Obligations.EveryStepKeepsSound := by
  intro s t h hstep
  obtain ⟨rest, d, hrun | ⟨k, m, rfl⟩ | ⟨j, rfl⟩⟩ := step_cases hstep
  · exact (h.replan rest d).runCaller hrun
  · exact (h.replan rest d).lineMove k m
  · exact (h.replan rest d).switchTo j

end Sys2Proof.Safety
end

-- ==== What an operation does to each part of the state ====
section
/-! PROOFS. An operation's effect on the running caller, on each SPI object and on each UART object, read off
`exec_moves` once; from it, what advances `cmd` (O13), what writes a configuration (O52), and that nothing writes a
construction input (O53). -/

namespace Sys2Proof.Safety

open Sys2Proof.Machine

/-! ## Each part of the state after an operation -/

/-- Replacing an SPI object by `p` is seen under its own number at most, and there as `p`. -/
theorem putSpi_spiAt_cases (s : State) (k : Nat) (p : Spi) (d j : Nat) :
    (s.putSpi k p d).spiAt j = s.spiAt j ∨ j = k ∧ (s.putSpi k p d).spiAt j = p := by
  by_cases hj : j = k
  · by_cases hk : k < s.spis.length
    · exact Or.inr ⟨hj, hj ▸ putSpi_spiAt_self s k p d hk⟩
    · refine Or.inl ?_
      rw [hj, spiAt_absent s k hk, spiAt_absent _ k (by simpa using hk)]
  · exact Or.inl (putSpi_spiAt_ne s k j p d hj)

/-- Replacing a UART object by `u` is seen under its own number at most, and there as `u`. -/
theorem putUart_uartAt_cases (s : State) (k : Nat) (u : Uart) (d j : Nat) :
    (s.putUart k u d).uartAt j = s.uartAt j ∨ j = k ∧ (s.putUart k u d).uartAt j = u := by
  by_cases hj : j = k
  · by_cases hk : k < s.uarts.length
    · exact Or.inr ⟨hj, hj ▸ putUart_uartAt_self s k u d hk⟩
    · refine Or.inl ?_
      rw [hj, uartAt_absent s k hk, uartAt_absent _ k (by simpa using hk)]
  · exact Or.inl (putUart_uartAt_ne s k j u d hj)

section

variable {s t : State} {i : Instr} (h : exec i s = .next t)

include h

/-- An operation leaves an SPI object alone or makes one of the moves of `SpiMoves` with it. -/
theorem exec_spiAt (j : Nat) : t.spiAt j = s.spiAt j ∨ SpiMoves i (s.spiAt j) (t.spiAt j) := by
  rcases exec_moves h with ⟨_, c, _, rfl⟩ | ⟨_, k, p, d, c, _, _, hp, rfl⟩ | ⟨_, k, u, r, _, _, _, rfl⟩ |
    ⟨_, k, c, u, d, _, _, _, rfl⟩
  · exact Or.inl rfl
  · rcases putSpi_spiAt_cases s k p d j with hj | ⟨rfl, hj⟩
    · exact Or.inl hj
    · refine Or.inr ?_
      change SpiMoves i (s.spiAt j) ((s.putSpi j p d).spiAt j)
      rwa [hj]
  · exact Or.inl rfl
  · exact Or.inl rfl

/-- An operation leaves a UART object alone, sets it up, or makes a sub-step of a register access with it. -/
theorem exec_uartAt (j : Nat) :
    t.uartAt j = s.uartAt j ∨
    (i = .uartSetup ∧
      (t.uartAt j = { s.uartAt j with configured := false } ∨ t.uartAt j = (s.uartAt j).setUp)) ∨
    (i ≠ .uartSetup ∧ UartMoves j s.caller (s.uartAt j) t.caller (t.uartAt j)) := by
  rcases exec_moves h with ⟨_, c, _, rfl⟩ | ⟨_, k, p, d, c, _, _, _, rfl⟩ | ⟨hi, k, u, r, _, _, hu, rfl⟩ |
    ⟨hi, k, c, u, d, _, _, hu, rfl⟩
  · exact Or.inl rfl
  · exact Or.inl rfl
  · rcases putUart_uartAt_cases s k u s.draws j with hj | ⟨rfl, hj⟩
    · exact Or.inl hj
    · refine Or.inr (Or.inl ⟨hi, ?_⟩)
      rcases hu with ⟨_, rfl⟩ | ⟨_, rfl⟩
      · exact Or.inl hj
      · exact Or.inr hj
  · rcases putUart_uartAt_cases s k u d j with hj | ⟨rfl, hj⟩
    · exact Or.inl hj
    · refine Or.inr (Or.inr ⟨hi, ?_⟩)
      change UartMoves j s.caller (s.uartAt j) c ((s.putUart j u d).uartAt j)
      rwa [hj]

/-- An operation's caller receives a result or is halfway through a double read, or makes a sub-step on the UART object
its command reaches. -/
theorem exec_caller :
    CallerMoves i s t.caller ∨
    ∃ k u, uartTarget s.caller i = some k ∧ UartMoves k s.caller (s.uartAt k) t.caller u := by
  rcases exec_moves h with ⟨_, c, hc, rfl⟩ | ⟨_, k, p, d, c, _, hc, _, rfl⟩ | ⟨_, k, u, r, _, _, _, rfl⟩ |
    ⟨_, k, c, u, d, _, hk, hu, rfl⟩
  · exact Or.inl hc
  · exact Or.inl hc
  · exact Or.inl (Or.inl ⟨r, rfl⟩)
  · exact Or.inr ⟨k, u, hk, hu⟩

/-- No operation constructs an object or destroys one. -/
theorem exec_objectCounts : t.spis.length = s.spis.length ∧ t.uarts.length = s.uarts.length := by
  rcases exec_moves h with ⟨_, c, _, rfl⟩ | ⟨_, k, p, d, c, _, _, _, rfl⟩ | ⟨_, k, u, r, _, _, _, rfl⟩ |
    ⟨_, k, c, u, d, _, _, _, rfl⟩ <;> simp

end

/-! ## The command index -/

/-- Settles O13: a caller that receives a result is past its line, one halfway through a double read has counted its
first read, and a UART sub-step that goes on leaves the caller's count alone. -/
theorem commandIndexAdvancesByOne : Obligations.CommandIndexAdvancesByOne := by
  intro i s t h
  rcases exec_caller h with (⟨r, hc⟩ | ⟨r, hc⟩ | ⟨hi, hne, _, r, hc⟩) | ⟨k, u, hk, hu⟩
  · rw [hc]
    exact Or.inl ⟨rfl, ⟨r, rfl⟩, Or.inl ⟨rfl, rfl⟩⟩
  · rw [hc]
    exact Or.inl ⟨rfl, ⟨r, rfl⟩, Or.inl ⟨rfl, rfl⟩⟩
  · rw [hc]
    exact Or.inl ⟨rfl, ⟨r, rfl⟩, Or.inr ⟨hi, hne, rfl, rfl⟩⟩
  · rcases hu with ⟨_, _, hc, _⟩ | ⟨_, hf, hc, _⟩ | ⟨_, hf, hc, _⟩ | ⟨r, _, _, hc, _⟩
    · rw [hc]
      exact Or.inr ⟨rfl, rfl, rfl, k, hk, rfl⟩
    · rw [hc]
      exact Or.inr ⟨rfl, rfl, rfl, k, hk, hf⟩
    · rw [hc]
      exact Or.inr ⟨rfl, rfl, rfl, k, hk, hf⟩
    · rw [hc]
      exact Or.inl ⟨rfl, ⟨r, rfl⟩, Or.inl ⟨rfl, rfl⟩⟩

/-! ## The bus configuration and the construction inputs -/

/-- A transfer writes no configuration (R104): of the moves of an SPI object only the setup's do (R100, R101). -/
theorem spiMoves_configuration {i : Instr} {p q : Spi} (hm : SpiMoves i p q) (hi : i ≠ .spiSetup) :
    q.configured = p.configured ∧ q.cpol = p.cpol ∧ q.cpha = p.cpha ∧ q.bitOrder = p.bitOrder ∧ q.sckHz = p.sckHz := by
  rcases hm with ⟨hs, _⟩ | ⟨_, _, _, line, x, rx, rest, _, rfl⟩
  · exact absurd hs hi
  · exact ⟨rfl, rfl, rfl, rfl, rfl⟩

/-- Driving select lines and noting exchanges leave the table's devices and lines (R25). -/
theorem spiMoves_columns {i : Instr} {p q : Spi} (hm : SpiMoves i p q) :
    q.lines.map SelectLine.device = p.lines.map SelectLine.device ∧
      q.lines.map SelectLine.line = p.lines.map SelectLine.line := by
  rcases hm with ⟨_, ⟨_, rfl⟩ | ⟨_, _, rfl⟩ | ⟨_, n, _, rfl⟩⟩ | ⟨_, _, _, line, x, rx, rest, _, rfl⟩
  case inl.inl => exact ⟨rfl, rfl⟩
  case inl.inr.inl => simp [Spi.setUp, Function.comp_def]
  case inl.inr.inr => simp [Spi.rejected, Function.comp_def]
  case inr =>
    exact ⟨onLine_devices p line (fun e => { e with level := .deasserted, log := x :: e.log }) fun _ => rfl,
      onLine_lines p line (fun e => { e with level := .deasserted, log := x :: e.log }) fun _ => rfl⟩

/-- No move of an SPI object writes its owner, its handle or its parameters (R22, R8). -/
theorem spiMoves_parameters {i : Instr} {p q : Spi} (hm : SpiMoves i p q) :
    q.owner = p.owner ∧ q.handle = p.handle ∧ q.sckParam = p.sckParam ∧ q.writeFlag = p.writeFlag := by
  rcases hm with ⟨_, ⟨_, rfl⟩ | ⟨_, _, rfl⟩ | ⟨_, _, _, rfl⟩⟩ | ⟨_, _, _, _, _, _, _, _, rfl⟩ <;>
    exact ⟨rfl, rfl, rfl, rfl⟩

/-- No sub-step of a register access writes a framer's owner or handle (R28), or its framing (R29, R30). -/
theorem uartMoves_configuration {k : Nat} {c c' : Caller} {u u' : Uart} (hm : UartMoves k c u c' u') :
    u'.owner = u.owner ∧ u'.handle = u.handle ∧ u'.configured = u.configured ∧ u'.baud = u.baud ∧
      u'.dataBits = u.dataBits ∧ u'.parity = u.parity ∧ u'.stopBits = u.stopBits := by
  rcases hm with ⟨_, _, _, packet, rfl⟩ | ⟨_, _, _, awaits, a, rest, rfl⟩ | ⟨_, _, _, a, rest, rfl⟩ | ⟨r, _, _, _, rfl⟩
  · exact ⟨rfl, rfl, rfl, rfl, rfl, rfl, rfl⟩
  · rw [onSend_frame]
    exact ⟨rfl, rfl, rfl, rfl, rfl, rfl, rfl⟩
  · rw [onReceive_frame]
    exact ⟨rfl, rfl, rfl, rfl, rfl, rfl, rfl⟩
  · exact ⟨rfl, rfl, rfl, rfl, rfl, rfl, rfl⟩

/-- What a caller is constructed with (R35, R36, R90, R213). -/
def SameCallerInputs (c c' : Caller) : Prop :=
  c'.bind = c.bind ∧ c'.ctx = c.ctx ∧ c'.program = c.program ∧ c'.id = c.id ∧ c'.spi = c.spi ∧ c'.uart = c.uart

theorem sameCallerInputs_receive (c : Caller) (r : OpResult) : SameCallerInputs c (c.receive r) := by
  simp [SameCallerInputs]

/-- Returning, binding a name, and noting where a command stands leave a caller's inputs. -/
theorem exec_sameCallerInputs {s t : State} {i : Instr} (h : exec i s = .next t) :
    SameCallerInputs s.caller t.caller := by
  rcases exec_caller h with (⟨r, hc⟩ | ⟨r, hc⟩ | ⟨_, _, _, r, hc⟩) | ⟨k, u, _, hu⟩
  · rw [hc]
    exact sameCallerInputs_receive _ r
  · rw [hc]
    exact sameCallerInputs_receive (s.caller.bindResult (some discardName) r) r
  · rw [hc]
    exact ⟨rfl, rfl, rfl, rfl, rfl, rfl⟩
  · rcases hu with ⟨_, _, hc, _⟩ | ⟨_, _, hc, _⟩ | ⟨_, _, hc, _⟩ | ⟨r, _, _, hc, _⟩ <;> rw [hc]
    · exact ⟨rfl, rfl, rfl, rfl, rfl, rfl⟩
    · exact ⟨rfl, rfl, rfl, rfl, rfl, rfl⟩
    · exact ⟨rfl, rfl, rfl, rfl, rfl, rfl⟩
    · exact sameCallerInputs_receive _ r

/-- Settles O52: an object that moved by no setup moved by a transfer or by a sub-step, and these write no
configuration. -/
theorem onlySetupConfigures : Obligations.OnlySetupConfigures := by
  intro s t i h
  refine ⟨fun hi j => ?_, fun hi j => ?_⟩
  · rcases exec_spiAt h j with hj | hm
    · rw [hj]
      exact ⟨rfl, rfl, rfl, rfl, rfl⟩
    · exact spiMoves_configuration hm hi
  · rcases exec_uartAt h j with hj | ⟨hs, _⟩ | ⟨_, hm⟩
    · rw [hj]
      exact ⟨rfl, rfl, rfl, rfl, rfl⟩
    · exact absurd hs hi
    · exact (uartMoves_configuration hm).2.2

/-- No operation writes the construction inputs of an SPI object (R22, R25, R8). -/
theorem exec_spiInputs {s t : State} {i : Instr} (h : exec i s = .next t) (j : Nat) :
    ((t.spiAt j).lines.map SelectLine.device = (s.spiAt j).lines.map SelectLine.device ∧
      (t.spiAt j).lines.map SelectLine.line = (s.spiAt j).lines.map SelectLine.line) ∧
    (t.spiAt j).owner = (s.spiAt j).owner ∧ (t.spiAt j).handle = (s.spiAt j).handle ∧
      (t.spiAt j).sckParam = (s.spiAt j).sckParam ∧ (t.spiAt j).writeFlag = (s.spiAt j).writeFlag := by
  rcases exec_spiAt h j with hj | hm
  · rw [hj]
    exact ⟨⟨rfl, rfl⟩, rfl, rfl, rfl, rfl⟩
  · exact ⟨spiMoves_columns hm, spiMoves_parameters hm⟩

/-- No operation writes the construction inputs of a UART object (R28). -/
theorem exec_uartInputs {s t : State} {i : Instr} (h : exec i s = .next t) (j : Nat) :
    (t.uartAt j).owner = (s.uartAt j).owner ∧ (t.uartAt j).handle = (s.uartAt j).handle := by
  rcases exec_uartAt h j with hj | ⟨_, hj | hj⟩ | ⟨_, hm⟩
  · rw [hj]
    exact ⟨rfl, rfl⟩
  · rw [hj]
    exact ⟨rfl, rfl⟩
  · rw [hj]
    exact ⟨rfl, rfl⟩
  · obtain ⟨howner, hhandle, _⟩ := uartMoves_configuration hm
    exact ⟨howner, hhandle⟩

/-- Settles O53, from the inputs of each SPI object, each UART object and the caller. -/
theorem constructionInputsNeverWritten : Obligations.ConstructionInputsNeverWritten := by
  intro s t i h
  obtain ⟨hbind, hctx, hprogram, hid, hspi, huart⟩ := exec_sameCallerInputs h
  obtain ⟨hspis, huarts⟩ := exec_objectCounts h
  refine ⟨fun j => ?_, hbind, hctx, hprogram, hid, hspi, huart, hspis, huarts⟩
  obtain ⟨⟨hdevices, hlines⟩, howner, hhandle, hsck, hflag⟩ := exec_spiInputs h j
  obtain ⟨howner', hhandle'⟩ := exec_uartInputs h j
  exact ⟨howner, howner', hhandle, hdevices, hlines, hsck, hflag, hhandle'⟩

end Sys2Proof.Safety
end

-- ==== The double read ====
section
/-! PROOFS. One answered or faulted access in the words of the claims, and from it the two reads of `spi.read2` (O27,
O29). -/

namespace Sys2Proof.Safety

open Sys2Proof.Machine

/-! ## What an exchange leaves, one fact each -/

section

variable {p q : Spi} {line : Nat} {x : Exchange} (h : Exchanged p q line x)

include h

theorem Exchanged.configured_eq : q.configured = p.configured := by
  obtain ⟨-, -, -, -, -, -, -, -, -, hconfigured, -⟩ := h
  exact hconfigured

theorem Exchanged.owner_eq : q.owner = p.owner := by
  obtain ⟨-, -, -, -, -, -, -, -, -, -, -, -, -, -, -, -, -, howner⟩ := h
  exact howner

/-- R61: an exchange changes no route. -/
theorem Exchanged.route_eq (device : Byte) : q.route device = p.route device := by
  obtain ⟨-, -, -, -, -, -, hdevices, hlines, -⟩ := h
  exact route_of_columns hdevices hlines device

end

/-- R240: after a read frame that was answered the line answers for its register. -/
theorem Exchanged.readyFor_read {p q : Spi} {line : Nat} {reg : Byte} {tx rx : SpiFrame}
    (h : Exchanged p q line ⟨.read reg, tx, some rx⟩) : q.readyFor line = some reg := by
  obtain ⟨-, -, -, hlog, -⟩ := h
  simp [Spi.readyFor, hlog]

/-- R33: of an answer with the pipeline, after an answered read of `reg`, the value is the peer's. -/
theorem PipelinedAnswer.frameValue_eq {p : Spi} {line : Nat} {peer : Byte → Value} {rx : SpiFrame} {reg : Byte}
    (h : PipelinedAnswer p line peer (.ok rx)) (hready : p.readyFor line = some reg) : frameValue rx = peer reg := by
  have hbytes := h reg rx hready rfl
  simp only [be32, List.cons.injEq, and_true] at hbytes
  obtain ⟨h1, h2, h3, h4⟩ := hbytes
  rw [frameValue, h1, h2, h3, h4, unbe32_bytes]

/-- An SPI object is read from the list of them alone. -/
theorem spiAt_congr {s t : State} (h : t.spis = s.spis) (k : Nat) : t.spiAt k = s.spiAt k := by
  rw [State.spiAt, State.spiAt, h]

/-! ## One access, by the environment's answer -/

/-- `OnlySpi` asks nothing of the running caller. -/
theorem OnlySpi.withCaller {k : Nat} {s t : State} (h : OnlySpi k s t) (c : Caller) :
    OnlySpi k s { t with caller := c } := h

/-- An access, however it ends, touches no object but its own (R50). -/
theorem perform_onlySpi {s s' : State} {k : Nat} {device : Byte} {form : FrameForm} {tx : SpiFrame}
    {reply : SpiFrame → ResultValue} {r : OpResult} (hp : spiPerform k device form tx reply s = .returned r s') :
    OnlySpi k s s' := by
  rcases spiPerform_cases k device form tx reply s with ⟨_, h⟩ | ⟨_, _, h⟩ |
    ⟨line, _, _, ⟨_, h⟩ | ⟨_, junk, rest, d, h⟩ | ⟨rx, rest, d, _, h⟩⟩ <;> rw [h] at hp <;> cases hp
  · exact ⟨rfl, rfl, rfl, rfl, fun _ _ => rfl⟩
  · exact ⟨rfl, rfl, rfl, rfl, fun _ _ => rfl⟩
  · exact onlySpi_of_putSpi s k _ rfl rfl rfl rfl
  · exact onlySpi_of_putSpi s k _ rfl rfl rfl rfl

section

variable {s : State} {k line : Nat} {device : Byte} (form : FrameForm) (tx : SpiFrame) (reply : SpiFrame → ResultValue)
  (hc : (s.spiAt k).configured = true) (hroute : (s.spiAt k).route device = some line)

include hc hroute

/-- Replacing the object of a configured transceiver by what a transfer leaves is one exchange on the line. -/
theorem exchanged_putSpi (x : Exchange) (rx : SpiFrame) (rest : List ExchangeAnswer) (d : Nat)
    (hrx : ∀ r, x.rx = some r → rx = r) :
    Exchanged (s.spiAt k) ((s.putSpi k ((s.spiAt k).afterTransfer line x rx rest) d).spiAt k) line x := by
  rw [putSpi_spiAt_self s k _ d (spi_exists_of_configured hc)]
  exact exchanged_afterTransfer hroute x rx rest hrx

/-- R102, R103: an answered access makes one exchange and returns its reply. -/
theorem spiPerform_of_ok {rx : SpiFrame} (hok : (drawExchange k s).1 = .ok rx) :
    ∃ s', spiPerform k device form tx reply s = .returned (.ok (reply rx)) s' ∧
      Exchanged (s.spiAt k) (s'.spiAt k) line ⟨form, tx, some rx⟩ := by
  rcases transfer_cases k line form tx s (spi_exists_of_configured hc) with ⟨ha, _⟩ | ⟨ha, _⟩ | ⟨_, rest, d, ha, e⟩
  · cases hok.symm.trans ha
  · cases hok.symm.trans ha
  · cases hok.symm.trans ha
    exact ⟨_, by simp [spiPerform, hc, hroute, e], exchanged_putSpi hc hroute _ rx rest d fun _ h => Option.some.inj h⟩

/-- R50, R104: a faulted access has made one exchange too, and returns TransportError. -/
theorem spiPerform_of_fault (hfault : (drawExchange k s).1 = .fault) :
    ∃ s', spiPerform k device form tx reply s = .returned (.err .transport) s' ∧
      Exchanged (s.spiAt k) (s'.spiAt k) line ⟨form, tx, none⟩ := by
  rcases transfer_cases k line form tx s (spi_exists_of_configured hc) with ⟨ha, _⟩ | ⟨_, junk, rest, d, e⟩ |
    ⟨_, _, _, ha, _⟩
  · cases hfault.symm.trans ha
  · exact ⟨_, by simp [spiPerform, hc, hroute, e], exchanged_putSpi hc hroute _ junk rest d fun _ h => nomatch h⟩
  · cases hfault.symm.trans ha

end

/-- R205: an access of a transceiver that is not configured returns before any transfer. -/
theorem spiPerform_of_unconfigured {s : State} {k : Nat} (hc : (s.spiAt k).configured = false) (device : Byte)
    (form : FrameForm) (tx : SpiFrame) (reply : SpiFrame → ResultValue) :
    spiPerform k device form tx reply s = .returned (.err .configuration) s := by
  simp [spiPerform, hc]

/-- R205: an access of a device that has no route returns before any transfer. -/
theorem spiPerform_of_unrouted {s : State} {k : Nat} {device : Byte} (hc : (s.spiAt k).configured = true)
    (hroute : (s.spiAt k).route device = none) (form : FrameForm) (tx : SpiFrame) (reply : SpiFrame → ResultValue) :
    spiPerform k device form tx reply s = .returned (.err .unknownDevice) s := by
  simp [spiPerform, hc, hroute]

/-! ## The two reads -/

theorem exec_spiRead2 (s : State) (reg device : Byte) :
    exec (.spiRead2 reg device) s = spiRead2On s.caller.spi reg device s := rfl

section

variable {s : State} {reg device : Byte} (howner : OwnsSpi s s.caller.spi) (hreg : reg.toNat < 0x80)

include howner hreg

/-- R95: a first read that succeeds leaves its caller halfway, its value bound to `_discard`. -/
theorem spiRead2_first_ok {line : Nat} {rx : SpiFrame} (hfirst : s.caller.inFlight ≠ some .secondRead)
    (hc : (s.spiAt s.caller.spi).configured = true) (hroute : (s.spiAt s.caller.spi).route device = some line)
    (hok : (drawExchange s.caller.spi s).1 = .ok rx) :
    ∃ t, exec (.spiRead2 reg device) s = .next t ∧ OnlySpi s.caller.spi s t ∧
      Exchanged (s.spiAt s.caller.spi) (t.spiAt s.caller.spi) line ⟨.read reg, spiReadFrame reg, some rx⟩ ∧
      t.caller = s.caller.halfway (.ok (.word (frameValue rx))) := by
  obtain ⟨s', hperform, hexchanged⟩ := spiPerform_of_ok (.read reg) (spiReadFrame reg)
    (fun rx => .word (frameValue rx)) hc hroute hok
  refine ⟨{ s' with caller := s'.caller.halfway (.ok (.word (frameValue rx))) }, ?_,
    (perform_onlySpi hperform).withCaller _, hexchanged, ?_⟩
  · rw [exec_spiRead2, spiRead2On_eq hreg howner hperform, if_neg hfirst]
    rfl
  · rw [perform_caller hperform]

/-- R95: a first read that ends in an error returns it, and has bound it to `_discard` too (log entry 11). -/
theorem spiRead2_first_err {e : Error} {s' : State} (hfirst : s.caller.inFlight ≠ some .secondRead)
    (hperform : spiPerform s.caller.spi device (.read reg) (spiReadFrame reg) (fun rx => .word (frameValue rx)) s =
      .returned (.err e) s') :
    ∃ t, exec (.spiRead2 reg device) s = .next t ∧ OnlySpi s.caller.spi s t ∧ t.spis = s'.spis ∧
      Returned { s with caller := s.caller.bindResult (some discardName) (.err e) } t (.err e) := by
  refine ⟨State.received { s' with caller := s'.caller.bindResult (some discardName) (.err e) } (.err e), ?_,
    (perform_onlySpi hperform).withCaller _, rfl, returned_received ?_⟩
  · rw [exec_spiRead2, spiRead2On_eq hreg howner hperform, if_neg hfirst]
    rfl
  · rw [perform_caller hperform]

/-- R95: a second read that is answered returns its value. -/
theorem spiRead2_second_ok {line : Nat} {rx : SpiFrame} (hsecond : s.caller.inFlight = some .secondRead)
    (hc : (s.spiAt s.caller.spi).configured = true) (hroute : (s.spiAt s.caller.spi).route device = some line)
    (hok : (drawExchange s.caller.spi s).1 = .ok rx) :
    ∃ u, exec (.spiRead2 reg device) s = .next u ∧ OnlySpi s.caller.spi s u ∧
      Exchanged (s.spiAt s.caller.spi) (u.spiAt s.caller.spi) line ⟨.read reg, spiReadFrame reg, some rx⟩ ∧
      Returned s u (.ok (.word (frameValue rx))) := by
  obtain ⟨s', hperform, hexchanged⟩ := spiPerform_of_ok (.read reg) (spiReadFrame reg)
    (fun rx => .word (frameValue rx)) hc hroute hok
  refine ⟨s'.received (.ok (.word (frameValue rx))), ?_, (perform_onlySpi hperform).withCaller _, hexchanged,
    returned_received (perform_caller hperform)⟩
  rw [exec_spiRead2, spiRead2On_eq hreg howner hperform, if_pos hsecond]

end

/-- Settles O27: an answered first read leaves its caller halfway; each of the three errors, two of them before any
transfer, ends the pseudo-operation. -/
theorem doubleReadFirstHalf : Obligations.DoubleReadFirstHalf := by
  intro s reg device howner hreg hfirst
  refine ⟨fun line rx hc hroute hok => spiRead2_first_ok howner hreg hfirst hc hroute hok, ?_⟩
  rintro e (⟨hc, rfl⟩ | ⟨hc, hroute, rfl⟩ | ⟨hc, ⟨line, hroute⟩, hfault, rfl⟩)
  · obtain ⟨t, hexec, honly, hspis, hreturned⟩ :=
      spiRead2_first_err howner hreg hfirst (spiPerform_of_unconfigured hc device _ _ _)
    exact ⟨t, hexec, honly, fun _ => hspis, fun _ he => (nomatch he), hreturned⟩
  · obtain ⟨t, hexec, honly, hspis, hreturned⟩ :=
      spiRead2_first_err howner hreg hfirst (spiPerform_of_unrouted hc hroute _ _ _)
    exact ⟨t, hexec, honly, fun _ => hspis, fun _ he => (nomatch he), hreturned⟩
  · obtain ⟨s', hperform, hexchanged⟩ := spiPerform_of_fault (.read reg) (spiReadFrame reg)
      (fun rx => .word (frameValue rx)) hc hroute hfault
    obtain ⟨t, hexec, honly, hspis, hreturned⟩ := spiRead2_first_err howner hreg hfirst hperform
    refine ⟨t, hexec, honly, fun he => absurd rfl he, fun line' _ hroute' => ?_, hreturned⟩
    obtain rfl : line = line' := Option.some.inj (hroute.symm.trans hroute')
    rwa [spiAt_congr hspis]

/-- Settles O29: after the first read the line answers for the register, so the pipeline makes the second read's value
the peer's. -/
theorem doubleReadReturnsPeerValue : Obligations.DoubleReadReturnsPeerValue := by
  intro s t reg device line rx rx' peer howner hreg hfirst hc hroute hok hexec hok' hpipeline
  obtain ⟨t', hexec', -, hexchanged, hcaller⟩ := spiRead2_first_ok howner hreg hfirst hc hroute hok
  obtain rfl : t = t' := Host.Outcome.next.inj (hexec.symm.trans hexec')
  have hspi : t.caller.spi = s.caller.spi := by rw [hcaller, halfway_spi]
  have hid : t.caller.id = s.caller.id := by rw [hcaller, halfway_id]
  have howner' : OwnsSpi t t.caller.spi := by
    rw [OwnsSpi, hspi, hid, hexchanged.owner_eq]
    exact howner
  have hpeer : frameValue rx' = peer reg := hpipeline.frameValue_eq hexchanged.readyFor_read
  obtain ⟨u, hexec'', honly, hexchanged', hreturned⟩ :=
    spiRead2_second_ok (line := line) (rx := rx') howner' hreg (by rw [hcaller, halfway_inFlight])
      (by rw [hspi, hexchanged.configured_eq, hc]) (by rw [hspi, hexchanged.route_eq, hroute]) (by rw [hspi, hok'])
  rw [hspi] at honly hexchanged'
  rw [hpeer] at hreturned
  refine ⟨u, hexec'', hreturned, ?_, ?_, ?_, honly, hexchanged'⟩
  · rw [hreturned, hcaller, halfway_cmd]
  · rw [hreturned, hcaller, halfway_line]
  · rw [hreturned, hcaller, halfway_results, List.append_assoc]
    rfl

end Sys2Proof.Safety
end

-- ==== Turns, and the state after construction ====
section
/-! PROOFS. What a turn of the running caller (O8) and of the environment (O11) does, and the state after construction
(O57, O58). -/

namespace Sys2Proof.Safety

open Sys2Proof.Machine

/-! ## The running caller's turn -/

section

variable {s : State} {line : Bytes}

theorem runCaller_of_command {c : Command} (hfetch : fetchLine s = some line) (hdecode : decode line = .ok c) :
    runCaller s = exec c.op { s with caller := { s.caller with dest := c.name } } := by
  simp only [runCaller, hfetch, hdecode]

theorem runCaller_of_noCommand {e : DecodeError} (hfetch : fetchLine s = some line) (hdecode : decode line = .error e) :
    runCaller s = .refused (.noCommand e) := by
  simp only [runCaller, hfetch, hdecode]

theorem runCaller_of_ended (hfetch : fetchLine s = none) : runCaller s = .fault .programEnded := by
  simp only [runCaller, hfetch]

end

/-- Settles O8, by the line fetched and what it decodes to. -/
theorem stepRunsDecodedCommand : Obligations.StepRunsDecodedCommand := by
  intro s rest hs
  have hstep : step s = runCaller { s with schedule := rest } := step_of_cons hs
  refine ⟨fun line c hline hdecode => ?_, fun line e hline hdecode => ?_, fun hline => ?_⟩ <;> rw [hstep]
  · exact runCaller_of_command hline hdecode
  · exact runCaller_of_noCommand hline hdecode
  · exact runCaller_of_ended hline

/-! ## The environment's turn -/

section

variable {u : Uart} {n : Nat} {b : Byte} {bs : Bytes}

theorem move_emit (h : u.txLeft = b :: bs) : u.move .emit = { u with wire := u.wire ++ [b], txLeft := bs } := by
  simp only [Uart.move, h]

theorem move_emitOld (h : u.txOld[n]? = some (b :: bs)) :
    u.move (.emitOld n) = { u.leaveOld n bs with wire := u.wire ++ [b] } := by
  simp only [Uart.move, h]

theorem move_lose (h : u.txLeft = b :: bs) :
    u.move .lose = if u.op = .sending then u else { u with txLeft := bs } := by
  simp only [Uart.move, h, List.tail_cons]

theorem move_loseOld (h : u.txOld[n]? = some (b :: bs)) : u.move (.loseOld n) = u.leaveOld n bs := by
  simp only [Uart.move, h]

end

/-- R131, R132: the environment's turn moves the line of one framer and takes the turn from the schedule; `v` is what
the move makes of the framer. -/
theorem step_line {s : State} {k : Nat} {m : LineMove} {rest : List Turn} (hk : k < s.uarts.length)
    (hs : s.schedule = .line k m :: rest) {v : Uart} (hv : (s.uartAt k).move m = v) :
    ∃ t, step s = .next t ∧ t.caller = s.caller ∧ t.schedule = rest ∧ OnlyUart k { s with schedule := rest } t ∧
      t.uartAt k = v := by
  refine ⟨lineMove k m { s with schedule := rest }, step_of_cons hs, rfl, rfl, ?_, ?_⟩
  · exact onlyUart_of_putUart _ k _ rfl rfl rfl rfl
  · rw [← hv]
    exact setUart_uartAt_self { s with schedule := rest } k _ hk

/-- Settles O11: each clause is the environment's turn, with what its move makes of the framer. -/
theorem environmentTurnsMoveTheLine : Obligations.EnvironmentTurnsMoveTheLine := by
  intro s k rest hk
  refine ⟨fun bs hs => ?_, fun b bs hs hleft => ?_, fun n b bs hs hold => ?_, fun b bs hs hleft => ?_,
    fun n b bs hs hold => ?_⟩
  · exact step_line hk hs rfl
  · exact step_line hk hs (move_emit hleft)
  · exact step_line hk hs (move_emitOld hold)
  · exact step_line hk hs (move_lose hleft)
  · exact step_line hk hs (move_loseOld hold)

/-! ## After construction -/

theorem reset_spiAt (k : Nat) : State.reset.spiAt k = Spi.constructed ∨ State.reset.spiAt k = Spi.absent := by
  cases k with
  | zero => exact Or.inl rfl
  | succ k => exact Or.inr rfl

theorem reset_uartAt (k : Nat) : State.reset.uartAt k = Uart.constructed ∨ State.reset.uartAt k = Uart.absent := by
  cases k with
  | zero => exact Or.inl rfl
  | succ k => exact Or.inr rfl

theorem spiSound_constructed : SpiSound Spi.constructed :=
  spiSound_of_unconfigured ⟨List.nodup_singleton _, List.nodup_singleton _⟩ rfl

theorem uartSound_constructed : UartSound Uart.constructed :=
  ⟨fun h => (nomatch h), fun h => absurd rfl h, List.not_mem_nil⟩

theorem callerSound_constructed : CallerSound Caller.constructed := ⟨rfl, le_rfl, le_rfl⟩

theorem sound_reset : Sound State.reset :=
  ⟨List.forall_mem_singleton.mpr spiSound_constructed, List.forall_mem_singleton.mpr uartSound_constructed,
    List.forall_mem_singleton.mpr callerSound_constructed, List.nodup_singleton _⟩

/-- A caller in the middle of nothing is where its operation asks it to be. -/
theorem atItsOperation_of_idle {s : State} {c : Caller} (h : c.inFlight = none) : AtItsOperation s c := by
  simp [AtItsOperation, h]

theorem oneCallerEach_reset : OneCallerEach State.reset := by
  refine ⟨List.forall_mem_singleton.mpr (atItsOperation_of_idle rfl), fun k => ?_⟩
  have hidle : (State.reset.uartAt k).op = .idle := by
    rcases reset_uartAt k with h | h <;> rw [h] <;> rfl
  rw [if_pos hidle]
  rfl

/-- Settles O57: after construction nothing is configured, no operation runs and no caller has begun. -/
theorem resetMeetsTheInvariants : Obligations.ResetMeetsTheInvariants := ⟨sound_reset, oneCallerEach_reset⟩

/-- A line of a transceiver on which nothing was exchanged, or that is not in the table, has no last frame (R27). -/
theorem lastTx_of_logs_nil {p : Spi} (h : ∀ e ∈ p.lines, e.log = []) (l : Nat) : p.lastTx l = none := by
  unfold Spi.lastTx Spi.exchanges
  cases hfind : p.lines.find? (fun e => e.line == l) with
  | none => rfl
  | some e => simp [h e (List.mem_of_find?_eq_some hfind)]

/-- Settles O58: every number reads as the constructed object or as the absent one, and both have these values. -/
theorem resetValues : Obligations.ResetValues := by
  refine ⟨rfl, rfl, fun k => ?_, fun k => ?_⟩
  · rcases reset_spiAt k with h | h <;> rw [h]
    · exact ⟨rfl, lastTx_of_logs_nil (List.forall_mem_singleton.mpr rfl)⟩
    · exact ⟨rfl, lastTx_of_logs_nil (List.forall_mem_nil _)⟩
  · rcases reset_uartAt k with h | h <;> rw [h]
    · exact ⟨rfl, rfl, rfl, rfl, rfl, rfl⟩
    · exact ⟨rfl, rfl, rfl, rfl, rfl, rfl⟩

end Sys2Proof.Safety
end

-- ==== One caller each, and turns between callers ====
section
/-! PROOFS. Every step keeps it that a UART object runs an operation exactly when one caller, and one only, is in the middle
of it (O56), by a balance over one step: an object gains or loses its operation together with the running caller. And what
a switch between callers does (O10). -/

namespace Sys2Proof.Safety

open Sys2Proof.Machine

/-! ## The balance of operations and callers -/

/-- R31: the number of operations a framer runs, none or one. -/
def uartRuns (u : Uart) : Nat := if u.op = .idle then 0 else 1

/-- The number of operations on UART object `k` a caller is in the middle of, none or one. -/
def inMiddle (c : Caller) (k : Nat) : Nat := if c.inFlight == some (.uart k) then 1 else 0

/-- A framer's running operations and a caller's place change together. -/
def Balanced (k : Nat) (c : Caller) (u : Uart) (c' : Caller) (u' : Uart) : Prop :=
  uartRuns u' + inMiddle c k = uartRuns u + inMiddle c' k

theorem uartRuns_of_idle {u : Uart} (h : u.op = .idle) : uartRuns u = 0 := if_pos h

theorem uartRuns_of_busy {u : Uart} (h : u.op ≠ .idle) : uartRuns u = 1 := if_neg h

theorem inMiddle_of_eq {c : Caller} {k : Nat} (h : c.inFlight = some (.uart k)) : inMiddle c k = 1 := by
  simp [inMiddle, h]

theorem inMiddle_of_ne {c : Caller} {k : Nat} (h : c.inFlight ≠ some (.uart k)) : inMiddle c k = 0 := by
  simp [inMiddle, h]

theorem inMiddle_eq_of_ne {c c' : Caller} {k : Nat} (h : c.inFlight ≠ some (.uart k))
    (h' : c'.inFlight ≠ some (.uart k)) : inMiddle c k = inMiddle c' k := by
  rw [inMiddle_of_ne h, inMiddle_of_ne h']

theorem balanced_of_same {k : Nat} {c c' : Caller} {u u' : Uart} (hop : u'.op = u.op)
    (hc : inMiddle c k = inMiddle c' k) : Balanced k c u c' u' := by
  rw [Balanced, uartRuns, uartRuns, hop, hc]

theorem balanced_of_busy {k : Nat} {c : Caller} {u u' : Uart} (h : u.op ≠ .idle) (h' : u'.op ≠ .idle) :
    Balanced k c u c u' := by
  rw [Balanced, uartRuns_of_busy h, uartRuns_of_busy h']

/-- R59, R213: the claim's count, with the running caller told apart from the waiting ones. -/
theorem callersCount_eq (s : State) (k : Nat) :
    ((s.caller :: s.waiting).countP (fun c => c.inFlight == some (.uart k))) =
      s.waiting.countP (fun c => c.inFlight == some (.uart k)) + inMiddle s.caller k := List.countP_cons

/-- R133, R134, R135: while it sends, a framer's operation has not returned. -/
theorem onSend_busy (u : Uart) (awaits : Bool) (a : SendAnswer) (h : u.op ≠ .idle) : (u.onSend awaits a).op ≠ .idle := by
  cases a with
  | pending => exact h
  | done => cases awaits <;> exact nofun
  | fault => exact nofun
  | expire => exact nofun

/-- R134, R135: while it receives, a framer's operation has not returned. -/
theorem onReceive_busy (u : Uart) (a : ReceiveAnswer) (h : u.op ≠ .idle) : (u.onReceive a).op ≠ .idle := by
  cases a with
  | proceed =>
    simp only [Uart.onReceive, Uart.takeResponse]
    split
    · split <;> exact nofun
    · exact h
  | fault n => exact nofun
  | expire n => exact nofun

theorem busy_of_verdict {u : Uart} {r : OpResult} (h : u.verdict? = some r) : u.op ≠ .idle := by
  intro hidle
  simp [Uart.verdict?, hidle] at h

/-- A sub-step starts the object's operation together with its caller, goes on with both, or ends both. -/
theorem uartMoves_balanced {k : Nat} {c c' : Caller} {u u' : Uart} (hm : UartMoves k c u c' u')
    (hfree : u.op = .idle → ∀ j, c.inFlight ≠ some (.uart j)) : Balanced k c u c' u' := by
  rcases hm with ⟨hidle, _, rfl, packet, rfl⟩ | ⟨hop, _, rfl, awaits, a, rest, rfl⟩ | ⟨hop, _, rfl, a, rest, rfl⟩ |
    ⟨r, hv, hf, rfl, rfl⟩
  · rw [Balanced, uartRuns_of_idle hidle, inMiddle_of_ne (hfree hidle k), inMiddle_of_eq rfl,
      uartRuns_of_busy (by exact nofun)]
  · have hbusy : u.op ≠ .idle := by simp [hop]
    exact balanced_of_busy hbusy (onSend_busy u awaits a hbusy)
  · have hbusy : u.op ≠ .idle := by simp [hop]
    exact balanced_of_busy hbusy (onReceive_busy u a hbusy)
  · rw [Balanced, uartRuns_of_busy (busy_of_verdict hv), uartRuns_of_idle rfl, inMiddle_of_eq hf,
      inMiddle_of_ne (by simp)]

/-- A sub-step on object `k` is no change of a caller's place on another object. -/
theorem uartMoves_inMiddle_ne {k j : Nat} {c c' : Caller} {u u' : Uart} (hm : UartMoves k c u c' u')
    (hfree : u.op = .idle → ∀ j, c.inFlight ≠ some (.uart j)) (hj : j ≠ k) : inMiddle c j = inMiddle c' j := by
  rcases hm with ⟨hidle, _, rfl, _⟩ | ⟨_, _, rfl, _⟩ | ⟨_, _, rfl, _⟩ | ⟨r, _, hf, rfl, _⟩
  · exact inMiddle_eq_of_ne (hfree hidle j) (by simpa using hj.symm)
  · rfl
  · rfl
  · exact inMiddle_eq_of_ne (by simpa [hf] using hj.symm) (by simp)

/-- Only an object that was constructed makes a sub-step. -/
theorem uartMoves_exists {s : State} {k : Nat} {c c' : Caller} {u : Uart} (hm : UartMoves k c (s.uartAt k) c' u) :
    k < s.uarts.length := by
  rcases hm with ⟨_, hc, _⟩ | ⟨hop, _⟩ | ⟨hop, _⟩ | ⟨r, hv, _⟩
  · exact uart_exists_of_configured hc
  · exact uart_exists_of_op (by simp [hop])
  · exact uart_exists_of_op (by simp [hop])
  · exact uart_exists_of_op (busy_of_verdict hv)

/-- A caller that returned, or is halfway through a double read, is in the middle of no UART operation. -/
theorem callerMoves_not_uart {i : Instr} {s : State} {c : Caller} (hm : CallerMoves i s c) (k : Nat) :
    c.inFlight ≠ some (.uart k) := by
  rcases hm with ⟨r, rfl⟩ | ⟨r, rfl⟩ | ⟨_, _, _, r, rfl⟩ <;> simp

/-! ## A caller at its operation -/

/-- Where a caller stands is told by the caller and by who owns each object. -/
theorem AtItsOperation.of_owners {s t : State} {c : Caller} (h : AtItsOperation s c)
    (hspi : ∀ k, (t.spiAt k).owner = (s.spiAt k).owner) (huart : ∀ k, (t.uartAt k).owner = (s.uartAt k).owner) :
    AtItsOperation t c := by
  unfold AtItsOperation
  simp only [hspi, huart]
  exact h

/-- R95: the first read leaves its caller at the `spi.read2` it is at. -/
theorem callerMoves_atItsOperation {i : Instr} {s : State} {c : Caller} {line : Bytes} {name : Option Bytes}
    (hm : CallerMoves i s c) (hfetch : s.caller.program[s.caller.line]? = some line)
    (hdecode : decode line = .ok ⟨i, name⟩) : AtItsOperation s c := by
  rcases hm with ⟨r, rfl⟩ | ⟨r, rfl⟩ | ⟨⟨reg, device, rfl⟩, _, howner, r, rfl⟩
  · exact atItsOperation_of_idle rfl
  · exact atItsOperation_of_idle rfl
  · exact ⟨nofun, fun _ => ⟨howner, line, name, reg, device, hfetch, hdecode⟩⟩

/-- R133, R134: a sub-step that does not return leaves its caller at the command whose object it is. -/
theorem uartMoves_atItsOperation {i : Instr} {s : State} {k : Nat} {c : Caller} {u u' : Uart} {line : Bytes}
    {name : Option Bytes} (hm : UartMoves k s.caller u c u') (h : AtItsOperation s s.caller) (howner : OwnsUart s k)
    (htarget : uartTarget s.caller i = some k) (hfetch : s.caller.program[s.caller.line]? = some line)
    (hdecode : decode line = .ok ⟨i, name⟩) : AtItsOperation s c := by
  rcases hm with ⟨_, _, rfl, _⟩ | ⟨_, _, rfl, _⟩ | ⟨_, _, rfl, _⟩ | ⟨r, _, _, rfl, _⟩
  · refine ⟨fun j hj => ?_, nofun⟩
    obtain rfl : k = j := by simpa using hj
    exact ⟨howner, line, ⟨i, name⟩, hfetch, hdecode, htarget⟩
  · exact h
  · exact h
  · exact atItsOperation_of_idle rfl

/-! ## The environment's moves -/

/-- A move of the environment is seen on its own line at most. -/
theorem lineMove_uartAt_cases (k : Nat) (m : LineMove) (s : State) (j : Nat) :
    (lineMove k m s).uartAt j = s.uartAt j ∨ j = k ∧ (lineMove k m s).uartAt j = (s.uartAt k).move m :=
  putUart_uartAt_cases s k ((s.uartAt k).move m) s.draws j

theorem move_owner (u : Uart) (m : LineMove) : (u.move m).owner = u.owner := by rw [move_frame]

theorem move_op (u : Uart) (m : LineMove) : (u.move m).op = u.op := by rw [move_frame]

/-! ## The whole state -/

section

variable {s : State} (h : OneCallerEach s)

include h

theorem OneCallerEach.atItsOperation : AtItsOperation s s.caller := h.1 _ List.mem_cons_self

/-- The claim's count, as a balance between an object and the callers. -/
theorem OneCallerEach.count (k : Nat) :
    s.waiting.countP (fun c => c.inFlight == some (.uart k)) + inMiddle s.caller k = uartRuns (s.uartAt k) := by
  rw [← callersCount_eq, h.2 k]
  rfl

/-- R143: the object of the operation the running caller is in the middle of runs it. -/
theorem OneCallerEach.busy {k : Nat} (hf : s.caller.inFlight = some (.uart k)) : (s.uartAt k).op ≠ .idle := by
  intro hidle
  have hcount := h.count k
  rw [inMiddle_of_eq hf, uartRuns_of_idle hidle] at hcount
  omega

/-- A caller whose command reaches no object that runs an operation is in the middle of none. -/
theorem OneCallerEach.not_inMiddle {i : Instr} {line : Bytes} {name : Option Bytes}
    (hfetch : s.caller.program[s.caller.line]? = some line) (hdecode : decode line = .ok ⟨i, name⟩)
    (hidle : ∀ k, uartTarget s.caller i = some k → (s.uartAt k).op = .idle) (k : Nat) :
    s.caller.inFlight ≠ some (.uart k) := by
  intro hf
  obtain ⟨-, line', cmd, hfetch', hdecode', htarget⟩ := h.atItsOperation.1 k hf
  obtain rfl : line = line' := Option.some.inj (hfetch.symm.trans hfetch')
  obtain rfl : ⟨i, name⟩ = cmd := Except.ok.inj (hdecode.symm.trans hdecode')
  exact h.busy hf (hidle k htarget)

/-- The invariant is kept by a change of the running caller and of objects, that keeps the owners, leaves the caller at
its operation and is balanced on every UART object. -/
theorem OneCallerEach.of_balance {t : State} (hwaiting : t.waiting = s.waiting)
    (hspi : ∀ k, (t.spiAt k).owner = (s.spiAt k).owner) (huart : ∀ k, (t.uartAt k).owner = (s.uartAt k).owner)
    (hplace : AtItsOperation s t.caller)
    (hbalance : ∀ k, Balanced k s.caller (s.uartAt k) t.caller (t.uartAt k)) : OneCallerEach t := by
  refine ⟨fun c hc => ?_, fun k => ?_⟩
  · rw [hwaiting] at hc
    rcases List.mem_cons.mp hc with rfl | hc
    · exact hplace.of_owners hspi huart
    · exact (h.1 c (List.mem_cons_of_mem _ hc)).of_owners hspi huart
  · have hcount := h.count k
    have hk := hbalance k
    unfold Balanced at hk
    rw [callersCount_eq, hwaiting]
    change _ = uartRuns (t.uartAt k)
    omega

/-- R131, R132: the environment's turn starts no operation and ends none. -/
theorem OneCallerEach.lineMove (k : Nat) (m : LineMove) : OneCallerEach (lineMove k m s) := by
  have hat : ∀ j, ((Machine.lineMove k m s).uartAt j).owner = (s.uartAt j).owner ∧
      ((Machine.lineMove k m s).uartAt j).op = (s.uartAt j).op := by
    intro j
    rcases lineMove_uartAt_cases k m s j with hj | ⟨rfl, hj⟩ <;> rw [hj]
    · exact ⟨rfl, rfl⟩
    · exact ⟨move_owner _ m, move_op _ m⟩
  refine h.of_balance rfl (fun _ => rfl) (fun j => (hat j).1) h.atItsOperation fun j => ?_
  exact balanced_of_same (hat j).2 rfl

/-- R59: a switch reorders the callers. -/
theorem OneCallerEach.switchTo (j : Nat) : OneCallerEach (switchTo j s) := by
  have hperm := switchTo_callers_perm j s
  have huart : ∀ k, (Machine.switchTo j s).uartAt k = s.uartAt k := fun k => by
    rw [State.uartAt, State.uartAt, switchTo_uarts]
  refine ⟨fun c hc => ?_, fun k => ?_⟩
  · refine (h.1 c (hperm.mem_iff.mp hc)).of_owners (fun k => ?_) fun k => by rw [huart]
    rw [spiAt_congr (switchTo_spis j s)]
  · rw [hperm.countP_eq, huart]
    exact h.2 k

/-- Every command of the running caller keeps the invariant. -/
theorem OneCallerEach.exec {t : State} {i : Instr} {line : Bytes} {name : Option Bytes}
    (hfetch : s.caller.program[s.caller.line]? = some line) (hdecode : decode line = .ok ⟨i, name⟩)
    (he : exec i s = .next t) : OneCallerEach t := by
  have hspi k := (exec_spiInputs he k).2.1
  have huart k := (exec_uartInputs he k).1
  have hfree := h.not_inMiddle hfetch hdecode
  rcases exec_moves he with ⟨hidle, c, hc, rfl⟩ | ⟨hnone, k, p, d, c, _, hc, _, rfl⟩ |
    ⟨rfl, k, u, r, _, hop, hu, rfl⟩ | ⟨_, k, c, u, d, howner, htarget, hu, rfl⟩
  · refine h.of_balance rfl hspi huart (callerMoves_atItsOperation hc hfetch hdecode) fun j => ?_
    exact balanced_of_same rfl (inMiddle_eq_of_ne (hfree hidle j) (callerMoves_not_uart hc j))
  · refine h.of_balance rfl hspi huart (callerMoves_atItsOperation hc hfetch hdecode) fun j => ?_
    exact balanced_of_same rfl (inMiddle_eq_of_ne (hfree (by simp [hnone]) j) (callerMoves_not_uart hc j))
  · refine h.of_balance rfl hspi huart (atItsOperation_of_idle rfl) fun j => ?_
    have hfree' := hfree (by simp [uartTarget]) j
    refine balanced_of_same ?_ (inMiddle_eq_of_ne hfree' (by simp))
    rcases putUart_uartAt_cases s k u s.draws j with hj | ⟨rfl, hj⟩
    · exact (congrArg Uart.op hj :)
    · rcases hu with ⟨_, rfl⟩ | ⟨_, rfl⟩ <;> exact (congrArg Uart.op hj :)
  · have hplace := uartMoves_atItsOperation hu h.atItsOperation howner htarget hfetch hdecode
    have hfree' : (s.uartAt k).op = .idle → ∀ j, s.caller.inFlight ≠ some (.uart j) := fun hidle =>
      hfree fun k' hk' => Option.some.inj (htarget.symm.trans hk') ▸ hidle
    refine h.of_balance rfl hspi huart hplace fun j => ?_
    change Balanced j s.caller (s.uartAt j) c ((s.putUart k u d).uartAt j)
    by_cases hj : j = k
    · rw [hj, putUart_uartAt_self s k u d (uartMoves_exists hu)]
      exact uartMoves_balanced hu hfree'
    · rw [putUart_uartAt_ne s k j u d hj]
      exact balanced_of_same rfl (uartMoves_inMiddle_ne hu hfree' hj)

/-- The running caller's turn keeps the invariant: the result's name is noted, and then its command runs. -/
theorem OneCallerEach.runCaller {t : State} (hr : runCaller s = .next t) : OneCallerEach t := by
  obtain ⟨line, c, hfetch, hdecode, he⟩ := runCaller_next hr
  have hnamed : OneCallerEach { s with caller := { s.caller with dest := c.name } } :=
    h.of_balance rfl (fun _ => rfl) (fun _ => rfl) h.atItsOperation fun _ => rfl
  exact hnamed.exec hfetch hdecode he

/-- The invariant asks nothing of the schedule and of the count of free values. -/
theorem OneCallerEach.replan (rest : List Turn) (d : Nat) : OneCallerEach { s with schedule := rest, draws := d } := h

end

/-- Settles O56, by the three kinds of turn a step can take. -/
theorem everyStepKeepsOneCallerEach : Obligations.EveryStepKeepsOneCallerEach := by
  intro s t h hstep
  obtain ⟨rest, d, hrun | ⟨k, m, rfl⟩ | ⟨j, rfl⟩⟩ := step_cases hstep
  · exact (h.replan rest d).runCaller hrun
  · exact (h.replan rest d).lineMove k m
  · exact (h.replan rest d).switchTo j

/-! ## Switch turns -/

/-- Settles O10: the turn is a switch, of a caller that waits under the number or of none. -/
theorem switchTurnsExchangeCallers : Obligations.SwitchTurnsExchangeCallers := by
  intro s j rest hs
  have hstep : step s = .next (switchTo j { s with schedule := rest }) := step_of_cons hs
  refine ⟨fun c hc => ?_, fun hnone => ?_⟩ <;> rw [hstep]
  · have hj : j < s.waiting.length := (List.getElem?_eq_some_iff.mp hc).1
    refine ⟨{ s with schedule := rest, caller := c, waiting := s.waiting.set j s.caller }, ?_, rfl, ?_, ?_, ?_,
      rfl, rfl, rfl, rfl⟩
    · simp only [switchTo, hc]
    · exact List.getElem?_set_self hj
    · exact List.length_set
    · exact fun l hl => List.getElem?_set_ne hl.symm
  · simp only [switchTo, hnone]

end Sys2Proof.Safety
end

-- ==== Who may use a transport object ====
section
/-! PROOFS. A command of any but an object's one caller, and one that starts while the framer runs another, is refused (O14,
O38); a step moves no object of another caller's (O54); and a UART access never returns `UnknownDeviceError` (O41). -/

namespace Sys2Proof.Safety

open Sys2Proof.Machine

/-! ## Refusals -/

section

variable {s : State} {k : Nat}

/-- R213: a register access over SPI of another caller than the object's one is refused. -/
theorem accessesSpi_of_other {i : Instr} {reg device : Byte} {form : FrameForm} {tx : SpiFrame} (h : ¬ OwnsSpi s k)
    (ha : AccessesSpi s i k reg device form tx) (hreg : reg.toNat < 0x80) : exec i s = .refused .secondCaller := by
  obtain ⟨reply, hexec, -⟩ := exec_accessesSpi ha
  rw [hexec, admitRegister_of_lt hreg]
  exact admitCaller_of_other h _

/-- R213: a register access over the UART of another caller than the object's one is refused. -/
theorem accessesUart_of_other {i : Instr} {reg : Byte} {awaits : Bool} {packet : Bytes} (h : ¬ OwnsUart s k)
    (ha : AccessesUart s i k reg awaits packet) (hreg : reg.toNat < 0x80) : exec i s = .refused .secondCaller := by
  rw [exec_accessesUart ha, admitRegister_of_lt hreg]
  exact admitCaller_of_other h _

end

/-- Settles O14: the caller is checked behind the register, and before anything else. -/
theorem secondCallerRefused : Obligations.SecondCallerRefused := by
  intro s k
  refine ⟨fun hother => ⟨fun i reg device form tx ha hreg => accessesSpi_of_other hother ha hreg, ?_⟩,
    fun hother => ⟨fun i reg awaits packet ha hreg => accessesUart_of_other hother ha hreg, ?_⟩⟩
  · rintro rfl
    refine ⟨admitCaller_of_other hother _, fun reg device hreg => ?_⟩
    rw [exec_spiRead2, spiRead2On, admitRegister_of_lt hreg]
    exact admitCaller_of_other hother _
  · rintro rfl
    exact admitCaller_of_other hother _

/-- R57, R143, R213: where the framer is busy with another command, who starts one is told apart only for the name of the
refusal (log entry 19). -/
theorem admitCaller_concurrent (owner : Nat) (s : State) :
    admitCaller owner s (.refused .concurrentCommand) =
      .refused (if owner = s.caller.id then .concurrentCommand else .secondCaller) := by
  unfold admitCaller
  split <;> rfl

/-- Settles O38: a framer that is not idle lets only the caller go on that is in the middle of its operation. -/
theorem uartSecondCommandRefused : Obligations.UartSecondCommandRefused := by
  intro s k hbusy
  refine ⟨fun i reg awaits packet ha hreg hf => ?_, ?_⟩
  · rw [exec_accessesUart ha, admitRegister_of_lt hreg, uartOperation, if_neg hbusy, if_neg hf]
    exact admitCaller_concurrent _ s
  · rintro rfl
    rw [show exec .uartSetup s = uartSetupOn s.caller.uart s from rfl, uartSetupOn, if_neg hbusy]
    exact admitCaller_concurrent _ s

/-! ## Frames -/

section

variable {s t : State} {k : Nat}

/-- R213: an operation moves no SPI object of another caller's. -/
theorem exec_spiAt_of_other {i : Instr} (he : exec i s = .next t) (h : ¬ OwnsSpi s k) : t.spiAt k = s.spiAt k := by
  rcases exec_moves he with ⟨_, c, _, rfl⟩ | ⟨_, j, p, d, c, howner, _, _, rfl⟩ | ⟨_, j, u, r, _, _, _, rfl⟩ |
    ⟨_, j, c, u, d, _, _, _, rfl⟩
  · rfl
  · have hne : k ≠ j := fun hk => h (hk ▸ howner)
    exact putSpi_spiAt_ne s j k p d hne
  · rfl
  · rfl

/-- R213: an operation moves no UART object of another caller's. -/
theorem exec_uartAt_of_other {i : Instr} (he : exec i s = .next t) (h : ¬ OwnsUart s k) : t.uartAt k = s.uartAt k := by
  rcases exec_moves he with ⟨_, c, _, rfl⟩ | ⟨_, j, p, d, c, _, _, _, rfl⟩ | ⟨_, j, u, r, howner, _, _, rfl⟩ |
    ⟨_, j, c, u, d, howner, _, _, rfl⟩
  · rfl
  · rfl
  · have hne : k ≠ j := fun hk => h (hk ▸ howner)
    exact setUart_uartAt_ne s j k u hne
  · have hne : k ≠ j := fun hk => h (hk ▸ howner)
    exact putUart_uartAt_ne s j k u d hne

end

/-- Settles O54, by the three kinds of turn a step can take. -/
theorem onlyTheOwnerUsesATransport : Obligations.OnlyTheOwnerUsesATransport := by
  intro s t k hstep
  obtain ⟨rest, d, hrun | ⟨j, m, rfl⟩ | ⟨j, rfl⟩⟩ := step_cases hstep
  · obtain ⟨_, _, _, _, he⟩ := runCaller_next hrun
    exact ⟨fun h => (exec_spiAt_of_other he h :), fun h => Or.inl (exec_uartAt_of_other he h :)⟩
  · refine ⟨fun _ => rfl, fun _ => ?_⟩
    rcases lineMove_uartAt_cases j m { s with schedule := rest, draws := d } k with hk | ⟨rfl, hk⟩
    · exact Or.inl hk
    · exact Or.inr ⟨m, hk⟩
  · refine ⟨fun _ => spiAt_congr (switchTo_spis j _) k, fun _ => Or.inl ?_⟩
    rw [State.uartAt, switchTo_uarts]
    rfl

/-! ## The results of a UART access -/

/-- R62, R137: no terminal state stands for `UnknownDeviceError`. -/
theorem verdict_ne_unknownDevice {u : Uart} {r : OpResult} (h : u.verdict? = some r) : r ≠ .err .unknownDevice := by
  rintro rfl
  unfold Uart.verdict? at h
  cases hop : u.op <;> simp [hop] at h

/-- R13: a caller that received `r` has added no other result. -/
theorem receive_results_ne {c : Caller} {r r' : OpResult} (h : r ≠ r') : (c.receive r).results ≠ c.results ++ [r'] := by
  simpa using h

/-- Settles O41: an access adds `ConfigurationError`, no result, or the verdict of a terminal state. -/
theorem uartNeverUnknownDevice : Obligations.UartNeverUnknownDevice := by
  intro s t i k reg awaits packet ha he
  rw [exec_accessesUart ha] at he
  obtain ⟨_, he⟩ := admitRegister_next he
  have howner : OwnsUart s k := (admitCaller_next he).1
  rcases uartOperation_cases howner awaits packet with ⟨_, _, e⟩ | ⟨_, _, e⟩ | ⟨_, _, rest, d, e⟩ |
    ⟨_, _, _, rest, d, e⟩ | ⟨r, hv, _, e⟩ | ⟨_, _, e⟩ <;> rw [e] at he <;> cases he
  · exact receive_results_ne nofun
  · simp
  · simp
  · simp
  · exact receive_results_ne (verdict_ne_unknownDevice hv)

end Sys2Proof.Safety
end

-- ==== Routes, the asserted line, and the unanswered exchange ====
section
/-! PROOFS. What the select table routes (O24), which line is asserted while a transfer runs (O25), and when an access is
stuck (O22). -/

namespace Sys2Proof.Safety

open Sys2Proof.Machine

/-! ## Routes -/

/-- A device with a route has an entry with that line. -/
theorem entry_of_route {p : Spi} {device : Byte} {line : Nat} (h : p.route device = some line) :
    ∃ e ∈ p.lines, e.device = device ∧ e.line = line := by
  simp only [Spi.route, Option.map_eq_some_iff] at h
  obtain ⟨e, hfind, hline⟩ := h
  exact ⟨e, List.mem_of_find?_eq_some hfind, by simpa using List.find?_some hfind, hline⟩

theorem route_eq_none {p : Spi} {device : Byte} (h : ∀ e ∈ p.lines, e.device ≠ device) : p.route device = none := by
  rw [Spi.route, List.find?_eq_none.mpr (by simpa using h), Option.map_none]

/-- In an injective table the entry of a device is its only one. -/
theorem route_of_entry {p : Spi} (htable : TableInjective p) {e : SelectLine} (he : e ∈ p.lines) :
    p.route e.device = some e.line := by
  cases hroute : p.route e.device with
  | none =>
    simp only [Spi.route, Option.map_eq_none_iff, List.find?_eq_none] at hroute
    exact absurd (beq_self_eq_true e.device) (hroute e he)
  | some line =>
    obtain ⟨e', he', hdevice, rfl⟩ := entry_of_route hroute
    rw [List.inj_on_of_nodup_map htable.1 he' he hdevice]

/-- Settles O24: a route is an entry of the table, and entries are told apart by device and by line. -/
theorem spiRoutesAreDistinct : Obligations.SpiRoutesAreDistinct := by
  intro p htable
  refine ⟨fun e he => route_of_entry htable he, fun d hd => route_eq_none hd, fun d d' line h h' => ?_⟩
  obtain ⟨e, he, rfl, rfl⟩ := entry_of_route h
  obtain ⟨e', he', rfl, hline⟩ := entry_of_route h'
  rw [List.inj_on_of_nodup_map htable.2 he' he hline]

/-! ## Levels of the select lines -/

/-- R24, R61: the line of a routed device has a level. -/
theorem sel_of_route {p : Spi} {device : Byte} {line : Nat} (h : p.route device = some line) :
    ∃ level, p.sel line = some level := by
  obtain ⟨e, hfind, -⟩ := line_exists_of_route h
  exact ⟨e.level, by rw [Spi.sel, hfind, Option.map_some]⟩

/-- R24: a line of the table that is driven reads the level it is driven to. -/
theorem sel_drive_self {p : Spi} {line : Nat} {level : Level} (h : p.sel line = some level) (level' : Level) :
    (p.drive line level').sel line = some level' := by
  simp only [Spi.sel, Option.map_eq_some_iff] at h
  obtain ⟨e, hfind, -⟩ := h
  have hline : e.line = line := by simpa using List.find?_some hfind
  rw [Spi.sel, Spi.drive, find_onLine p line line (fun e => { e with level := level' }) fun _ => rfl, hfind]
  simp [hline]

theorem sel_drive_ne (p : Spi) {line l : Nat} (level : Level) (h : l ≠ line) : (p.drive line level).sel l = p.sel l :=
  sel_onLine_ne p (fun e => { e with level := level }) (fun _ => rfl) h

/-- Noting an exchange changes no level. -/
theorem sel_note (p : Spi) (line l : Nat) (x : Exchange) : (p.note line x).sel l = p.sel l := by
  rw [Spi.sel, Spi.note, find_onLine p line l (fun e => { e with log := x :: e.log }) fun _ => rfl, Option.map_map]
  refine congrArg (Option.map · _) (funext fun e => ?_)
  simp only [Function.comp_apply]
  split <;> rfl

/-- R107: no line of a sound, configured transceiver is asserted. -/
theorem sel_ne_asserted {p : Spi} (h : SpiSound p) (hc : p.configured = true) (l : Nat) : p.sel l ≠ some .asserted := by
  intro hsel
  simp only [Spi.sel, Option.map_eq_some_iff] at hsel
  obtain ⟨e, hfind, hlevel⟩ := hsel
  obtain ⟨-, -, -, -, -, -, hlevels⟩ := h.2 hc
  cases hlevel.symm.trans (hlevels e (List.mem_of_find?_eq_some hfind))

/-- `line` is the only line of `p` that reads `Asserted`. -/
def OnlyAsserted (p : Spi) (line : Nat) : Prop := ∀ l, p.sel l = some .asserted ↔ l = line

/-- R104: asserting a line where none is asserted makes it the only one. -/
theorem onlyAsserted_drive {p : Spi} {device : Byte} {line : Nat} (hroute : p.route device = some line)
    (hnone : ∀ l, p.sel l ≠ some .asserted) : OnlyAsserted (p.drive line .asserted) line := by
  intro l
  obtain ⟨_, hsel⟩ := sel_of_route hroute
  by_cases hl : l = line
  · rw [hl, sel_drive_self hsel]
    simp
  · rw [sel_drive_ne p _ hl]
    simp [hnone l, hl]

/-- R104: deasserting the only asserted line leaves none. -/
theorem OnlyAsserted.release {p : Spi} {line : Nat} (h : OnlyAsserted p line) (l : Nat) :
    (p.drive line .deasserted).sel l ≠ some .asserted := by
  by_cases hl : l = line
  · rw [hl, sel_drive_self ((h line).mpr rfl)]
    simp
  · rw [sel_drive_ne p _ hl]
    exact fun hsel => hl ((h l).mp hsel)

/-! ## The exchange inside a transfer -/

/-- R50, R104: an exchange that ends has changed no level. -/
theorem spiExchange_sel {k line : Nat} {form : FrameForm} {tx : SpiFrame} {u v : State} {rx : Option SpiFrame}
    (hk : k < u.spis.length) (h : spiExchange k line form tx u = .answered rx v) :
    k < v.spis.length ∧ ∀ l, (v.spiAt k).sel l = (u.spiAt k).sel l := by
  obtain ⟨rest, d, hstate⟩ := drawExchange_state k u
  unfold spiExchange at h
  generalize drawExchange k u = D at h hstate
  obtain ⟨a, u'⟩ := D
  simp only at hstate
  subst hstate
  cases a with
  | never => cases h
  | fault =>
    cases h
    refine ⟨by simpa using hk, fun l => ?_⟩
    rw [setSpi_spiAt_self _ k _ (by simpa using hk), sel_note, putSpi_spiAt_self u k _ d hk]
    rfl
  | ok r =>
    cases h
    refine ⟨by simpa using hk, fun l => ?_⟩
    rw [setSpi_spiAt_self _ k _ (by simpa using hk), sel_note, putSpi_spiAt_self u k _ d hk]
    rfl

/-! ## The accesses that run on a transfer -/

section

variable {s : State} {k line : Nat} {device : Byte} {form : FrameForm} {tx : SpiFrame} (reply : SpiFrame → ResultValue)

/-- R102, R103: an access of a routed device leaves what its transfer leaves. -/
theorem spiPerform_of_answered {rx : Option SpiFrame} {v : State} (hc : (s.spiAt k).configured = true)
    (hroute : (s.spiAt k).route device = some line) (ht : transfer k line form tx s = .answered rx v) :
    ∃ r, spiPerform k device form tx reply s = .returned r v := by
  cases rx with
  | none => exact ⟨.err .transport, by simp [spiPerform, hc, hroute, ht]⟩
  | some rx => exact ⟨.ok (reply rx), by simp [spiPerform, hc, hroute, ht]⟩

theorem spiPerform_of_never (hc : (s.spiAt k).configured = true) (hroute : (s.spiAt k).route device = some line)
    (ht : transfer k line form tx s = .never) : spiPerform k device form tx reply s = .stuck := by
  simp [spiPerform, hc, hroute, ht]

/-- R50: an access never ends exactly where its one exchange is never answered. -/
theorem spiPerform_stuck_iff :
    spiPerform k device form tx reply s = .stuck ↔
      (s.spiAt k).configured = true ∧ (∃ line, (s.spiAt k).route device = some line) ∧
        (drawExchange k s).1 = .never := by
  rcases spiPerform_cases k device form tx reply s with ⟨hc, h⟩ | ⟨hc, hroute, h⟩ |
    ⟨line, hc, hroute, ⟨ha, h⟩ | ⟨ha, _, _, _, h⟩ | ⟨_, _, _, ha, h⟩⟩ <;> rw [h]
  · simp [hc]
  · simp [hroute]
  · simp [hc, hroute, ha]
  · simp [ha]
  · simp [ha]

theorem admitCaller_fault_iff {owner : Nat} {go : Host.Outcome State Fault Refusal} {f : Fault} :
    admitCaller owner s go = .fault f ↔ owner = s.caller.id ∧ go = .fault f := by
  by_cases h : owner = s.caller.id
  · rw [admitCaller_of_owner h]
    simp [h]
  · rw [admitCaller_of_other h]
    simp [h]

/-- R95: what follows the first read is a next state, with the transports that read has left. -/
theorem afterFirstRead_next (r : OpResult) (s : State) : ∃ t, afterFirstRead r s = .next t ∧ t.spis = s.spis := by
  cases r with
  | ok v => exact ⟨_, rfl, rfl⟩
  | err e => exact ⟨_, rfl, rfl⟩

/-- Either half of a double read whose read returned is a next state, with the transports that read has left. -/
theorem spiRead2On_next {reg : Byte} {r : OpResult} {v : State} (hreg : reg.toNat < 0x80) (howner : OwnsSpi s k)
    (h : spiPerform k device (.read reg) (spiReadFrame reg) (fun rx => .word (frameValue rx)) s = .returned r v) :
    ∃ t, spiRead2On k reg device s = .next t ∧ t.spis = v.spis := by
  rw [spiRead2On_eq hreg howner h]
  split
  · exact ⟨_, rfl, rfl⟩
  · exact afterFirstRead_next r v

/-- A register access is stuck exactly where its one caller's access never ends. -/
theorem spiAccess_stuck_iff :
    spiAccess k device form tx reply s = .fault .spiExchangeUnanswered ↔
      OwnsSpi s k ∧ spiPerform k device form tx reply s = .stuck := by
  rw [spiAccess, admitCaller_fault_iff]
  cases spiPerform k device form tx reply s with
  | stuck => simp
  | returned r v => simp [finish]

/-- The same of either half of a double read. -/
theorem spiRead2On_stuck_iff {reg : Byte} (hreg : reg.toNat < 0x80) :
    spiRead2On k reg device s = .fault .spiExchangeUnanswered ↔
      OwnsSpi s k ∧
        spiPerform k device (.read reg) (spiReadFrame reg) (fun rx => .word (frameValue rx)) s = .stuck := by
  by_cases howner : OwnsSpi s k
  · cases hperform : spiPerform k device (.read reg) (spiReadFrame reg) (fun rx => .word (frameValue rx)) s with
    | stuck =>
      rw [spiRead2On, admitRegister_of_lt hreg, admitCaller_of_owner howner, hperform]
      exact ⟨fun _ => ⟨howner, rfl⟩, fun _ => rfl⟩
    | returned r v =>
      obtain ⟨t, ht, -⟩ := spiRead2On_next hreg howner hperform
      simp [ht]
  · rw [spiRead2On, admitRegister_of_lt hreg, admitCaller_of_other howner]
    simp [howner]

end

/-- Settles O22: of the object's one caller an access is stuck where its one exchange is never answered, and of another
caller it is refused. -/
theorem spiUnansweredIsStuck : Obligations.SpiUnansweredIsStuck := by
  refine ⟨fun s i k reg device form tx ha hreg => ?_, fun s reg device hreg => ?_⟩
  · obtain ⟨reply, hexec, -⟩ := exec_accessesSpi ha
    rw [hexec, admitRegister_of_lt hreg, spiAccess_stuck_iff, spiPerform_stuck_iff]
  · rw [exec_spiRead2, spiRead2On_stuck_iff hreg, spiPerform_stuck_iff]

/-- R102, R103, R95: an access of the object's one caller runs on the transfer of its device's line. -/
theorem exec_of_transfer {s : State} {i : Instr} {k line : Nat} {reg device : Byte} {form : FrameForm} {tx : SpiFrame}
    (hc : (s.spiAt k).configured = true) (hroute : (s.spiAt k).route device = some line)
    (hi : AccessesSpi s i k reg device form tx ∨
      (i = .spiRead2 reg device ∧ s.caller.spi = k ∧ form = .read reg ∧ tx = spiReadFrame reg))
    (howner : OwnsSpi s k) (hreg : reg.toNat < 0x80) :
    (∀ rx v, transfer k line form tx s = .answered rx v → ∃ t, exec i s = .next t ∧ t.spis = v.spis) ∧
      (transfer k line form tx s = .never → exec i s = .fault .spiExchangeUnanswered) := by
  rcases hi with ha | ⟨rfl, rfl, rfl, rfl⟩
  · obtain ⟨reply, hexec, -⟩ := exec_accessesSpi ha
    rw [hexec, admitRegister_of_lt hreg]
    refine ⟨fun rx v ht => ?_, fun ht => ?_⟩
    · obtain ⟨r, hperform⟩ := spiPerform_of_answered reply hc hroute ht
      rw [spiAccess_of_owner howner, hperform]
      exact ⟨_, rfl, rfl⟩
    · exact (spiAccess_stuck_iff reply).mpr ⟨howner, spiPerform_of_never reply hc hroute ht⟩
  · rw [exec_spiRead2]
    refine ⟨fun rx v ht => ?_, fun ht => ?_⟩
    · obtain ⟨r, hperform⟩ := spiPerform_of_answered (fun rx => .word (frameValue rx)) hc hroute ht
      exact spiRead2On_next hreg howner hperform
    · exact (spiRead2On_stuck_iff hreg).mpr ⟨howner, spiPerform_of_never _ hc hroute ht⟩

/-- Settles O25: asserting the line makes it the only asserted one, the exchange changes no level, and deasserting it
leaves none. -/
theorem onlyTheTransferLineIsAsserted : Obligations.OnlyTheTransferLineIsAsserted := by
  rintro s u k line reg device form tx hsound hc hroute rfl
  have hk := spi_exists_of_configured hc
  have hat := setSpi_spiAt_self s k ((s.spiAt k).drive line .asserted) hk
  have hdriven := onlyAsserted_drive hroute (sel_ne_asserted hsound hc)
  rw [← hat] at hdriven
  refine ⟨hdriven, fun rx v hv => ?_, fun hv => ?_, fun i hi howner hreg => exec_of_transfer hc hroute hi howner hreg⟩
  · obtain ⟨hk', hsel⟩ := spiExchange_sel (by simpa using hk) hv
    have hleft : OnlyAsserted (v.spiAt k) line := fun l => (hsel l).symm ▸ hdriven l
    refine ⟨hleft, by rw [transfer, hv], fun l => ?_⟩
    rw [setSpi_spiAt_self v k _ hk']
    exact hleft.release l
  · rw [transfer, hv]

end Sys2Proof.Safety
end

-- ==== Command lines ====
section
/-! PROOFS. The line of a well-formed command is cut into the words it was made of, and they are read back operand by
operand (O1); lines in the spec's own spelling (O2). -/

namespace Sys2Proof

/-! ## Operands read back -/

section

variable {n : Option Bytes} (hn : ∀ x, n = some x → nameOk x = true)

include hn

theorem readOperands_text (mk : Byte → Byte → Instr) (r d : Byte) :
    readOperands mk ((ascii "reg=" ++ byteText r) :: (ascii "dev=" ++ byteText d) :: nameTokens n) =
      .ok ⟨mk r d, n⟩ := by
  simp only [readOperands, byteField_text, resultName_nameTokens hn]
  rfl

theorem ratOperand_text (key : String) (mk : Rat → Instr) (q : Rat) :
    ratOperand key mk ((ascii key ++ ratText q) :: nameTokens n) = .ok ⟨mk q, n⟩ := by
  simp only [ratOperand, ratField_text, resultName_nameTokens hn]
  rfl

theorem bindReadOperands_text (r : Byte) :
    decodeOperands .bindRead ((ascii "reg=" ++ byteText r) :: nameTokens n) = .ok ⟨.bindRead r, n⟩ := by
  simp only [decodeOperands, byteField_text, resultName_nameTokens hn]
  rfl

theorem speedToHzOperands_text (x : Value) :
    decodeOperands .convSpeedToHz ((ascii "x=" ++ decimalText x.toNat) :: nameTokens n) =
      .ok ⟨.convSpeedToHz x, n⟩ := by
  simp only [decodeOperands, valueField_decimal, resultName_nameTokens hn]
  rfl

end

theorem writeOperands_text (mk : Byte → Value → Byte → Instr) (r : Byte) (v : Value) (d : Byte) :
    writeOperands mk [ascii "reg=" ++ byteText r, ascii "val=" ++ valueText v, ascii "dev=" ++ byteText d] =
      .ok ⟨mk r v d, none⟩ := by
  simp only [writeOperands, byteField_text, valueField_text]
  rfl

theorem bindWriteOperands_text (r : Byte) (v : Value) :
    decodeOperands .bindWrite [ascii "reg=" ++ byteText r, ascii "val=" ++ valueText v] =
      .ok ⟨.bindWrite r v, none⟩ := by
  simp only [decodeOperands, byteField_text, valueField_text]
  rfl

/-! ## Commands read back -/

/-- R90: a name stands only in the line of an operation that returns a value, and is a name. -/
theorem Command.name_of_wellFormed {c : Command} (h : c.wellFormed = true) {n : Bytes} (hn : c.name = some n) :
    c.op.returnsValue = true ∧ nameOk n = true := by
  simp only [Command.wellFormed, hn, Bool.and_eq_true] at h
  exact h.2

theorem Command.name_eq_none {c : Command} (h : c.wellFormed = true) (hr : c.op.returnsValue = false) :
    c.name = none := by
  cases hn : c.name with
  | none => rfl
  | some n => cases hr.symm.trans (Command.name_of_wellFormed h hn).1

/-- The operand words of an operation that returns no value are read back. -/
theorem decodeOperands_unnamed {i : Instr} (hr : i.returnsValue = false) :
    decodeOperands i.mnemonic (operandTokens i) = .ok ⟨i, none⟩ := by
  cases i with
  | spiSetup => rfl
  | uartSetup => rfl
  | spiWrite r v d => exact writeOperands_text .spiWrite r v d
  | uartWrite r v d => exact writeOperands_text .uartWrite r v d
  | bindWrite r v => exact bindWriteOperands_text r v
  | _ => cases hr

/-- The operand words of an operation that returns a value are read back, with the words of its name. -/
theorem decodeOperands_named {i : Instr} (hr : i.returnsValue = true) {n : Option Bytes}
    (hn : ∀ x, n = some x → nameOk x = true) :
    decodeOperands i.mnemonic (operandTokens i ++ nameTokens n) = .ok ⟨i, n⟩ := by
  cases i with
  | spiRead r d => exact readOperands_text hn .spiRead r d
  | uartRead r d => exact readOperands_text hn .uartRead r d
  | spiRead2 r d => exact readOperands_text hn .spiRead2 r d
  | bindRead r => exact bindReadOperands_text hn r
  | convSpeedToHz x => exact speedToHzOperands_text hn x
  | convSpeedFromHz h => exact ratOperand_text hn "hz=" .convSpeedFromHz h
  | convAccelFromHz a => exact ratOperand_text hn "a=" .convAccelFromHz a
  | convThresholdSpeedToTstep t => exact ratOperand_text hn "t=" .convThresholdSpeedToTstep t
  | _ => cases hr

/-- The words of a well-formed command are read back as the command. -/
theorem decodeTokens_commandTokens {c : Command} (h : c.wellFormed = true) :
    decodeTokens (commandTokens c) = .ok c := by
  simp only [commandTokens, decodeTokens, mnemonicOf_text]
  cases hr : c.op.returnsValue with
  | true => exact decodeOperands_named hr fun x hx => (c.name_of_wellFormed h hx).2
  | false =>
    obtain ⟨op, name⟩ := c
    obtain rfl : name = none := Command.name_eq_none h hr
    rw [nameTokens, List.append_nil]
    exact decodeOperands_unnamed hr

/-! ## Words of a command -/

/-- R90: what every operation is written with are words. -/
theorem operandWords (i : Instr) : Laws.OperandWords.Statement i := by
  cases i with
  | spiSetup => exact Laws.OperandWords.spiSetup
  | spiWrite r v d => exact Laws.OperandWords.spiWrite r v d
  | spiRead r d => exact Laws.OperandWords.spiRead r d
  | uartSetup => exact Laws.OperandWords.uartSetup
  | uartWrite r v d => exact Laws.OperandWords.uartWrite r v d
  | uartRead r d => exact Laws.OperandWords.uartRead r d
  | bindWrite r v => exact Laws.OperandWords.bindWrite r v
  | bindRead r => exact Laws.OperandWords.bindRead r
  | convSpeedToHz x => exact Laws.OperandWords.convSpeedToHz x
  | convSpeedFromHz h => exact Laws.OperandWords.convSpeedFromHz h
  | convAccelFromHz a => exact Laws.OperandWords.convAccelFromHz a
  | convThresholdSpeedToTstep t => exact Laws.OperandWords.convThresholdSpeedToTstep t
  | spiRead2 r d => exact Laws.OperandWords.spiRead2 r d

theorem isWord_nameTokens {n : Option Bytes} (hn : ∀ x, n = some x → nameOk x = true) :
    ∀ w ∈ nameTokens n, IsWord w := by
  cases n with
  | none => exact fun _ hw => nomatch hw
  | some x =>
    simp only [nameTokens, List.forall_mem_cons]
    exact ⟨⟨by decide, by decide⟩, isWord_name (hn x rfl), nofun⟩

theorem isWord_commandTokens {c : Command} (h : c.wellFormed = true) : ∀ w ∈ commandTokens c, IsWord w := by
  intro w hw
  rw [commandTokens, ← List.cons_append, List.mem_append] at hw
  rcases hw with hw | hw
  · exact operandWords c.op w hw
  · exact isWord_nameTokens (fun x hx => (c.name_of_wellFormed h hx).2) w hw

/-- Settles O1: the line is cut into the words it was joined from, and they are read back. -/
theorem commandLinesRoundTrip : Obligations.CommandLinesRoundTrip := by
  intro c h
  rw [decode, encode, tokens_joinBlank (by simp [commandTokens]) (isWord_commandTokens h)]
  exact decodeTokens_commandTokens h

/-- Settles O2, by decoding each line. -/
theorem specLinesDecode : Obligations.SpecLinesDecode := by
  refine ⟨?_, ?_, ?_, ?_, ?_, ?_, ?_, ?_⟩ <;> decide

end Sys2Proof
end

-- ==== Frames and packets ====
section
/-! PROOFS. Frames as numbers, and the rows of the table they are in (O3, O4); the checksum of a response (O7). -/

namespace Sys2Proof

/-! ## The rows of each width -/

section

variable {w : Nat}

theorem decodeTableWord_spiRead (h : Nat.land w 0x80FFFFFFFF = 0) : decodeTableWord 40 w = frameInstr .spiRead w := by
  simp only [decodeTableWord, frameRows, List.find?_cons, h]
  rfl

/-- A write frame is in a row of `spi.write`, and not in the row of `spi.read` that stands before. -/
theorem decodeTableWord_spiWrite (hread : Nat.land w 0x80FFFFFFFF ≠ 0)
    (h : Nat.land w 0x8000000000 = 0 ∨ Nat.land w 0x8000000000 = 0x8000000000) :
    decodeTableWord 40 w = frameInstr .spiWrite w := by
  have hread' : (Nat.land w 0x80FFFFFFFF == 0) = false := beq_false_of_ne hread
  rcases h with h | h
  · simp only [decodeTableWord, frameRows, List.find?_cons, hread', h]
    rfl
  · simp only [decodeTableWord, frameRows, List.find?_cons, hread', h]
    rfl

theorem decodeTableWord_uartWrite (h : Nat.land w 0xFF00800000000000 = 0x0500800000000000) :
    decodeTableWord 64 w = frameInstr .uartWrite w := by
  simp only [decodeTableWord, frameRows, List.find?_cons, h]
  rfl

theorem decodeTableWord_uartRead (h : Nat.land w 0xFF008000 = 0x05000000) :
    decodeTableWord 32 w = frameInstr .uartRead w := by
  simp only [decodeTableWord, frameRows, List.find?_cons, h]
  rfl

end

namespace Machine

/-! ## Frames as numbers -/

/-- The masked number of a frame is the number of its masked bytes. -/
theorem land_foldl_bytes : ∀ (bs ms : Bytes) (n m : Nat), bs.length = ms.length →
    Nat.land (bs.foldl (fun n b => n * 256 + b.toNat) n) (ms.foldl (fun n b => n * 256 + b.toNat) m) =
      (List.zipWith (· &&& ·) bs ms).foldl (fun n b => n * 256 + b.toNat) (Nat.land n m)
  | [], [], _, _, _ => rfl
  | b :: bs, c :: ms, n, m, h => by
    have hbyte : Nat.land (n * 256 + b.toNat) (m * 256 + c.toNat) = Nat.land n m * 256 + (b &&& c).toNat :=
      land_byte n m b.isLt c.isLt
    simp only [List.foldl_cons, List.zipWith_cons_cons]
    rw [land_foldl_bytes bs ms _ _ (Nat.succ.inj h), hbyte]

theorem land_wireNumber {bs ms : Bytes} (h : bs.length = ms.length) :
    Nat.land (wireNumber bs) (wireNumber ms) = wireNumber (List.zipWith (· &&& ·) bs ms) :=
  land_foldl_bytes bs ms 0 0 h

theorem byte_and_ff (b : Byte) : b &&& 0xFF = b := BitVec.and_allOnes

theorem byte_and_00 (b : Byte) : b &&& 0 = 0 := BitVec.and_zero

/-- The seven low bits of a byte. -/
theorem ofNat_toNat_mod_128 (b : Byte) : BitVec.ofNat 8 (b.toNat % 128) = b &&& 0x7F := by
  revert b
  decide

theorem and_7f_of_lt {b : Byte} (h : b.toNat < 0x80) : b &&& 0x7F = b := by
  revert b
  decide

theorem and_80_of_lt {b : Byte} (h : b.toNat < 0x80) : b &&& 0x80 = 0 := by
  revert b
  decide

/-- A register with bit 7 set beside it: the seven low bits are the register (R73, R76). -/
theorem or_80_and_7f_of_lt {b : Byte} (h : b.toNat < 0x80) : (b ||| 0x80) &&& 0x7F = b := by
  revert b
  decide

theorem or_80_and_80 (b : Byte) : (b ||| 0x80) &&& 0x80 = 0x80 := by
  revert b
  decide

theorem and_80_cases (b : Byte) : b &&& 0x80 = 0 ∨ b &&& 0x80 = 0x80 := by
  revert b
  decide

/-! ## SPI frames -/

/-- R73: a frame's number is its first byte, then its value field. -/
theorem wireNumber_spiFrame (f : SpiFrame) :
    wireNumber (spiFrameBytes f) = f.b0.toNat * 2 ^ 32 + (frameValue f).toNat := by
  simp only [wireNumber, spiFrameBytes, List.foldl_cons, List.foldl_nil, frameValue, unbe32_toNat]
  omega

/-- The operands a frame's number holds. -/
theorem spiFrame_fields (f : SpiFrame) :
    BitVec.ofNat 8 (bitField (wireNumber (spiFrameBytes f)) 32 7) = f.b0 &&& 0x7F ∧
      BitVec.ofNat 32 (bitField (wireNumber (spiFrameBytes f)) 0 32) = frameValue f := by
  have hvalue := (frameValue f).isLt
  rw [wireNumber_spiFrame, ← ofNat_toNat_mod_128, bitField, bitField]
  refine ⟨?_, BitVec.eq_of_toNat_eq ?_⟩
  · congr 1
    omega
  · rw [BitVec.toNat_ofNat]
    omega

/-- R73: the value field of a read frame is zero. -/
theorem frameValue_spiReadFrame (reg : Byte) : frameValue (spiReadFrame reg) = 0 := by
  show unbe32 0 0 0 0 = 0
  decide

/-- R73: the value field of a write frame is the value. -/
theorem frameValue_spiWriteFrame (flag : WriteFlag) (reg : Byte) (value : Value) :
    frameValue (spiWriteFrame flag reg value) = value :=
  unbe32_bytes value

/-- The row of `spi.read` covers bit 7 of the first byte and the whole value field. -/
theorem land_spiFrame_read (f : SpiFrame) :
    Nat.land (wireNumber (spiFrameBytes f)) 0x80FFFFFFFF = (f.b0 &&& 0x80).toNat * 2 ^ 32 + (frameValue f).toNat := by
  have hmask := land_wireNumber (bs := spiFrameBytes f) (ms := [0x80, 0xFF, 0xFF, 0xFF, 0xFF]) rfl
  simp only [spiFrameBytes, List.zipWith_cons_cons, List.zipWith_nil_left, byte_and_ff] at hmask
  exact hmask.trans (wireNumber_spiFrame ⟨f.b0 &&& 0x80, f.b1, f.b2, f.b3, f.b4⟩)

/-- The rows of `spi.write` cover bit 7 of the first byte alone. -/
theorem land_spiFrame_write (f : SpiFrame) :
    Nat.land (wireNumber (spiFrameBytes f)) 0x8000000000 = (f.b0 &&& 0x80).toNat * 2 ^ 32 := by
  have hmask := land_wireNumber (bs := spiFrameBytes f) (ms := [0x80, 0, 0, 0, 0]) rfl
  simp only [spiFrameBytes, List.zipWith_cons_cons, List.zipWith_nil_left, byte_and_00] at hmask
  have hnumber := wireNumber_spiFrame (spiReadFrame (f.b0 &&& 0x80))
  rw [frameValue_spiReadFrame, show (0 : Value).toNat = 0 from rfl, Nat.add_zero] at hnumber
  exact hmask.trans hnumber

/-- R73, R84: a frame with bit 7 clear and no value is a read. -/
theorem decodeTableWord_of_read {f : SpiFrame} (hb : f.b0 &&& 0x80 = 0) (hv : frameValue f = 0) :
    decodeTableWord 40 (wireNumber (spiFrameBytes f)) = some (.spiRead (f.b0 &&& 0x7F) 0) := by
  have hrow : Nat.land (wireNumber (spiFrameBytes f)) 0x80FFFFFFFF = 0 := by
    rw [land_spiFrame_read, hb, hv]
    rfl
  rw [decodeTableWord_spiRead hrow, frameInstr, (spiFrame_fields f).1]

/-- R73, R84: every other frame is a write. -/
theorem decodeTableWord_of_write {f : SpiFrame} (h : f.b0 &&& 0x80 = 0 → frameValue f ≠ 0) :
    decodeTableWord 40 (wireNumber (spiFrameBytes f)) = some (.spiWrite (f.b0 &&& 0x7F) (frameValue f) 0) := by
  have hread : Nat.land (wireNumber (spiFrameBytes f)) 0x80FFFFFFFF ≠ 0 := by
    rw [land_spiFrame_read]
    intro hzero
    have hbit : (f.b0 &&& 0x80).toNat = 0 := by omega
    have hvalue : (frameValue f).toNat = 0 := by omega
    exact h (BitVec.eq_of_toNat_eq hbit) (BitVec.eq_of_toNat_eq hvalue)
  have hwrite : Nat.land (wireNumber (spiFrameBytes f)) 0x8000000000 = 0 ∨
      Nat.land (wireNumber (spiFrameBytes f)) 0x8000000000 = 0x8000000000 := by
    rw [land_spiFrame_write]
    exact (and_80_cases f.b0).imp (fun hb => by rw [hb]; rfl) (fun hb => by rw [hb]; rfl)
  obtain ⟨hreg, hvalue⟩ := spiFrame_fields f
  rw [decodeTableWord_spiWrite hread hwrite, frameInstr, hreg, hvalue]

/-- Settles O3: a frame with bit 7 clear and no value is in the row of `spi.read`, and every other in one of
`spi.write`. -/
theorem spiFramesMatchTableRows : Obligations.SpiFramesMatchTableRows := by
  intro reg value hreg
  have hflag00 : (spiWriteFrame .flag00 reg value).b0 = reg := BitVec.or_zero
  have hflag80 : (spiWriteFrame .flag80 reg value).b0 = reg ||| 0x80 := rfl
  refine ⟨?_, fun hvalue => ?_, ?_, ?_⟩
  · rw [decodeTableWord_of_read (and_80_of_lt hreg) (frameValue_spiReadFrame reg)]
    exact congrArg (fun r => some (Instr.spiRead r 0)) (and_7f_of_lt hreg)
  · rw [decodeTableWord_of_write fun _ => by rwa [frameValue_spiWriteFrame], frameValue_spiWriteFrame, hflag00,
      and_7f_of_lt hreg]
  · simp [spiWriteFrame, spiReadFrame, WriteFlag.byte, byte0, byte1, byte2, byte3]
  · have hbit : (spiWriteFrame .flag80 reg value).b0 &&& 0x80 ≠ 0 := by
      rw [hflag80, or_80_and_80]
      decide
    rw [decodeTableWord_of_write fun h => absurd h hbit, frameValue_spiWriteFrame, hflag80, or_80_and_7f_of_lt hreg]

/-! ## UART packets -/

theorem uartSync_toNat : Config.uartSync.toNat = 5 := rfl

section

variable (device b v3 v2 v1 v0 checksum : Byte)

/-- R76: a write packet's number is its sync byte, device, register byte, value and checksum. -/
theorem wireNumber_writePacket :
    wireNumber [Config.uartSync, device, b, v3, v2, v1, v0, checksum] =
      5 * 2 ^ 56 + device.toNat * 2 ^ 48 + b.toNat * 2 ^ 40 + (unbe32 v3 v2 v1 v0).toNat * 2 ^ 8 + checksum.toNat := by
  simp only [wireNumber, List.foldl_cons, List.foldl_nil, unbe32_toNat, uartSync_toNat]
  omega

/-- The operands a write packet's number holds. -/
theorem writePacket_fields :
    BitVec.ofNat 8 (bitField (wireNumber [Config.uartSync, device, b, v3, v2, v1, v0, checksum]) 40 7) = b &&& 0x7F ∧
    BitVec.ofNat 32 (bitField (wireNumber [Config.uartSync, device, b, v3, v2, v1, v0, checksum]) 8 32) =
      unbe32 v3 v2 v1 v0 ∧
    BitVec.ofNat 8 (bitField (wireNumber [Config.uartSync, device, b, v3, v2, v1, v0, checksum]) 48 8) = device := by
  have hdevice := device.isLt
  have hb := b.isLt
  have hvalue := (unbe32 v3 v2 v1 v0).isLt
  have hchecksum := checksum.isLt
  rw [wireNumber_writePacket, ← ofNat_toNat_mod_128, bitField, bitField, bitField]
  refine ⟨BitVec.eq_of_toNat_eq ?_, BitVec.eq_of_toNat_eq ?_, BitVec.eq_of_toNat_eq ?_⟩
  all_goals simp only [BitVec.toNat_ofNat]; omega

/-- R76, R84: a packet of eight bytes with the sync byte first and bit 7 set in its register byte is a write of the
operands it holds, whatever its checksum. -/
theorem decodeTableWord_writePacket (hb : b &&& 0x80 = 0x80) :
    decodeTableWord 64 (wireNumber [Config.uartSync, device, b, v3, v2, v1, v0, checksum]) =
      some (.uartWrite (b &&& 0x7F) (unbe32 v3 v2 v1 v0) device) := by
  have hmask := land_wireNumber (bs := [Config.uartSync, device, b, v3, v2, v1, v0, checksum])
    (ms := [0xFF, 0, 0x80, 0, 0, 0, 0, 0]) rfl
  simp only [List.zipWith_cons_cons, List.zipWith_nil_left, byte_and_00, hb] at hmask
  obtain ⟨hreg, hvalue, hdevice⟩ := writePacket_fields device b v3 v2 v1 v0 checksum
  rw [decodeTableWord_uartWrite hmask, frameInstr, hreg, hvalue, hdevice]

/-- R77: a read request's number is its sync byte, device, register byte and checksum. -/
theorem wireNumber_readRequest :
    wireNumber [Config.uartSync, device, b, checksum] =
      5 * 2 ^ 24 + device.toNat * 2 ^ 16 + b.toNat * 2 ^ 8 + checksum.toNat := by
  simp only [wireNumber, List.foldl_cons, List.foldl_nil, uartSync_toNat]
  omega

/-- The operands a read request's number holds. -/
theorem readRequest_fields :
    BitVec.ofNat 8 (bitField (wireNumber [Config.uartSync, device, b, checksum]) 8 7) = b &&& 0x7F ∧
    BitVec.ofNat 8 (bitField (wireNumber [Config.uartSync, device, b, checksum]) 16 8) = device := by
  have hdevice := device.isLt
  have hb := b.isLt
  have hchecksum := checksum.isLt
  rw [wireNumber_readRequest, ← ofNat_toNat_mod_128, bitField, bitField]
  refine ⟨BitVec.eq_of_toNat_eq ?_, BitVec.eq_of_toNat_eq ?_⟩
  all_goals simp only [BitVec.toNat_ofNat]; omega

/-- R77, R84: a packet of four bytes with the sync byte first and bit 7 clear in its register byte is a read of the
operands it holds, whatever its checksum. -/
theorem decodeTableWord_readRequest (hb : b &&& 0x80 = 0) :
    decodeTableWord 32 (wireNumber [Config.uartSync, device, b, checksum]) =
      some (.uartRead (b &&& 0x7F) device) := by
  have hmask := land_wireNumber (bs := [Config.uartSync, device, b, checksum]) (ms := [0xFF, 0, 0x80, 0]) rfl
  simp only [List.zipWith_cons_cons, List.zipWith_nil_left, byte_and_00, hb] at hmask
  obtain ⟨hreg, hdevice⟩ := readRequest_fields device b checksum
  rw [decodeTableWord_uartRead hmask, frameInstr, hreg, hdevice]

end

/-- Settles O4: bit 7 of the register byte is set in a write packet and clear in a read request, as their rows have it,
and its other bits are the register. -/
theorem uartPacketsMatchTableRows : Obligations.UartPacketsMatchTableRows := by
  intro reg device value hreg
  constructor
  · have hdecode := decodeTableWord_writePacket device (reg ||| Config.uartRwFlag) (byte3 value) (byte2 value)
      (byte1 value) (byte0 value) (xorBytes ([Config.uartSync, device, reg ||| Config.uartRwFlag] ++ be32 value))
      (or_80_and_80 reg)
    rwa [unbe32_bytes, Config.uartRwFlag, or_80_and_7f_of_lt hreg] at hdecode
  · rw [uartReadRequest, and_7f_of_lt hreg]
    have hdecode := decodeTableWord_readRequest device reg (xorBytes [Config.uartSync, device, reg]) (and_80_of_lt hreg)
    rwa [and_7f_of_lt hreg] at hdecode

/-! ## The checksum of a response -/

/-- R79: changing one byte by an exclusive OR changes the checksum by the same. -/
theorem xorBytes_modify (x : Byte) : ∀ (s : Bytes) (m : Nat), m < s.length →
    xorBytes (s.modify m (· ^^^ x)) = xorBytes s ^^^ x
  | [], _, h => absurd h (Nat.not_lt_zero _)
  | b :: s, 0, _ => by
    rw [List.modify_zero_cons, xorBytes_cons, xorBytes_cons, BitVec.xor_assoc, BitVec.xor_assoc,
      BitVec.xor_comm x]
  | b :: s, m + 1, h => by
    rw [List.modify_succ_cons, xorBytes_cons, xorBytes_modify x s m (Nat.lt_of_succ_lt_succ h), xorBytes_cons,
      BitVec.xor_assoc]

/-- R78: eight bytes are a valid response exactly when the exclusive OR of all of them is zero. -/
theorem responseValid_iff {s : Bytes} (h : s.length = 8) : responseValid s = true ↔ xorBytes s = 0 := by
  have hs : s = s.take 7 ++ [s.getD 7 0] := by
    rw [List.getD_eq_getElem _ _ (by omega), ← List.take_succ_eq_append_getElem (by omega),
      List.take_of_length_le (by omega)]
  rw [responseValid, beq_iff_eq]
  conv_rhs => rw [hs, xorBytes_append]
  rw [eq_comm]
  exact BitVec.xor_eq_zero_iff.symm

/-- Settles O7: flipping a bit of one byte flips it in the exclusive OR of all, and flipping it in another byte flips it
back. -/
theorem checksumDetectsOneFlippedBit : Obligations.ChecksumDetectsOneFlippedBit := by
  intro s m n bit hlen hm hn _ hvalid
  have hbit : BitVec.twoPow 8 bit ≠ 0 := by
    revert bit
    decide
  have hlen' : (s.modify m (· ^^^ BitVec.twoPow 8 bit)).length = 8 := by rw [List.length_modify, hlen]
  rw [responseValid_iff hlen] at hvalid
  have hone : xorBytes (s.modify m (· ^^^ BitVec.twoPow 8 bit)) = BitVec.twoPow 8 bit := by
    rw [xorBytes_modify _ s m (by omega), hvalid]
    exact BitVec.zero_xor
  constructor
  · rw [Bool.eq_false_iff, Ne, responseValid_iff hlen', hone]
    exact hbit
  · rw [responseValid_iff (by rw [List.length_modify, hlen']), xorBytes_modify _ _ n (by omega), hone]
    exact BitVec.xor_self

end Machine

end Sys2Proof
end

-- ==== The register check, and answered accesses ====
section
/-! PROOFS. The register check refuses a bus operation exactly for bit 7, and nothing else gives that refusal (O12); an
answered write and read over SPI (O19, O20) and the second read of `spi.read2` (O28). -/

namespace Sys2Proof.Safety

open Sys2Proof.Machine

/-! ## Who gives the refusal of the register check -/

section

variable {s : State} {k : Nat} {reg : Byte} {go : Host.Outcome State Fault Refusal}

theorem admitCaller_ne_registerBitSeven {owner : Nat} (h : go ≠ .refused .registerBitSeven) :
    admitCaller owner s go ≠ .refused .registerBitSeven := by
  unfold admitCaller
  split
  · exact h
  · nofun

theorem withContext_ne_registerBitSeven (h : go ≠ .refused .registerBitSeven) :
    withContext s go ≠ .refused .registerBitSeven := by
  unfold withContext
  split
  · exact h
  · nofun

theorem spiSetupOn_ne_registerBitSeven : spiSetupOn k s ≠ .refused .registerBitSeven := by
  refine admitCaller_ne_registerBitSeven ?_
  split
  · nofun
  · split <;> nofun

theorem uartSetupOn_ne_registerBitSeven : uartSetupOn k s ≠ .refused .registerBitSeven := by
  refine admitCaller_ne_registerBitSeven ?_
  split
  · split <;> nofun
  · nofun

theorem spiAccess_ne_registerBitSeven {device : Byte} {form : FrameForm} {tx : SpiFrame}
    {reply : SpiFrame → ResultValue} : spiAccess k device form tx reply s ≠ .refused .registerBitSeven := by
  refine admitCaller_ne_registerBitSeven ?_
  split <;> nofun

theorem uartOperation_ne_registerBitSeven {awaits : Bool} {packet : Bytes} :
    uartOperation k awaits packet s ≠ .refused .registerBitSeven := by
  by_cases howner : OwnsUart s k
  · rcases uartOperation_cases howner awaits packet with ⟨_, _, e⟩ | ⟨_, _, e⟩ | ⟨_, _, _, _, e⟩ |
      ⟨_, _, _, _, _, e⟩ | ⟨_, _, _, e⟩ | ⟨_, _, e⟩ <;> rw [e] <;> nofun
  · rw [uartOperation, admitCaller_of_other howner]
    nofun

/-- R72: where nothing behind the register check refuses for the register, the check alone says whether it does. -/
theorem admitRegister_refused_iff (h : go ≠ .refused .registerBitSeven) :
    admitRegister reg go = .refused .registerBitSeven ↔ reg.getLsbD 7 = true := by
  by_cases hreg : registerRefused reg = true
  · rw [admitRegister, if_pos hreg]
    exact ⟨fun _ => hreg, fun _ => rfl⟩
  · rw [admitRegister, if_neg hreg]
    exact ⟨fun he => absurd he h, fun hbit => absurd hbit hreg⟩

/-- R72, R95: either half of a double read. -/
theorem spiRead2On_refused_iff {device : Byte} :
    spiRead2On k reg device s = .refused .registerBitSeven ↔ reg.getLsbD 7 = true := by
  refine admitRegister_refused_iff (admitCaller_ne_registerBitSeven ?_)
  cases spiPerform k device (.read reg) (spiReadFrame reg) (fun rx => .word (frameValue rx)) s with
  | stuck => nofun
  | returned r s' =>
    obtain ⟨t, ht, -⟩ := afterFirstRead_next r s'
    simp only [ht]
    split <;> nofun

end

section

variable {s : State} {i : Instr} {k : Nat} {reg : Byte}

/-- R72: a register access over SPI, directly or through a port. -/
theorem accessesSpi_refused_iff {device : Byte} {form : FrameForm} {tx : SpiFrame}
    (h : AccessesSpi s i k reg device form tx) :
    exec i s = .refused .registerBitSeven ↔ reg.getLsbD 7 = true := by
  obtain ⟨reply, hexec, -⟩ := exec_accessesSpi h
  rw [hexec]
  exact admitRegister_refused_iff spiAccess_ne_registerBitSeven

/-- R72: a register access over the UART, directly or through a port. -/
theorem accessesUart_refused_iff {awaits : Bool} {packet : Bytes} (h : AccessesUart s i k reg awaits packet) :
    exec i s = .refused .registerBitSeven ↔ reg.getLsbD 7 = true := by
  rw [exec_accessesUart h]
  exact admitRegister_refused_iff uartOperation_ne_registerBitSeven

/-- R72: every bus operation, by the access it is. -/
theorem bus_refused_iff (h : i.register? = some reg) :
    exec i s = .refused .registerBitSeven ↔ reg.getLsbD 7 = true := by
  cases i with
  | spiWrite r v d =>
    cases h
    exact accessesSpi_refused_iff (Or.inl ⟨v, Or.inl ⟨rfl, rfl⟩, rfl, rfl⟩)
  | spiRead r d =>
    cases h
    exact accessesSpi_refused_iff (Or.inr ⟨Or.inl ⟨rfl, rfl⟩, rfl, rfl⟩)
  | uartWrite r v d =>
    cases h
    exact accessesUart_refused_iff (Or.inl ⟨v, d, Or.inl ⟨rfl, rfl⟩, rfl, rfl⟩)
  | uartRead r d =>
    cases h
    exact accessesUart_refused_iff (Or.inr ⟨d, Or.inl ⟨rfl, rfl⟩, rfl, rfl⟩)
  | bindWrite r v =>
    cases h
    rcases hb : s.caller.bind with ⟨_ | k | k, device⟩
    · rw [show exec (.bindWrite reg v) s = admitRegister reg _ from rfl, hb]
      exact admitRegister_refused_iff nofun
    · exact accessesSpi_refused_iff (Or.inl ⟨v, Or.inr ⟨rfl, hb⟩, rfl, rfl⟩)
    · exact accessesUart_refused_iff (Or.inl ⟨v, device, Or.inr ⟨rfl, hb⟩, rfl, rfl⟩)
  | bindRead r =>
    cases h
    rcases hb : s.caller.bind with ⟨_ | k | k, device⟩
    · rw [show exec (.bindRead reg) s = admitRegister reg _ from rfl, hb]
      exact admitRegister_refused_iff nofun
    · exact accessesSpi_refused_iff (Or.inr ⟨Or.inr ⟨rfl, hb⟩, rfl, rfl⟩)
    · exact accessesUart_refused_iff (Or.inr ⟨device, Or.inr ⟨rfl, hb⟩, rfl, rfl⟩)
  | spiRead2 r d =>
    cases h
    exact spiRead2On_refused_iff
  | _ => cases h

/-- An operation with no register operand is not refused for one. -/
theorem exec_ne_registerBitSeven (h : i.register? = none) : exec i s ≠ .refused .registerBitSeven := by
  cases i with
  | spiSetup => exact spiSetupOn_ne_registerBitSeven
  | uartSetup => exact uartSetupOn_ne_registerBitSeven
  | convSpeedToHz x => exact withContext_ne_registerBitSeven nofun
  | convSpeedFromHz q => exact withContext_ne_registerBitSeven (by split <;> nofun)
  | convAccelFromHz a => exact withContext_ne_registerBitSeven (by split <;> nofun)
  | convThresholdSpeedToTstep q => exact withContext_ne_registerBitSeven (by split <;> nofun)
  | _ => cases h

end

/-- Settles O12, by whether the operation has a register operand. -/
theorem registerBitSevenRefused : Obligations.RegisterBitSevenRefused := by
  intro i s
  cases hreg : i.register? with
  | none => exact ⟨fun h => absurd h (exec_ne_registerBitSeven hreg), nofun⟩
  | some reg =>
    rw [bus_refused_iff hreg]
    exact ⟨fun h => ⟨reg, rfl, h⟩, fun ⟨_, he, h⟩ => Option.some.inj he ▸ h⟩

/-! ## An answered access -/

section

variable {s : State} {i : Instr} {k line : Nat} {reg device : Byte} {rx : SpiFrame}
  (howner : OwnsSpi s k) (hreg : reg.toNat < 0x80) (hc : (s.spiAt k).configured = true)
  (hroute : (s.spiAt k).route device = some line) (hok : (drawExchange k s).1 = .ok rx)

include howner hreg hc hroute hok

/-- R102, R103: an answered register access exchanges its frame once and returns what the received frame gives. -/
theorem exec_accessesSpi_of_ok {form : FrameForm} {tx : SpiFrame} (ha : AccessesSpi s i k reg device form tx) :
    ∃ t v, exec i s = .next t ∧ Returned s t (.ok v) ∧ OnlySpi k s t ∧
      Exchanged (s.spiAt k) (t.spiAt k) line ⟨form, tx, some rx⟩ ∧
      (form = .write → v = .void) ∧ (form = .read reg → v = .word (frameValue rx)) := by
  obtain ⟨reply, hexec, hwrite, hread⟩ := exec_accessesSpi ha
  obtain ⟨s', hperform, hexchanged⟩ := spiPerform_of_ok form tx reply hc hroute hok
  refine ⟨s'.received (.ok (reply rx)), reply rx, ?_, returned_received (perform_caller hperform),
    (perform_onlySpi hperform).withCaller _, hexchanged, fun h => by rw [hwrite h], fun h => by rw [hread h]⟩
  rw [hexec, admitRegister_of_lt hreg, spiAccess_of_owner howner, hperform]
  rfl

end

/-- R8, R73: the write frame, with its flag and the bytes of its value written out. -/
theorem spiWriteFrame_eq (flag : WriteFlag) (reg : Byte) (value : Value) :
    spiWriteFrame flag reg value =
      ⟨reg ||| (if flag = .flag80 then 0x80 else 0x00), value.extractLsb' 24 8, value.extractLsb' 16 8,
        value.extractLsb' 8 8, value.extractLsb' 0 8⟩ := by
  cases flag <;> rfl

/-- Settles O19: an answered access whose frame is the write frame. -/
theorem spiWriteSendsItsFrame : Obligations.SpiWriteSendsItsFrame := by
  intro s i k line reg device value rx hi howner hreg hc hroute hok
  obtain ⟨t, v, hexec, hreturned, honly, hexchanged, hvoid, -⟩ :=
    exec_accessesSpi_of_ok howner hreg hc hroute hok (Or.inl ⟨value, hi, rfl, rfl⟩)
  rw [hvoid rfl] at hreturned
  rw [spiWriteFrame_eq] at hexchanged
  exact ⟨t, hexec, hreturned, honly, hexchanged⟩

/-- Settles O20: an answered access whose frame is the read frame, and whose value is the received frame's. -/
theorem spiReadReturnsReceivedValue : Obligations.SpiReadReturnsReceivedValue := by
  intro s i k line reg device rx hi howner hreg hc hroute hok
  obtain ⟨t, v, hexec, hreturned, honly, hexchanged, -, hword⟩ :=
    exec_accessesSpi_of_ok howner hreg hc hroute hok (Or.inr ⟨hi, rfl, rfl⟩)
  rw [hword rfl] at hreturned
  exact ⟨t, hexec, honly, hexchanged, frameValue rx, hreturned, unbe32_toNat _ _ _ _⟩

/-! ## The second read of the double read -/

/-- R95: a second read returns how its read ended, whatever that is. -/
theorem spiRead2_second {s s' : State} {reg device : Byte} {r : OpResult} (howner : OwnsSpi s s.caller.spi)
    (hreg : reg.toNat < 0x80) (hsecond : s.caller.inFlight = some .secondRead)
    (hperform : spiPerform s.caller.spi device (.read reg) (spiReadFrame reg) (fun rx => .word (frameValue rx)) s =
      .returned r s') :
    exec (.spiRead2 reg device) s = .next (s'.received r) ∧ Returned s (s'.received r) r := by
  rw [exec_spiRead2, spiRead2On_eq hreg howner hperform, if_pos hsecond]
  exact ⟨rfl, returned_received (perform_caller hperform)⟩

/-- Settles O28, by how the second read ends: before any transfer, answered, or faulted. -/
theorem doubleReadSecondHalf : Obligations.DoubleReadSecondHalf := by
  intro s reg device howner hreg hsecond hc
  refine ⟨fun hroute => ?_, fun line rx hroute hok => ?_, fun line hroute hfault => ?_⟩
  · obtain ⟨hexec, hreturned⟩ :=
      spiRead2_second howner hreg hsecond (spiPerform_of_unrouted hc hroute _ _ _)
    exact ⟨_, hexec, hreturned, onlyCaller_received s _⟩
  · obtain ⟨t, hexec, honly, hexchanged, hreturned⟩ := spiRead2_second_ok howner hreg hsecond hc hroute hok
    exact ⟨t, hexec, honly, hreturned, hexchanged⟩
  · obtain ⟨s', hperform, hexchanged⟩ := spiPerform_of_fault (.read reg) (spiReadFrame reg)
      (fun rx => .word (frameValue rx)) hc hroute hfault
    obtain ⟨hexec, hreturned⟩ := spiRead2_second howner hreg hsecond hperform
    exact ⟨_, hexec, (perform_onlySpi hperform).withCaller _, hreturned, hexchanged⟩

end Sys2Proof.Safety
end

-- ==== A read that awaits its response ====
section
/-! PROOFS. What resolves while a read awaits its response (O34), by the answer drawn. -/

namespace Sys2Proof.Safety

open Sys2Proof.Machine

/-! ## Taking a response -/

theorem takeResponse_of_lt {u : Uart} (h : u.rxq.length < 8) : u.takeResponse = u :=
  if_neg (Nat.not_le.mpr h)

/-- R78, R141: eight bytes at the front of `uart.rxq` are taken, and checked by the exclusive OR of the first seven. -/
theorem takeResponse_of_bytes {u : Uart} {b0 b1 b2 b3 b4 b5 b6 b7 : Byte} {more : Bytes}
    (h : u.rxq = b0 :: b1 :: b2 :: b3 :: b4 :: b5 :: b6 :: b7 :: more) :
    u.takeResponse =
      if b7 = b0 ^^^ b1 ^^^ b2 ^^^ b3 ^^^ b4 ^^^ b5 ^^^ b6 then
        { u with op := .complete, got := .word (unbe32 b3 b4 b5 b6), rxq := more }
      else { u with op := .checksumError, rxq := more } := by
  have hlen : Config.uartResponseBytes ≤ u.rxq.length := by
    rw [h]
    exact Nat.le_add_left 8 more.length
  have htake : u.rxq.take Config.uartResponseBytes = [b0, b1, b2, b3, b4, b5, b6, b7] := by rw [h]; rfl
  have hdrop : u.rxq.drop Config.uartResponseBytes = more := by rw [h]; rfl
  have hvalid : responseValid [b0, b1, b2, b3, b4, b5, b6, b7] = true ↔
      b7 = b0 ^^^ b1 ^^^ b2 ^^^ b3 ^^^ b4 ^^^ b5 ^^^ b6 := by
    simp [responseValid, xorBytes]
  simp only [Uart.takeResponse, if_pos hlen, htake, hdrop, hvalid]
  rfl

/-- R134: one sub-step of a read that awaits its response changes the framer as its answer says, and nothing else. -/
theorem exec_readsUart_receiving {s : State} {i : Instr} {k : Nat} {reg device : Byte} (hi : ReadsUart s i k reg device)
    (howner : OwnsUart s k) (hreg : reg.toNat < 0x80) (hop : (s.uartAt k).op = .awaitingResponse)
    (hf : s.caller.inFlight = some (.uart k)) :
    ∃ t rest, exec i s = .next t ∧ OnlyUart k s t ∧ t.caller = s.caller ∧
      t.uartAt k = { (s.uartAt k).onReceive (drawReceive k s).1 with receiveAnswers := rest } := by
  have hbusy : (s.uartAt k).op ≠ .idle := by rw [hop]; decide
  obtain ⟨rest, d, hcontinue⟩ := uartContinue_receiving hop
  refine ⟨s.putUart k { (s.uartAt k).onReceive (drawReceive k s).1 with receiveAnswers := rest } d, rest, ?_,
    onlyUart_of_putUart s k _ rfl rfl rfl rfl, rfl, putUart_uartAt_self s k _ d (uart_exists_of_op hbusy)⟩
  rw [exec_accessesUart (Or.inr ⟨device, hi, rfl, rfl⟩), admitRegister_of_lt hreg, uartOperation,
    admitCaller_of_owner howner, if_neg hbusy, if_pos hf, hcontinue]

/-- R138 (c): of `n` bytes to consume, at most eight are. -/
theorem min_responseBytes (n : Nat) :
    min n Config.uartResponseBytes ≤ 8 ∧ (n ≤ 8 → min n Config.uartResponseBytes = n) :=
  ⟨Nat.min_le_right _ _, Nat.min_eq_left⟩

/-- Settles O34, by the answer drawn, and where it is `proceed` by the bytes received. -/
theorem uartReceivingResolves : Obligations.UartReceivingResolves := by
  intro s i k reg device hi howner hreg hop hf
  obtain ⟨t, rest, hexec, honly, hcaller, huart⟩ := exec_readsUart_receiving hi howner hreg hop hf
  refine ⟨t, rest, hexec, honly, hcaller, fun hdraw hlen => ?_, fun b0 b1 b2 b3 b4 b5 b6 b7 more hdraw hrxq => ?_,
    fun n hdraw => ?_, fun n hdraw => ?_⟩ <;> rw [huart, hdraw, Uart.onReceive]
  · rw [takeResponse_of_lt hlen]
  · rw [takeResponse_of_bytes hrxq]
    split <;> rfl
  · obtain ⟨hle, heq⟩ := min_responseBytes n
    exact ⟨_, hle, heq, rfl⟩
  · obtain ⟨hle, heq⟩ := min_responseBytes n
    exact ⟨_, hle, heq, rfl⟩

end Sys2Proof.Safety
end

-- ==== The SPI transceiver ====
section
/-! PROOFS. The write frame read back (O5); the ends of `spi.setup` (O15, O16); the register accesses that return an error
(O17, O18, O21); and how many exchanges a returning operation has made (O23). -/

namespace Sys2Proof.Safety

open Sys2Proof.Machine

/-! ## The write frame -/

/-- Settles O5: the value field is `unbe32 (be32 value)`, and neither flag is seen under the mask 0x7F. -/
theorem spiWriteFrameRoundTrip : Obligations.SpiWriteFrameRoundTrip := by
  intro flag reg value hreg
  refine ⟨frameValue_spiWriteFrame flag reg value, ?_⟩
  cases flag with
  | flag00 =>
    change (reg ||| 0x00) &&& 0x7F = reg
    rw [show reg ||| 0x00 = reg from BitVec.or_zero, and_7f_of_lt hreg]
  | flag80 => exact or_80_and_7f_of_lt hreg

/-! ## Setup -/

theorem exec_spiSetup (s : State) : exec .spiSetup s = spiSetupOn s.caller.spi s := rfl

/-- Settles O15: of the three ends of a setup, the one of an accepted configuration. -/
theorem spiSetupConfigures : Obligations.SpiSetupConfigures := by
  intro s howner hset haccept
  rcases spiSetupOn_cases howner with ⟨hunset, -⟩ | ⟨-, -, rest, d, hsetup⟩ | ⟨-, hreject, -⟩
  · cases hset.symm.trans hunset
  · refine ⟨_, (exec_spiSetup s).trans hsetup, returned_received rfl, onlySpi_of_putSpi s _ _ rfl rfl rfl rfl, rest, ?_⟩
    rw [received_spiAt, putSpi_spiAt_self s _ _ d (spi_exists_of_handle hset)]
    rfl
  · cases haccept.symm.trans hreject

/-- R101 (a): an object that is marked not configured reads so, also where none was constructed (log entry 8). -/
theorem setSpi_unconfigured_spiAt (s : State) (k : Nat) :
    (s.setSpi k { s.spiAt k with configured := false }).spiAt k = { s.spiAt k with configured := false } := by
  by_cases hk : k < s.spis.length
  · exact setSpi_spiAt_self s k _ hk
  · rw [spiAt_absent s k hk, spiAt_absent _ k (by simpa using hk)]
    rfl

/-- R101 (b): a rejected configuration changes the table in its levels only. -/
theorem rejected_lines_but_levels (p : Spi) (n : Nat) :
    (p.rejected n).lines.map (fun e => { e with level := .deasserted }) =
      p.lines.map (fun e => { e with level := .deasserted }) := by
  simp [Spi.rejected, Function.comp_def]

/-- Settles O16: of the three ends of a setup, the two that return an error. -/
theorem spiSetupFails : Obligations.SpiSetupFails := by
  intro s howner
  rcases spiSetupOn_cases howner with ⟨hunset, hsetup⟩ | ⟨hset, haccept, -⟩ | ⟨hset, -, rest, n, d, hsetup⟩
  · refine ⟨fun _ => ?_, fun hset => (nomatch hset.symm.trans hunset)⟩
    exact ⟨_, (exec_spiSetup s).trans hsetup, returned_received rfl, onlySpi_of_putSpi s _ _ rfl rfl rfl rfl,
      setSpi_unconfigured_spiAt s s.caller.spi⟩
  · exact ⟨fun hunset => (nomatch hset.symm.trans hunset), fun _ hreject => (nomatch haccept.symm.trans hreject)⟩
  · refine ⟨fun hunset => (nomatch hset.symm.trans hunset), fun _ _ => ?_⟩
    refine ⟨_, (exec_spiSetup s).trans hsetup, returned_received rfl, onlySpi_of_putSpi s _ _ rfl rfl rfl rfl,
      _, rest, rejected_lines_but_levels (s.spiAt s.caller.spi) n, ?_⟩
    rw [received_spiAt, putSpi_spiAt_self s _ _ d (spi_exists_of_handle hset)]
    rfl

/-! ## Accesses that return an error -/

/-- R102, R103: a register access of the object's one caller returns what its `spiPerform` returns. -/
theorem exec_accessesSpi_of_owner {s : State} {i : Instr} {k : Nat} {reg device : Byte} {form : FrameForm}
    {tx : SpiFrame} (ha : AccessesSpi s i k reg device form tx) (howner : OwnsSpi s k) (hreg : reg.toNat < 0x80) :
    ∃ reply, ∀ r s', spiPerform k device form tx reply s = .returned r s' →
      exec i s = .next (s'.received r) ∧ Returned s (s'.received r) r := by
  obtain ⟨reply, hexec, -⟩ := exec_accessesSpi ha
  refine ⟨reply, fun r s' hperform => ⟨?_, returned_received (perform_caller hperform)⟩⟩
  rw [hexec, admitRegister_of_lt hreg, spiAccess_of_owner howner, hperform]
  rfl

/-- Settles O17: the access returns before any transfer. -/
theorem spiAccessBeforeSetup : Obligations.SpiAccessBeforeSetup := by
  intro s k reg device howner hreg hc
  refine ⟨fun i form tx ha => ?_, ?_⟩
  · obtain ⟨reply, hreturns⟩ := exec_accessesSpi_of_owner ha howner hreg
    obtain ⟨hexec, hreturned⟩ := hreturns _ _ (spiPerform_of_unconfigured hc device form tx reply)
    exact ⟨_, hexec, hreturned, onlyCaller_received s _⟩
  · rintro rfl hsecond
    obtain ⟨hexec, hreturned⟩ :=
      spiRead2_second howner hreg hsecond (spiPerform_of_unconfigured hc device _ _ _)
    exact ⟨_, hexec, hreturned, onlyCaller_received s _⟩

/-- Settles O18: a device with no entry has no route, and the access returns before any transfer. -/
theorem spiUnknownDevice : Obligations.SpiUnknownDevice := by
  intro s i k reg device form tx ha howner hreg hc habsent
  obtain ⟨reply, hreturns⟩ := exec_accessesSpi_of_owner ha howner hreg
  obtain ⟨hexec, hreturned⟩ := hreturns _ _ (spiPerform_of_unrouted hc (route_eq_none habsent) form tx reply)
  exact ⟨_, hexec, hreturned, onlyCaller_received s _⟩

/-- Settles O21: a faulted transfer is one exchange too, and its line ends `Deasserted`. -/
theorem spiFaultReleasesTheLine : Obligations.SpiFaultReleasesTheLine := by
  intro s i k line reg device form tx ha howner hreg hc hroute hfault
  obtain ⟨reply, hreturns⟩ := exec_accessesSpi_of_owner ha howner hreg
  obtain ⟨s', hperform, hexchanged⟩ := spiPerform_of_fault form tx reply hc hroute hfault
  obtain ⟨hexec, hreturned⟩ := hreturns _ _ hperform
  exact ⟨_, hexec, hreturned, (perform_onlySpi hperform).withCaller _, hexchanged⟩

/-! ## The number of exchanges -/

/-- A register access that returns has passed the checks of R72 and R213, and ended as its `spiPerform` did. -/
theorem exec_accessesSpi_next {s t : State} {i : Instr} {k : Nat} {reg device : Byte} {form : FrameForm}
    {tx : SpiFrame} (ha : AccessesSpi s i k reg device form tx) (h : exec i s = .next t) :
    ∃ reply r s', spiPerform k device form tx reply s = .returned r s' ∧ t = s'.received r := by
  obtain ⟨reply, hexec, -⟩ := exec_accessesSpi ha
  obtain ⟨-, haccess⟩ := admitRegister_next (hexec.symm.trans h)
  obtain ⟨-, hgo⟩ := admitCaller_next haccess
  cases hperform : spiPerform k device form tx reply s with
  | stuck =>
    rw [hperform] at hgo
    cases hgo
  | returned r s' =>
    rw [hperform] at hgo
    exact ⟨reply, r, s', hperform, finish_next hgo⟩

/-- R106: an access of a routed device that returned has made one exchange, answered or faulted. -/
theorem exchanged_of_performed {s s' : State} {k line : Nat} {device : Byte} {form : FrameForm} {tx : SpiFrame}
    {reply : SpiFrame → ResultValue} {r : OpResult} (hc : (s.spiAt k).configured = true)
    (hroute : (s.spiAt k).route device = some line)
    (hperform : spiPerform k device form tx reply s = .returned r s') :
    ∃ x, Exchanged (s.spiAt k) (s'.spiAt k) line x := by
  cases hdraw : (drawExchange k s).1 with
  | never => cases hperform.symm.trans ((spiPerform_stuck_iff reply).mpr ⟨hc, ⟨line, hroute⟩, hdraw⟩)
  | fault =>
    obtain ⟨s'', hperform', hexchanged⟩ := spiPerform_of_fault form tx reply hc hroute hdraw
    cases hperform.symm.trans hperform'
    exact ⟨_, hexchanged⟩
  | ok rx =>
    obtain ⟨s'', hperform', hexchanged⟩ := spiPerform_of_ok form tx reply hc hroute hdraw
    cases hperform.symm.trans hperform'
    exact ⟨_, hexchanged⟩

/-- R106: an access that raises before the transfer leaves the state as it was. -/
theorem performed_unchanged {s s' : State} {k : Nat} {device : Byte} {form : FrameForm} {tx : SpiFrame}
    {reply : SpiFrame → ResultValue} {r : OpResult}
    (hraises : (s.spiAt k).configured = false ∨ (s.spiAt k).route device = none)
    (hperform : spiPerform k device form tx reply s = .returned r s') : s' = s := by
  cases hc : (s.spiAt k).configured with
  | false =>
    cases hperform.symm.trans (spiPerform_of_unconfigured hc device form tx reply)
    rfl
  | true =>
    have hroute := hraises.resolve_left (by simp [hc])
    cases hperform.symm.trans (spiPerform_of_unrouted hc hroute form tx reply)
    rfl

/-- R106: one exchange grows its own line's record by one, and no other's. -/
theorem Exchanged.exchanges_length {p q : Spi} {line : Nat} {x : Exchange} (h : Exchanged p q line x) (l : Nat) :
    (q.exchanges l).length = (p.exchanges l).length + (if l = line then 1 else 0) := by
  obtain ⟨-, -, -, hlog, -, hother, -⟩ := h
  by_cases hl : l = line
  · rw [if_pos hl, hl, hlog, List.length_cons]
  · rw [if_neg hl, (hother l hl).2, Nat.add_zero]

/-- R24, R27: driving every line of the table to a level notes no exchange. -/
theorem exchanges_of_levels {p q : Spi} (level : SelectLine → Level)
    (hq : q.lines = p.lines.map fun e => { e with level := level e }) (l : Nat) : q.exchanges l = p.exchanges l := by
  have hfind : q.lines.find? (fun e => e.line == l) =
      (p.lines.find? fun e => e.line == l).map fun e => { e with level := level e } := by
    rw [hq, List.find?_map]
    rfl
  rw [Spi.exchanges, hfind, Spi.exchanges]
  cases p.lines.find? fun e => e.line == l <;> rfl

/-- R106: no end of a setup notes an exchange. -/
theorem spiMoves_setup_exchanges {p q : Spi} (hm : SpiMoves .spiSetup p q) (l : Nat) :
    q.exchanges l = p.exchanges l := by
  rcases hm with ⟨-, ⟨-, rfl⟩ | ⟨-, _, rfl⟩ | ⟨-, n, _, rfl⟩⟩ | ⟨hne, -⟩
  · rfl
  · exact exchanges_of_levels (fun _ => .deasserted) rfl l
  · exact exchanges_of_levels (fun e => Config.freeLevel n e.line) rfl l
  · exact absurd rfl hne

/-- Settles O23: an access that returned did so with its one exchange, or before the transfer; a setup moves levels
only. -/
theorem spiExchangeCount : Obligations.SpiExchangeCount := by
  refine ⟨fun s t i k reg device form tx ha h => ?_, fun s t h j l => ?_⟩
  · obtain ⟨reply, r, s', hperform, rfl⟩ := exec_accessesSpi_next ha h
    refine ⟨fun line hc hroute l => ?_, fun hraises => ?_⟩
    · obtain ⟨x, hexchanged⟩ := exchanged_of_performed hc hroute hperform
      exact hexchanged.exchanges_length l
    · rw [received_spis, performed_unchanged hraises hperform]
  · rcases exec_spiAt h j with hj | hm
    · rw [hj]
    · exact spiMoves_setup_exchanges hm l

end Sys2Proof.Safety
end

-- ==== The UART framer's operations ====
section
/-! PROOFS. The bytes of the UART packets (O6); the ends of `uart.setup` (O30); and a register access over the UART, sub-step
by sub-step: before a setup (O31), the dispatch (O32), while sending (O33), the return (O35), a whole write and a whole read
(O36, O37), the bounded wait (O39) and what is sent once (O40). -/

namespace Sys2Proof.Safety

open Sys2Proof.Machine

/-! ## The bytes of the packets -/

/-- R79: the fold of a sequence that is not empty starts with its first byte. -/
theorem xorBytes_cons (b : Byte) (bs : Bytes) : xorBytes (b :: bs) = bs.foldl (· ^^^ ·) b :=
  congrArg (bs.foldl (· ^^^ ·)) BitVec.zero_xor

/-- Settles O6: the bytes are those of the definitions, and the checksum's fold starts with the sync byte. -/
theorem uartPacketBytes : Obligations.UartPacketBytes := by
  intro reg device value
  constructor
  · rw [uartWritePacket, withChecksum, List.cons_append, xorBytes_cons]
    rfl
  · rw [uartReadRequest, withChecksum, xorBytes_cons]
    rfl

/-! ## Setup -/

/-- R28: an object that is marked not configured reads so, also where none was constructed (log entry 8). -/
theorem setUart_unconfigured_uartAt (s : State) (k : Nat) :
    (s.setUart k { s.uartAt k with configured := false }).uartAt k = { s.uartAt k with configured := false } := by
  by_cases hk : k < s.uarts.length
  · exact setUart_uartAt_self s k _ hk
  · rw [uartAt_absent s k hk, uartAt_absent _ k (by simpa using hk)]
    rfl

/-- Settles O30: behind the checks of R143 and R213 a setup is decided by the handle. -/
theorem uartSetupOutcomes : Obligations.UartSetupOutcomes := by
  intro s howner hop
  have hexec : exec .uartSetup s = _ := (admitCaller_of_owner howner _).trans (if_pos hop)
  refine ⟨fun hset => ?_, fun hunset => ?_⟩
  · rw [hset] at hexec
    exact ⟨_, hexec, returned_received rfl, onlyUart_of_putUart s _ _ rfl rfl rfl rfl,
      setUart_uartAt_self s _ _ (uart_exists_of_handle hset)⟩
  · rw [hunset] at hexec
    exact ⟨_, hexec, returned_received rfl, onlyUart_of_putUart s _ _ rfl rfl rfl rfl,
      setUart_unconfigured_uartAt s _⟩

/-! ## An access that passes the checks of R72 and R213 -/

/-- A register access over UART object `k` by its one caller, bit 7 of its register clear. -/
structure AdmittedUart (s : State) (i : Instr) (k : Nat) (reg : Byte) (awaits : Bool) (packet : Bytes) : Prop where
  accesses : AccessesUart s i k reg awaits packet
  owner : OwnsUart s k
  register : reg.toNat < 0x80

/-- R13: the framer a command reaches is the caller's, so what the caller is in the middle of does not change it. -/
theorem accessesUart_of_inFlight {s t : State} {i : Instr} {k : Nat} {reg : Byte} {awaits : Bool} {packet : Bytes}
    {f : Option InFlight} (h : AccessesUart s i k reg awaits packet)
    (hcaller : t.caller = { s.caller with inFlight := f }) : AccessesUart t i k reg awaits packet := by
  unfold AccessesUart WritesUart ReadsUart at h ⊢
  rw [hcaller]
  exact h

/-- R133, R134: an access that awaits a response is a read. -/
theorem readsUart_of_awaits {s : State} {i : Instr} {k : Nat} {reg : Byte} {packet : Bytes}
    (h : AccessesUart s i k reg true packet) : ∃ device, ReadsUart s i k reg device := by
  rcases h with ⟨_, _, -, hawaits, -⟩ | ⟨device, hreads, -⟩
  · cases hawaits
  · exact ⟨device, hreads⟩

/-- An access stays admitted from one sub-step to the next. -/
theorem AdmittedUart.next {s t : State} {i : Instr} {k : Nat} {reg : Byte} {awaits : Bool} {packet : Bytes}
    {f : Option InFlight} (h : AdmittedUart s i k reg awaits packet)
    (hcaller : t.caller = { s.caller with inFlight := f }) (howner : (t.uartAt k).owner = (s.uartAt k).owner) :
    AdmittedUart t i k reg awaits packet := by
  refine ⟨accessesUart_of_inFlight h.accesses hcaller, ?_, h.register⟩
  rw [OwnsUart, howner, hcaller]
  exact h.owner

theorem OnlyUart.trans {k : Nat} {s t u : State} (h : OnlyUart k s t) (h' : OnlyUart k t u) : OnlyUart k s u := by
  obtain ⟨hspis, hwaiting, hschedule, hlength, hother⟩ := h
  obtain ⟨hspis', hwaiting', hschedule', hlength', hother'⟩ := h'
  exact ⟨hspis'.trans hspis, hwaiting'.trans hwaiting, hschedule'.trans hschedule, hlength'.trans hlength,
    fun j hj => (hother' j hj).trans (hother j hj)⟩

/-- R131, R132: a move of the environment on a line touches that line's framer only. -/
theorem onlyUart_lineMove (k : Nat) (m : LineMove) (s : State) : OnlyUart k s (lineMove k m s) :=
  onlyUart_of_putUart s k ((s.uartAt k).move m) rfl rfl rfl rfl

/-- R13: a returning caller is in the middle of nothing, whatever it was in the middle of before. -/
theorem Returned.of_inFlight {s t u : State} {r : OpResult} {f : Option InFlight} (h : Returned t u r)
    (hcaller : t.caller = { s.caller with inFlight := f }) : Returned s u r := by
  unfold Returned at h
  rwa [hcaller] at h

/-! ## One sub-step each -/

section

variable {s : State} {i : Instr} {k : Nat} {reg : Byte} {awaits : Bool} {packet : Bytes}
  (h : AdmittedUart s i k reg awaits packet)

include h

theorem AdmittedUart.exec_idle (hop : (s.uartAt k).op = .idle) : exec i s = uartStart k packet s := by
  rw [exec_accessesUart h.accesses, admitRegister_of_lt h.register, uartOperation, admitCaller_of_owner h.owner,
    if_pos hop]

theorem AdmittedUart.exec_busy (hop : (s.uartAt k).op ≠ .idle) (hf : s.caller.inFlight = some (.uart k)) :
    exec i s = uartContinue k awaits s := by
  rw [exec_accessesUart h.accesses, admitRegister_of_lt h.register, uartOperation, admitCaller_of_owner h.owner,
    if_neg hop, if_pos hf]

/-- R131, R133, R134: the first sub-step dispatches the packet. -/
theorem AdmittedUart.dispatches (hop : (s.uartAt k).op = .idle) (hc : (s.uartAt k).configured = true) :
    ∃ t, exec i s = .next t ∧ OnlyUart k s t ∧ t.caller = { s.caller with inFlight := some (.uart k) } ∧
      t.uartAt k = (s.uartAt k).dispatch packet := by
  refine ⟨(s.setUart k ((s.uartAt k).dispatch packet)).setInFlight (some (.uart k)), ?_,
    onlyUart_of_putUart s k _ rfl rfl rfl rfl, rfl, setUart_uartAt_self s k _ (uart_exists_of_configured hc)⟩
  rw [h.exec_idle hop, uartStart, if_neg (by simp [hc])]

/-- R135: a sub-step while sending changes the framer as its answer says. -/
theorem AdmittedUart.sends (hop : (s.uartAt k).op = .sending) (hf : s.caller.inFlight = some (.uart k)) :
    ∃ t rest, exec i s = .next t ∧ OnlyUart k s t ∧ t.caller = s.caller ∧
      t.uartAt k = { (s.uartAt k).onSend awaits (drawSend k s).1 with sendAnswers := rest } := by
  have hbusy : (s.uartAt k).op ≠ .idle := by rw [hop]; decide
  obtain ⟨rest, d, hcontinue⟩ := uartContinue_sending hop
  exact ⟨_, rest, (h.exec_busy hbusy hf).trans hcontinue, onlyUart_of_putUart s k _ rfl rfl rfl rfl, rfl,
    putUart_uartAt_self s k _ d (uart_exists_of_op hbusy)⟩

/-- R135: the same where the answer is listed: it is taken from the list. -/
theorem AdmittedUart.sends_listed {a : SendAnswer} {rest : List SendAnswer} (hop : (s.uartAt k).op = .sending)
    (hf : s.caller.inFlight = some (.uart k)) (ha : (s.uartAt k).sendAnswers = a :: rest) :
    ∃ t, exec i s = .next t ∧ OnlyUart k s t ∧ t.caller = s.caller ∧
      t.uartAt k = Uart.onSend { s.uartAt k with sendAnswers := rest } awaits a := by
  have hbusy : (s.uartAt k).op ≠ .idle := by rw [hop]; decide
  have hk := uart_exists_of_op hbusy
  refine ⟨s.setUart k (Uart.onSend { s.uartAt k with sendAnswers := rest } awaits a), ?_,
    onlyUart_of_putUart s k _ rfl rfl rfl rfl, rfl, setUart_uartAt_self s k _ hk⟩
  rw [h.exec_busy hbusy hf, uartContinue, hop, drawSend, ha]
  simp only [setUart_uartAt_self s k _ hk, setUart_setUart]

/-- R137: the last sub-step returns what the terminal state stands for. -/
theorem AdmittedUart.returns {r : OpResult} (hv : (s.uartAt k).verdict? = some r)
    (hf : s.caller.inFlight = some (.uart k)) :
    ∃ t, exec i s = .next t ∧ Returned s t r ∧ OnlyUart k s t ∧ t.uartAt k = { s.uartAt k with op := .idle } :=
  ⟨_, (h.exec_busy (busy_of_verdict hv) hf).trans (uartContinue_returns hv), returned_received rfl,
    onlyUart_of_putUart s k _ rfl rfl rfl rfl, setUart_uartAt_self s k _ (uart_exists_of_op (busy_of_verdict hv))⟩

end

/-- Settles O31: the first sub-step of a framer that is not configured ends the operation. -/
theorem uartAccessBeforeSetup : Obligations.UartAccessBeforeSetup := by
  intro s i k reg awaits packet ha howner hreg hop hc
  refine ⟨_, ?_, returned_received rfl, onlyCaller_received s (.err .configuration)⟩
  rw [AdmittedUart.exec_idle ⟨ha, howner, hreg⟩ hop, uartStart, if_pos hc]
  rfl

/-- Settles O32: the first sub-step of a configured framer. -/
theorem uartDispatchesItsPacket : Obligations.UartDispatchesItsPacket :=
  fun _ _ _ _ _ _ ha howner hreg hop hc => AdmittedUart.dispatches ⟨ha, howner, hreg⟩ hop hc

/-- Settles O33, by the answer drawn. -/
theorem uartSendingResolves : Obligations.UartSendingResolves := by
  intro s i k reg awaits packet ha howner hreg hop hf
  obtain ⟨t, rest, hexec, honly, hcaller, huart⟩ := AdmittedUart.sends ⟨ha, howner, hreg⟩ hop hf
  refine ⟨t, rest, hexec, honly, hcaller, ?_⟩
  rw [huart]
  cases (drawSend k s).1 with
  | pending => rfl
  | done => cases awaits <;> rfl
  | fault => rfl
  | expire => rfl

/-- R137: the four terminal states, each with the result it stands for. -/
theorem verdict_of_terminal {u : Uart} {r : OpResult}
    (h : (u.op = .complete ∧ r = .ok u.got) ∨ (u.op = .timedOut ∧ r = .err .timeout) ∨
      (u.op = .checksumError ∧ r = .err .checksum) ∨ (u.op = .faulted ∧ r = .err .transport)) :
    u.verdict? = some r := by
  rcases h with ⟨hop, rfl⟩ | ⟨hop, rfl⟩ | ⟨hop, rfl⟩ | ⟨hop, rfl⟩ <;> rw [Uart.verdict?, hop]

/-- Settles O35: the last sub-step, from any terminal state. -/
theorem uartReturnsToIdle : Obligations.UartReturnsToIdle :=
  fun _ _ _ _ _ _ ha howner hreg hf _ hterminal =>
    AdmittedUart.returns ⟨ha, howner, hreg⟩ (verdict_of_terminal hterminal) hf

/-! ## Whole operations -/

/-- R131, R133, R134: the first two sub-steps of an operation whose send completes. -/
theorem AdmittedUart.dispatches_then_done {s : State} {i : Instr} {k : Nat} {reg : Byte} {awaits : Bool} {packet : Bytes}
    {rest : List SendAnswer} (h : AdmittedUart s i k reg awaits packet) (hop : (s.uartAt k).op = .idle)
    (hc : (s.uartAt k).configured = true) (hdone : (s.uartAt k).sendAnswers = .done :: rest) :
    ∃ t u, exec i s = .next t ∧ exec i t = .next u ∧ OnlyUart k s u ∧
      u.caller = { s.caller with inFlight := some (.uart k) } ∧ AdmittedUart u i k reg awaits packet ∧
      u.uartAt k = Uart.onSend { (s.uartAt k).dispatch packet with sendAnswers := rest } awaits .done := by
  obtain ⟨t, hexec, honly, hcaller, huart⟩ := h.dispatches hop hc
  have ht : AdmittedUart t i k reg awaits packet := h.next hcaller (by rw [huart]; rfl)
  obtain ⟨u, hexec', honly', hcaller', huart'⟩ := ht.sends_listed (a := .done) (rest := rest)
    (by rw [huart]; rfl) (by rw [hcaller]) (by rw [huart]; exact hdone)
  rw [huart] at huart'
  refine ⟨t, u, hexec, hexec', honly.trans honly', hcaller'.trans hcaller,
    h.next (hcaller'.trans hcaller) ?_, huart'⟩
  rw [huart', onSend_frame]
  rfl

/-- Settles O36: the dispatch, `Done`, and the return of `Complete`. -/
theorem uartWriteCompletes : Obligations.UartWriteCompletes := by
  intro s i k reg device value rest hi howner hreg hop hc hdone
  have h : AdmittedUart s i k reg false (uartWritePacket device reg value) :=
    ⟨Or.inl ⟨value, device, hi, rfl, rfl⟩, howner, hreg⟩
  obtain ⟨t, u, het, heu, honly, hcaller, hu, huart⟩ := h.dispatches_then_done hop hc hdone
  obtain ⟨v, hev, hreturned, honly', huart'⟩ := hu.returns (r := .ok .void) (by rw [huart]; rfl) (by rw [hcaller])
  refine ⟨t, u, v, het, heu, hev, hreturned.of_inFlight hcaller, honly.trans honly', ?_⟩
  rw [huart', huart, ← hop]
  rfl

/-- R134, R141: a read that awaits its response takes eight bytes where the answer is listed to go on, and the framer then
stands for the value or for `ChecksumError`. -/
theorem AdmittedUart.takes_response {s : State} {i : Instr} {k : Nat} {reg : Byte} {packet : Bytes}
    {rest : List ReceiveAnswer} {b0 b1 b2 b3 b4 b5 b6 b7 : Byte} (h : AdmittedUart s i k reg true packet)
    (hop : (s.uartAt k).op = .awaitingResponse) (hf : s.caller.inFlight = some (.uart k))
    (hproceed : (s.uartAt k).receiveAnswers = .proceed :: rest)
    (hrxq : (s.uartAt k).rxq = [b0, b1, b2, b3, b4, b5, b6, b7]) :
    ∃ t, exec i s = .next t ∧ OnlyUart k s t ∧ t.caller = s.caller ∧ AdmittedUart t i k reg true packet ∧
      (t.uartAt k).verdict? = some
        (if b7 = b0 ^^^ b1 ^^^ b2 ^^^ b3 ^^^ b4 ^^^ b5 ^^^ b6 then .ok (.word (unbe32 b3 b4 b5 b6))
        else .err .checksum) ∧
      (t.uartAt k).rxq = [] ∧ (t.uartAt k).txLeft = (s.uartAt k).txLeft ∧ (t.uartAt k).wire = (s.uartAt k).wire := by
  obtain ⟨device, hreads⟩ := readsUart_of_awaits h.accesses
  obtain ⟨t, rest', hexec, honly, hcaller, huart⟩ := exec_readsUart_receiving hreads h.owner h.register hop hf
  have hdraw : (drawReceive k s).1 = .proceed := by rw [drawReceive, hproceed]
  rw [hdraw, Uart.onReceive, takeResponse_of_bytes hrxq] at huart
  have hnext := h.next (t := t) (f := s.caller.inFlight) hcaller
  refine ⟨t, hexec, honly, hcaller, ?_⟩
  split at huart
  · rw [huart] at hnext ⊢
    rw [if_pos ‹_›]
    exact ⟨hnext rfl, rfl, rfl, rfl, rfl⟩
  · rw [huart] at hnext ⊢
    rw [if_neg ‹_›]
    exact ⟨hnext rfl, rfl, rfl, rfl, rfl⟩

/-- Settles O37: the dispatch, `Done`, the eight bytes the environment sends, and the return of their verdict. -/
theorem uartReadCompletes : Obligations.UartReadCompletes := by
  intro s i k reg device rest rest' b0 b1 b2 b3 b4 b5 b6 b7 hi howner hreg hop hc hrxq htx hdone hproceed
  have h : AdmittedUart s i k reg true (uartReadRequest device reg) := ⟨Or.inr ⟨device, hi, rfl, rfl⟩, howner, hreg⟩
  obtain ⟨t, u, het, heu, honly, hcaller, hu, huart⟩ := h.dispatches_then_done hop hc hdone
  have hk : k < u.uarts.length := uart_exists_of_op (by rw [huart]; exact nofun)
  have hline := setUart_uartAt_self u k ((u.uartAt k).move (.receive [b0, b1, b2, b3, b4, b5, b6, b7])) hk
  rw [← lineMove, huart] at hline
  have hl : AdmittedUart (lineMove k (.receive [b0, b1, b2, b3, b4, b5, b6, b7]) u) i k reg true
      (uartReadRequest device reg) := h.next hcaller (by rw [hline]; rfl)
  obtain ⟨v, hev, honly', hcaller', hv, hverdict, hrxq', htx', hwire'⟩ := hl.takes_response (rest := rest')
    (by rw [hline]; rfl) (congrArg Caller.inFlight hcaller) (by rw [hline]; exact hproceed)
    (by rw [hline]; exact congrArg (· ++ [b0, b1, b2, b3, b4, b5, b6, b7]) hrxq)
  have hcallerv := hcaller'.trans hcaller
  obtain ⟨w, hew, hreturned, honly'', huart''⟩ := hv.returns hverdict (by rw [hcallerv])
  refine ⟨t, u, v, w, het, heu, hev, hew, hreturned.of_inFlight hcallerv,
    (honly.trans (onlyUart_lineMove k _ u)).trans (honly'.trans honly''), ?_⟩
  rw [huart'']
  refine ⟨rfl, hrxq', htx'.trans ?_, hwire'.trans ?_⟩ <;> rw [hline] <;> rfl

/-! ## The wait is bounded -/

theorem uartOperation_ne_fault {s : State} {k : Nat} {awaits : Bool} {packet : Bytes} (f : Fault) :
    uartOperation k awaits packet s ≠ .fault f := by
  by_cases howner : OwnsUart s k
  · rcases uartOperation_cases howner awaits packet with ⟨_, _, e⟩ | ⟨_, _, e⟩ | ⟨_, _, _, _, e⟩ |
      ⟨_, _, _, _, _, e⟩ | ⟨_, _, _, e⟩ | ⟨_, _, e⟩ <;> rw [e] <;> nofun
  · rw [uartOperation, admitCaller_of_other howner]
    nofun

/-- R135: an expiry, while sending or while a read awaits its response, ends the operation `TimedOut`. -/
theorem AdmittedUart.expires {s : State} {i : Instr} {k : Nat} {reg : Byte} {awaits : Bool} {packet : Bytes}
    (h : AdmittedUart s i k reg awaits packet) (hf : s.caller.inFlight = some (.uart k))
    (hexpire : ((s.uartAt k).op = .sending ∧ (drawSend k s).1 = .expire) ∨
      (awaits = true ∧ (s.uartAt k).op = .awaitingResponse ∧ ∃ n, (drawReceive k s).1 = .expire n)) :
    ∃ t, exec i s = .next t ∧ t.caller = s.caller ∧ AdmittedUart t i k reg awaits packet ∧
      (t.uartAt k).op = .timedOut := by
  rcases hexpire with ⟨hop, hdraw⟩ | ⟨rfl, hop, n, hdraw⟩
  · obtain ⟨t, rest, hexec, -, hcaller, huart⟩ := h.sends hop hf
    rw [hdraw] at huart
    exact ⟨t, hexec, hcaller, h.next (f := s.caller.inFlight) hcaller (by rw [huart]; rfl), by rw [huart]; rfl⟩
  · obtain ⟨device, hreads⟩ := readsUart_of_awaits h.accesses
    obtain ⟨t, rest, hexec, -, hcaller, huart⟩ := exec_readsUart_receiving hreads h.owner h.register hop hf
    rw [hdraw] at huart
    exact ⟨t, hexec, hcaller, h.next (f := s.caller.inFlight) hcaller (by rw [huart]; rfl), by rw [huart]; rfl⟩

/-- Settles O39: no sub-step faults, and the one after an expiry returns. -/
theorem uartWaitIsBounded : Obligations.UartWaitIsBounded := by
  intro s i k reg awaits packet ha
  refine ⟨fun f he => ?_, fun howner hreg hf hexpire => ?_⟩
  · rw [exec_accessesUart ha, admitRegister] at he
    split at he
    · cases he
    · exact uartOperation_ne_fault f he
  · obtain ⟨t, hexec, hcaller, ht, hop⟩ := AdmittedUart.expires ⟨ha, howner, hreg⟩ hf hexpire
    obtain ⟨u, hexec', hreturned, -, huart⟩ := ht.returns (r := .err .timeout) (by rw [Uart.verdict?, hop])
      (by rw [hcaller, hf])
    exact ⟨t, u, hexec, hexec', hreturned.of_inFlight (f := s.caller.inFlight) hcaller, by rw [huart]⟩

/-! ## What is sent once -/

/-- A sub-step while sending leaves the older leftovers alone. -/
theorem onSend_txOld (u : Uart) (awaits : Bool) (a : SendAnswer) : (u.onSend awaits a).txOld = u.txOld := by
  rw [onSend_frame]

/-- Settles O40, by the sub-steps a framer that is not idle can make. -/
theorem uartSendsOnce : Obligations.UartSendsOnce := by
  intro s t i k reg awaits packet ha hbusy he
  have hk := uart_exists_of_op hbusy
  rw [exec_accessesUart ha] at he
  obtain ⟨-, he⟩ := admitRegister_next he
  have howner : OwnsUart s k := (admitCaller_next he).1
  rcases uartOperation_cases howner awaits packet with ⟨hop, -⟩ | ⟨hop, -⟩ | ⟨-, -, rest, d, e⟩ |
    ⟨-, -, -, rest, d, e⟩ | ⟨r, -, -, e⟩ | ⟨-, -, e⟩
  · exact absurd hop hbusy
  · exact absurd hop hbusy
  · cases e.symm.trans he
    rw [putUart_uartAt_self s k _ d hk]
    exact ⟨onSend_wire _ _ _, onSend_txOld _ _ _⟩
  · cases e.symm.trans he
    obtain ⟨hwire, hleft, hold⟩ := onReceive_line (s.uartAt k) (drawReceive k s).1
    rw [putUart_uartAt_self s k _ d hk]
    exact ⟨congrArg₂ (· ++ ·) hwire hleft, hold⟩
  · cases e.symm.trans he
    rw [received_uartAt, setUart_uartAt_self s k _ hk]
    exact ⟨rfl, rfl⟩
  · cases e.symm.trans he

end Sys2Proof.Safety
end

-- ==== Rounding, and the values of the conversions ====
section
/-! PROOFS. Rounding toward zero says when a result reaches a number, and each conversion's value is one of these
roundings: the sign of an acceleration (O46) and the source's example values (O51). -/

namespace Sys2Proof.Machine

/-! ## Rounding toward zero -/

theorem trunc_of_nonneg {q : ℚ} (h : 0 ≤ q) : trunc q = ⌊q⌋ := by
  rw [trunc_eq, if_pos h]

theorem trunc_of_neg {q : ℚ} (h : q < 0) : trunc q = ⌈q⌉ := by
  rw [trunc_eq, if_neg (not_le.mpr h)]

/-- R11: rounding toward zero treats both signs alike. -/
theorem trunc_neg (q : ℚ) : trunc (-q) = -trunc q := by
  rcases lt_trichotomy q 0 with h | rfl | h
  · rw [trunc_of_nonneg (neg_nonneg.mpr h.le), trunc_of_neg h, Int.floor_neg]
  · rfl
  · rw [trunc_of_neg (neg_neg_iff_pos.mpr h), trunc_of_nonneg h.le, Int.ceil_neg]

/-- R11: above zero, rounding toward zero reaches an integer exactly where the number itself does. -/
theorem le_trunc_iff {n : ℤ} (hn : 0 < n) (q : ℚ) : n ≤ trunc q ↔ (n : ℚ) ≤ q := by
  by_cases hq : 0 ≤ q
  · rw [trunc_of_nonneg hq, Int.le_floor]
  · have hceil : ⌈q⌉ ≤ 0 := Int.ceil_le.mpr (by simpa using (not_le.mp hq).le)
    have hnq : (0 : ℚ) < n := by exact_mod_cast hn
    rw [trunc_of_neg (not_le.mp hq)]
    exact ⟨fun h => absurd (hn.trans_le h) (not_lt.mpr hceil), fun h => absurd (hnq.le.trans h) hq⟩

theorem trunc_eq_iff {n : ℤ} (hn : 0 < n) (q : ℚ) : trunc q = n ↔ (n : ℚ) ≤ q ∧ q < n + 1 := by
  have hsucc : n + 1 ≤ trunc q ↔ (n : ℚ) + 1 ≤ q := by exact_mod_cast le_trunc_iff (by omega : 0 < n + 1) q
  rw [← le_trunc_iff hn, ← not_le, ← hsucc]
  omega

/-! ## The context -/

/-- R159, in the words of the rule. -/
theorem Context.valid_iff (c : Context) :
    c.valid = true ↔ (∃ n : ℤ, 1 ≤ n ∧ c.clockHz = n) ∧ (∃ n : ℤ, 1 ≤ n ∧ c.microsteps = n) := by
  rw [Context.valid, Bool.and_eq_true, positiveInteger_iff, positiveInteger_iff]

/-! ## Speeds -/

/-- R160, R165: the limit is strict. -/
theorem speedToHz_eq (c : Context) (x : ℕ) :
    speedToHz c x = if 715828 < x then 0 else (x : ℚ) * c.clockHz / 2 ^ 24 := by
  rw [show (2 : ℚ) ^ 24 = 16777216 by norm_num]
  rfl

theorem speedFromHz_of_neg (c : Context) {h : ℚ} (hneg : h < 0) : speedFromHz c h = 0 := if_pos hneg

/-- R161: from zero up the result is one more than the floor. -/
theorem speedFromHz_of_nonneg {c : Context} (hc : c.valid = true) {h : ℚ} (hh : 0 ≤ h) :
    (speedFromHz c h : ℤ) = ⌊h * 2 ^ 24 / c.clockHz⌋ + 1 := by
  have hclock : 0 ≤ c.clockHz := zero_le_one.trans (Context.one_le_of_valid hc).1
  have hfloor : 0 ≤ ⌊h * 2 ^ 24 / c.clockHz⌋ := Int.floor_nonneg.mpr (by positivity)
  rw [speedFromHz, if_neg (not_lt.mpr hh), show (16777216 : ℚ) = 2 ^ 24 by norm_num, Nat.cast_succ]
  exact congrArg (· + 1) (Int.toNat_of_nonneg hfloor)

/-- R164: the two scalings cancel, and the bias of R161 stays. -/
theorem speedFromHz_speedToHz {c : Context} (hc : c.valid = true) {x : ℕ} (hx : x ≤ 715828) :
    speedFromHz c (speedToHz c x) = x + 1 := by
  have hclock : 0 < c.clockHz := zero_lt_one.trans_le (Context.one_le_of_valid hc).1
  have hcancel : (x : ℚ) * c.clockHz / 2 ^ 24 * 2 ^ 24 / c.clockHz = x := by field_simp
  rw [speedToHz_eq, if_neg (not_lt.mpr hx)]
  have hspeed := speedFromHz_of_nonneg hc (h := (x : ℚ) * c.clockHz / 2 ^ 24) (by positivity)
  rw [hcancel, Int.floor_natCast] at hspeed
  exact_mod_cast hspeed

/-! ## Accelerations -/

theorem accelFromHz_eq (c : Context) (a : ℚ) :
    accelFromHz c a = trunc (a * c.clockHz ^ 2 * c.microsteps / (512 * 256 * 2 ^ 24)) := by
  rw [accelFromHz]
  norm_num [pow_two]

/-- Settles O46: the scaling is linear, and the rounding treats both signs alike. -/
theorem accelFromHzIsOdd : Obligations.AccelFromHzIsOdd := by
  intro c a
  rw [accelFromHz, accelFromHz, ← trunc_neg]
  congr 1
  ring

/-! ## Thresholds -/

section

variable {c : Context} {t q : ℚ} (hq : q = 2 ^ 24 / t * (c.microsteps / 256))

include hq

theorem thresholdSpeedToTstep_eq : (thresholdSpeedToTstep c t : ℤ) = min (max (trunc q) 0) (2 ^ 20 - 1) := by
  have hnum : (16777216 : ℚ) = 2 ^ 24 := by norm_num
  rw [thresholdSpeedToTstep, hnum, ← hq]
  exact Int.toNat_of_nonneg (le_min (le_max_right _ _) (by decide))

theorem thresholdSpeedToTstep_le : thresholdSpeedToTstep c t ≤ 2 ^ 20 - 1 := by
  have h := thresholdSpeedToTstep_eq hq
  omega

theorem thresholdSpeedToTstep_of_lt_one (h : q < 1) : thresholdSpeedToTstep c t = 0 := by
  have htrunc : ¬ 1 ≤ trunc q := by
    rw [le_trunc_iff one_pos]
    exact_mod_cast not_le.mpr h
  have heq := thresholdSpeedToTstep_eq hq
  omega

theorem thresholdSpeedToTstep_of_max_le (h : 2 ^ 20 - 1 ≤ q) : thresholdSpeedToTstep c t = 2 ^ 20 - 1 := by
  have htrunc : 2 ^ 20 - 1 ≤ trunc q := (le_trunc_iff (by decide) q).mpr (by exact_mod_cast h)
  have heq := thresholdSpeedToTstep_eq hq
  omega

theorem thresholdSpeedToTstep_of_mem (h1 : 1 ≤ q) (hmax : q < 2 ^ 20 - 1) :
    (thresholdSpeedToTstep c t : ℤ) = ⌊q⌋ := by
  have h0 : 0 ≤ ⌊q⌋ := Int.floor_nonneg.mpr (zero_le_one.trans h1)
  have hlt : ⌊q⌋ < 2 ^ 20 - 1 := Int.floor_lt.mpr (by exact_mod_cast hmax)
  rw [thresholdSpeedToTstep_eq hq, trunc_of_nonneg (zero_le_one.trans h1), max_eq_left h0, min_eq_left hlt.le]

end

/-! ## The source's example values -/

/-- R166 (a): the three thresholds stand on both sides of the clamp. -/
theorem thresholdSpeedToTstep_examples {c : Context} (h : c.microsteps = 256) :
    thresholdSpeedToTstep c 1000 = 16777 ∧ thresholdSpeedToTstep c 10000 = 1677 ∧
      thresholdSpeedToTstep c 1 = 1048575 := by
  have hq (t : ℚ) : 2 ^ 24 / t = 2 ^ 24 / t * (c.microsteps / 256) := by rw [h]; norm_num
  have h1000 := thresholdSpeedToTstep_of_mem (hq 1000) (by norm_num) (by norm_num)
  have h10000 := thresholdSpeedToTstep_of_mem (hq 10000) (by norm_num) (by norm_num)
  have h1 := thresholdSpeedToTstep_of_max_le (hq 1) (by norm_num)
  norm_num at h1000 h10000 h1
  exact ⟨by exact_mod_cast h1000, by exact_mod_cast h10000, h1⟩

/-- Settles O51: the accelerations 1/2, 1 and -1/4 bound `K` by [147590, 147592), [147590, 147591) and
[147588, 147592). -/
theorem sourceExampleValues : Obligations.SourceExampleValues := by
  intro c _
  refine ⟨thresholdSpeedToTstep_examples, ?_⟩
  have hscale (a : ℚ) : accelFromHz c a = trunc (a * (c.clockHz ^ 2 * c.microsteps / 2 ^ 41)) := by
    rw [accelFromHz_eq]
    congr 1
    ring
  generalize c.clockHz ^ 2 * c.microsteps / 2 ^ 41 = K at hscale
  rw [neg_div, accelFromHzIsOdd, neg_inj, hscale, hscale, hscale, trunc_eq_iff (by decide), trunc_eq_iff (by decide),
    trunc_eq_iff (by decide)]
  push_cast
  constructor
  · rintro ⟨-, ⟨hlow, hhigh⟩, -⟩
    exact ⟨by linarith, by linarith⟩
  · rintro ⟨hlow, hhigh⟩
    refine ⟨⟨?_, ?_⟩, ⟨?_, ?_⟩, ?_, ?_⟩ <;> linarith

end Sys2Proof.Machine
end

-- ==== The outcomes of the conversions ====
section
/-! PROOFS. A conversion is refused for its context (O48), and otherwise returns its value or is refused for its range (O43,
O44, O45, O47); the speed round trip (O49); what a conversion reads (O50). -/

namespace Sys2Proof.Safety

open Sys2Proof.Machine

/-! ## The four conversions alike -/

/-- R13: an operation that ends returns its result, and only its caller moves. -/
theorem finish_returns (r : OpResult) (s : State) :
    ∃ t, finish r s = .next t ∧ OnlyCaller s t ∧ Returned s t r :=
  ⟨_, finish_eq r s, onlyCaller_received s r, returned_received rfl⟩

/-- R13: an operation that received `r` has returned nothing else. -/
theorem Returned.eq_of_received {s : State} {r r' : OpResult} (h : Returned s (s.received r) r') : r = r' := by
  by_contra hne
  exact receive_results_ne hne (congrArg Caller.results h)

/-- R13: a returning caller keeps its context. -/
theorem Returned.ctx {s t : State} {r : OpResult} (h : Returned s t r) : t.caller.ctx = s.caller.ctx := by
  unfold Returned at h
  rw [h]

/-- The outcome of an answer, a result or a refusal. -/
def conclude (answer : Except Refusal OpResult) (s : State) : Host.Outcome State Fault Refusal :=
  match answer with
  | .ok r => finish r s
  | .error why => .refused why

theorem conclude_next {answer : Except Refusal OpResult} {s t : State} (h : conclude answer s = .next t) :
    ∃ r, answer = .ok r ∧ t = s.received r := by
  cases answer with
  | ok r => exact ⟨r, rfl, finish_next h⟩
  | error why => cases h

theorem conclude_refused_iff {answer : Except Refusal OpResult} {s : State} {why : Refusal} :
    conclude answer s = .refused why ↔ answer = .error why := by
  cases answer with
  | ok r => exact ⟨nofun, nofun⟩
  | error w => exact ⟨fun h => congrArg Except.error (Host.Outcome.refused.inj h), fun h => by cases h; rfl⟩

theorem conclude_ite {p : Prop} [Decidable p] (why : Refusal) (r : OpResult) (s : State) :
    conclude (if p then .error why else .ok r) s = if p then .refused why else finish r s :=
  apply_ite (conclude · s) p _ _

/-- What a conversion answers in a context that has passed the check of R159; nothing for any other operation. -/
def conversionAnswer? (c : Context) : Instr → Option (Except Refusal OpResult)
  | .convSpeedToHz x => some (.ok (.ok (.hertz (speedToHz c x.toNat))))
  | .convSpeedFromHz h =>
    some (if 4294967295 < speedFromHz c h then .error .speedOutOfRange else .ok (.ok (.natural (speedFromHz c h))))
  | .convAccelFromHz a =>
    some (if accelFromHz c a < -2147483648 ∨ 2147483647 < accelFromHz c a then .error .accelOutOfRange
      else .ok (.ok (.integer (accelFromHz c a))))
  | .convThresholdSpeedToTstep t =>
    some (.ok (if t = 0 then .err .invalidArgument else .ok (.natural (thresholdSpeedToTstep c t))))
  | _ => none

/-- R159: a conversion is its answer behind the check of the context. -/
theorem exec_conversion {i : Instr} (h : IsConversion i) (s : State) :
    ∃ answer, conversionAnswer? s.caller.ctx i = some answer ∧ exec i s = withContext s (conclude answer s) := by
  rcases h with ⟨x, rfl⟩ | ⟨h, rfl⟩ | ⟨a, rfl⟩ | ⟨t, rfl⟩
  · exact ⟨_, rfl, rfl⟩
  · exact ⟨_, rfl, by rw [conclude_ite]; rfl⟩
  · exact ⟨_, rfl, by rw [conclude_ite]; rfl⟩
  · exact ⟨_, rfl, by rw [conclude, apply_ite (finish · s)]; rfl⟩

/-- R159: the refusal for the context is the check's alone. -/
theorem conversionAnswer?_ne_conversionContext (c : Context) (i : Instr) :
    conversionAnswer? c i ≠ some (.error .conversionContext) := by
  cases i with
  | convSpeedFromHz h =>
    rw [conversionAnswer?]
    split <;> nofun
  | convAccelFromHz a =>
    rw [conversionAnswer?]
    split <;> nofun
  | _ => nofun

/-- R167: `stepAngle` and `gearRatio` are not read. -/
theorem conversionAnswer?_congr {c c' : Context} (hclock : c.clockHz = c'.clockHz)
    (hmicro : c.microsteps = c'.microsteps) (i : Instr) : conversionAnswer? c i = conversionAnswer? c' i := by
  obtain ⟨clockHz, microsteps, _, _⟩ := c
  cases hclock
  cases hmicro
  cases i <;> rfl

/-- Settles O48: the check refuses an invalid context, and no answer behind it gives that refusal. -/
theorem conversionContextChecked : Obligations.ConversionContextChecked := by
  intro s i hi
  obtain ⟨answer, hanswer, hexec⟩ := exec_conversion hi s
  rw [hexec, ← Context.valid_iff]
  cases hvalid : s.caller.ctx.valid with
  | true =>
    rw [withContext_of_valid hvalid, conclude_refused_iff]
    exact ⟨fun h => absurd (h ▸ hanswer) (conversionAnswer?_ne_conversionContext _ i), fun h => absurd rfl h⟩
  | false =>
    rw [withContext_of_invalid hvalid]
    exact ⟨fun _ => nofun, fun _ => rfl⟩

/-- Settles O50: two states that agree on the two numbers get the same check and the same answer. -/
theorem conversionsReadOnlyTheContext : Obligations.ConversionsReadOnlyTheContext := by
  intro s s' i hi hclock hmicro
  obtain ⟨answer, hanswer, hexec⟩ := exec_conversion hi s
  obtain ⟨answer', hanswer', hexec'⟩ := exec_conversion hi s'
  obtain rfl : answer = answer' :=
    Option.some.inj (hanswer.symm.trans ((conversionAnswer?_congr hclock hmicro i).trans hanswer'))
  have hagree : s.caller.ctx.valid = s'.caller.ctx.valid := by rw [Context.valid, Context.valid, hclock, hmicro]
  rw [hexec, hexec']
  cases hvalid : s'.caller.ctx.valid with
  | true =>
    rw [withContext_of_valid (hagree.trans hvalid), withContext_of_valid hvalid]
    refine ⟨fun t r he hr => ?_, fun why he => conclude_refused_iff.mpr (conclude_refused_iff.mp he)⟩
    obtain ⟨r', rfl, rfl⟩ := conclude_next he
    cases hr.eq_of_received
    obtain ⟨t', he', honly, hreturned⟩ := finish_returns r s'
    exact ⟨t', he', hreturned, honly⟩
  | false =>
    rw [withContext_of_invalid (hagree.trans hvalid), withContext_of_invalid hvalid]
    exact ⟨nofun, fun _ he => he⟩

/-! ## Each conversion in a valid context -/

section

variable {s : State} (hvalid : s.caller.ctx.valid = true)

include hvalid

theorem exec_convSpeedToHz (x : Value) :
    exec (.convSpeedToHz x) s = finish (.ok (.hertz (speedToHz s.caller.ctx x.toNat))) s :=
  withContext_of_valid hvalid _

theorem exec_convSpeedFromHz_of_le {h : ℚ} (hle : speedFromHz s.caller.ctx h ≤ 2 ^ 32 - 1) :
    exec (.convSpeedFromHz h) s = finish (.ok (.natural (speedFromHz s.caller.ctx h))) s :=
  (withContext_of_valid hvalid _).trans (if_neg (not_lt.mpr hle))

theorem exec_convSpeedFromHz_of_lt {h : ℚ} (hlt : 2 ^ 32 - 1 < speedFromHz s.caller.ctx h) :
    exec (.convSpeedFromHz h) s = .refused .speedOutOfRange :=
  (withContext_of_valid hvalid _).trans (if_pos hlt)

theorem exec_convAccelFromHz_of_mem {a : ℚ} (hlow : -2 ^ 31 ≤ accelFromHz s.caller.ctx a)
    (hhigh : accelFromHz s.caller.ctx a ≤ 2 ^ 31 - 1) :
    exec (.convAccelFromHz a) s = finish (.ok (.integer (accelFromHz s.caller.ctx a))) s :=
  (withContext_of_valid hvalid _).trans (if_neg (not_or.mpr ⟨not_lt.mpr hlow, not_lt.mpr hhigh⟩))

theorem exec_convAccelFromHz_of_not_mem {a : ℚ}
    (h : accelFromHz s.caller.ctx a < -2 ^ 31 ∨ 2 ^ 31 - 1 < accelFromHz s.caller.ctx a) :
    exec (.convAccelFromHz a) s = .refused .accelOutOfRange :=
  (withContext_of_valid hvalid _).trans (if_pos h)

theorem exec_convThresholdSpeedToTstep_zero :
    exec (.convThresholdSpeedToTstep 0) s = finish (.err .invalidArgument) s :=
  (withContext_of_valid hvalid _).trans (if_pos rfl)

theorem exec_convThresholdSpeedToTstep_of_ne {t : ℚ} (ht : t ≠ 0) :
    exec (.convThresholdSpeedToTstep t) s = finish (.ok (.natural (thresholdSpeedToTstep s.caller.ctx t))) s :=
  (withContext_of_valid hvalid _).trans (if_neg ht)

end

/-! ## Their results -/

/-- Settles O43: the value returned is that of R160. -/
theorem speedToHzResult : Obligations.SpeedToHzResult := by
  intro s x hvalid
  rw [exec_convSpeedToHz hvalid, speedToHz_eq]
  exact finish_returns _ s

/-- Settles O44, by the sign of the input and the range of the value. -/
theorem speedFromHzResult : Obligations.SpeedFromHzResult := by
  intro s h hvalid
  refine ⟨fun hneg => ?_, fun hh n hn => ?_⟩
  · have hzero := speedFromHz_of_neg s.caller.ctx hneg
    rw [exec_convSpeedFromHz_of_le hvalid (by rw [hzero]; decide), hzero]
    exact finish_returns _ s
  · obtain rfl : n = speedFromHz s.caller.ctx h := by
      exact_mod_cast hn.trans (speedFromHz_of_nonneg hvalid hh).symm
    refine ⟨fun hle => ?_, exec_convSpeedFromHz_of_lt hvalid⟩
    rw [exec_convSpeedFromHz_of_le hvalid hle]
    exact finish_returns _ s

/-- Settles O45: the integer of R162 is the model's acceleration, and its range decides. -/
theorem accelFromHzResult : Obligations.AccelFromHzResult := by
  intro s a q n hvalid hq hn
  obtain rfl : n = accelFromHz s.caller.ctx a := by rw [accelFromHz_eq, ← hq, trunc_eq, hn]
  refine ⟨fun hlow hhigh => ?_, exec_convAccelFromHz_of_not_mem hvalid⟩
  rw [exec_convAccelFromHz_of_mem hvalid hlow hhigh]
  exact finish_returns _ s

/-- Settles O47: the zero threshold is the error, and every other one is clamped. -/
theorem tstepResult : Obligations.TstepResult := by
  intro s t q hvalid hq
  refine ⟨?_, fun ht => ?_⟩
  · rintro rfl
    rw [exec_convThresholdSpeedToTstep_zero hvalid]
    exact finish_returns _ s
  · obtain ⟨u, he, honly, hreturned⟩ := finish_returns (.ok (.natural (thresholdSpeedToTstep s.caller.ctx t))) s
    exact ⟨u, _, (exec_convThresholdSpeedToTstep_of_ne hvalid ht).trans he, honly, hreturned,
      thresholdSpeedToTstep_le hq, thresholdSpeedToTstep_of_lt_one hq, thresholdSpeedToTstep_of_max_le hq,
      thresholdSpeedToTstep_of_mem hq⟩

/-- Settles O49: the context is the same after the first command, and the two scalings cancel in it. -/
theorem speedRoundTripAddsOne : Obligations.SpeedRoundTripAddsOne := by
  intro s x hvalid hx
  obtain ⟨t, ht, -, hreturned⟩ := finish_returns (.ok (.hertz (speedToHz s.caller.ctx x.toNat))) s
  have hctx : t.caller.ctx = s.caller.ctx := hreturned.ctx
  have hback : speedFromHz t.caller.ctx (speedToHz s.caller.ctx x.toNat) = x.toNat + 1 := by
    rw [hctx, speedFromHz_speedToHz hvalid hx]
  obtain ⟨u, hu, -, hreturned'⟩ := finish_returns (.ok (.natural (x.toNat + 1))) t
  refine ⟨t, u, _, (exec_convSpeedToHz hvalid x).trans ht, hreturned, ?_, hreturned'⟩
  rw [exec_convSpeedFromHz_of_le (hctx ▸ hvalid) (by omega), hback]
  exact hu

end Sys2Proof.Safety
end

-- ==== The unbound binding port ====
section
/-! PROOFS. A binding port with no transport ends either operation with an error (O42). -/

namespace Sys2Proof.Safety

open Sys2Proof.Machine

section
variable {s : State} {reg : Byte} (hreg : reg.toNat < 0x80) (hport : s.caller.bind.transport = none)
include hreg hport

/-- R190: past the register check, an unbound port has no transport to forward a write to. -/
theorem exec_bindWrite_unbound (value : Value) : exec (.bindWrite reg value) s = finish (.err .configuration) s := by
  rw [show exec (.bindWrite reg value) s = execBindWrite reg value s from rfl, execBindWrite, admitRegister_of_lt hreg,
    hport]

/-- R191: past the register check, an unbound port has no transport to forward a read to. -/
theorem exec_bindRead_unbound : exec (.bindRead reg) s = finish (.err .configuration) s := by
  rw [show exec (.bindRead reg) s = execBindRead reg s from rfl, execBindRead, admitRegister_of_lt hreg, hport]

end

/-- Settles O42: both operations only return the error. -/
theorem unboundPortRaises : Obligations.UnboundPortRaises := by
  intro s reg value hreg hport
  obtain ⟨t, hfinish, honly, hreturned⟩ := finish_returns (.err .configuration) s
  exact ⟨⟨t, (exec_bindWrite_unbound hreg hport value).trans hfinish, hreturned, honly⟩,
    ⟨t, (exec_bindRead_unbound hreg hport).trans hfinish, hreturned, honly⟩⟩

end Sys2Proof.Safety
end

-- ==== Readiness after an access ====
section
/-! PROOFS. The register a line answers for after an access (O26). -/

namespace Sys2Proof.Safety

open Sys2Proof.Machine

section

variable {p q : Spi} {line : Nat} {x : Exchange} (h : Exchanged p q line x)

include h

/-- R75, R240: after a write frame the line answers for no register, whatever came back. -/
theorem Exchanged.readyFor_write (hform : x.form = .write) : q.readyFor line = none := by
  obtain ⟨-, -, -, hlog, -⟩ := h
  obtain ⟨form, tx, rx⟩ := x
  cases hform
  simp [Spi.readyFor, hlog]

/-- R240, R241: after a fault the line answers for no register, whatever the frame was. -/
theorem Exchanged.readyFor_fault (hrx : x.rx = none) : q.readyFor line = none := by
  obtain ⟨-, -, -, hlog, -⟩ := h
  obtain ⟨form, tx, rx⟩ := x
  cases hrx
  simp [Spi.readyFor, hlog]

/-- R240: the other lines answer for what they did. -/
theorem Exchanged.readyFor_of_ne {l : Nat} (hl : l ≠ line) : q.readyFor l = p.readyFor l := by
  obtain ⟨-, -, -, -, -, hother, -⟩ := h
  obtain ⟨-, hlog⟩ := hother l hl
  rw [Spi.readyFor, hlog, Spi.readyFor]

end

/-- Settles O26: an access that returned made one exchange, answered or faulted, and the line's record starts with it. -/
theorem readinessFollowsTheLastExchange : Obligations.ReadinessFollowsTheLastExchange := by
  intro s t i k line reg device form tx ha h hc hroute
  obtain ⟨reply, r, s', hperform, rfl⟩ := exec_accessesSpi_next ha h
  rw [received_spiAt]
  cases hdraw : (drawExchange k s).1 with
  | never => cases hperform.symm.trans ((spiPerform_stuck_iff reply).mpr ⟨hc, ⟨line, hroute⟩, hdraw⟩)
  | fault =>
    obtain ⟨_, hperform', hexchanged⟩ := spiPerform_of_fault form tx reply hc hroute hdraw
    cases hperform.symm.trans hperform'
    exact ⟨nofun, fun _ => hexchanged.readyFor_fault rfl, fun _ => hexchanged.readyFor_of_ne⟩
  | ok rx =>
    obtain ⟨_, hperform', hexchanged⟩ := spiPerform_of_ok form tx reply hc hroute hdraw
    cases hperform.symm.trans hperform'
    refine ⟨?_, fun hnone => hexchanged.readyFor_write (hnone.resolve_right nofun), fun _ => hexchanged.readyFor_of_ne⟩
    rintro _ - rfl
    exact hexchanged.readyFor_read

end Sys2Proof.Safety
end
